-- ==== Sys2Proof/Word.lean ====
section
/-! DEFINITION. The words the block moves: 8-bit channel values, 16-bit dimensions, 32-bit pixels and registers
(spec/00_scope.md R6, R7; every quantity is unsigned, bit 0 is the least significant bit). -/

namespace Sys2Proof

/-- One 8-bit channel value, CH_W of R6; also one byte of the platform's memory. -/
abbrev Byte := BitVec 8

/-- A grid dimension, a line index or a position in a line: DIM_W = 16 bits (R6, R17, R21). -/
abbrev Half := BitVec 16

/-- A pixel word, a host register or an accumulator: PIX_W = ACC_W = 32 bits (R6, R12, R14). -/
abbrev Word := BitVec 32

/-- `zext_32` of a narrower value (R7). -/
abbrev zext32 {w : Nat} (v : BitVec w) : Word := v.setWidth 32

end Sys2Proof
end

