-- ==== Sys2Proof/Config.lean ====
section
/-! DEFINITION. What is fixed for the machine (spec/00_scope.md R6) and the one value the spec leaves open in states
no run reaches. The widths are those of R6's defaults; they appear in the types of Word.lean. -/

namespace Sys2Proof.Config

/-- R_MIN (R6). -/
abbrev rMin : Nat := 1

/-- R_MAX (R6): the radius register clamps here (R23). -/
abbrev rMax : Nat := 254

/-- WIN_MAX = 2 * R_MAX + 1 (R6, R11): how many window registers there are. -/
abbrev winMax : Nat := 509

/-- DIM_W (R6): the width of WIDTH.W, HEIGHT.H, SEQ.LINE, SEQ.POS and of a command's ARG field. -/
abbrev dimW : Nat := 16

/-- IDX_W (R6): the width of a pixel index. -/
abbrev idxW : Nat := 32

/-- ACC_W (R6): the width of an accumulator lane. -/
abbrev accW : Nat := 32

/-- The two values of the platform parameter PIX_BYTE_ORDER (R6, R34). -/
inductive ByteOrder where
  | littleEndian
  | bigEndian
deriving DecidableEq, Repr

/-- PIX_BYTE_ORDER (R34): how the platform lays a pixel word out in bytes; the default of R34, DESIGN CHOICE
(notes/assumptions/5.md). -/
def pixByteOrder : ByteOrder := .littleEndian

/-- What a byte of pixel memory that nothing has written reads as.
DESIGN CHOICE (notes/assumptions/1.md): the spec gives no power-on contents. -/
abbrev unlistedByte : Byte := 0

/-- How many bytes the pixel space spans: 2^IDX_W pixels of 4 bytes (R30). -/
abbrev memBytes : Nat := 2 ^ 34

/-- The quotient of an EMIT whose divisor register holds 0. R75 and R82 rule the case out (DIV >= 4 while a command
runs) and state no value for it; it is a FREE VALUE (notes/assumptions/4.md), applied to the dividend. -/
opaque divByZero : Word → Word

end Sys2Proof.Config
end

