-- ==== Sys2Proof/Syntax.lean ====
section
/-! DEFINITION. The instruction set as syntax: the eleven rows of spec/opcode_table.json (spec/30_encoding.md R57),
one constructor each, and the formats their words are written in (R47). -/

namespace Sys2Proof

/-- The four channels of a pixel, in the order of their selector codes 0 to 3 (spec/30_encoding.md R46). -/
inductive Channel where
  | b
  | g
  | r
  | a
deriving DecidableEq, Repr

/-- Where an encoded word is presented to the block, hence which format it is read in (R47). A command word is
written to register CMD, a micro-operation code stands in SEQ.UOP, a selector and a pixel word are inputs of the
channel codec. UNPACK and PACK share the format PIX (R57): which of the two applies is a matter of wiring, not of
bits, so PIX stands here twice. -/
inductive Format where
  | cmd
  | uop
  | sel
  | pixUnpack
  | pixPack
deriving DecidableEq, Repr

/-- One constructor per row of the opcode table. Line indices are plain numbers; `Instr.wf` bounds them by the ARG
field's width. -/
inductive Instr where
  /-- Whole-grid blur: every row, then every column (spec/42_pass_drivers.md R95). -/
  | blur
  /-- The horizontal pass: every row (R93). -/
  | hpass
  /-- The vertical pass: every column (R94). -/
  | vpass
  /-- One row (R91). -/
  | hline (y : Nat)
  /-- One column (R92). -/
  | vline (x : Nat)
  /-- Fill the window and the sums at the start of a line (spec/41_window_engine.md R72). -/
  | seed
  /-- Write the current output back to the line (R75). -/
  | emit
  /-- Slide the window by one pixel (R77). -/
  | advance
  /-- Select one channel of the pixel on the codec's input (spec/40_codec.md R60). -/
  | extract (c : Channel)
  /-- Widen a pixel's four channels to 32-bit lanes (R61). -/
  | unpack (p : Word)
  /-- Join four channel values into a pixel word (R62). -/
  | pack (a r g b : Byte)
deriving DecidableEq, Repr

/-- The format an instruction's word is written in (spec/opcode_table.json, `format`). -/
def Instr.format : Instr → Format
  | .blur => .cmd
  | .hpass => .cmd
  | .vpass => .cmd
  | .hline _ => .cmd
  | .vline _ => .cmd
  | .seed => .uop
  | .emit => .uop
  | .advance => .uop
  | .extract _ => .sel
  | .unpack _ => .pixUnpack
  | .pack _ _ _ _ => .pixPack

end Sys2Proof
end

