-- ==== Sys2Proof/WellFormed.lean ====
section
/-! DEFINITION. Which instructions can be encoded. The only operand that is wider as syntax than as bits is the line
index of HLINE and VLINE: ARG has DIM_W = 16 bits (spec/30_encoding.md R48, R50). Channel selectors, pixel words and
channel values fill their fields exactly, so every value of theirs is well formed (R45, R46). -/

namespace Sys2Proof

/-- A line index fits the ARG field of a command word. -/
def lineIndexFits (k : Nat) : Bool := decide (k < 2 ^ Config.dimW)

def Instr.wf : Instr → Bool
  | .blur => true
  | .hpass => true
  | .vpass => true
  | .hline y => lineIndexFits y
  | .vline x => lineIndexFits x
  | .seed => true
  | .emit => true
  | .advance => true
  | .extract _ => true
  | .unpack _ => true
  | .pack _ _ _ _ => true

end Sys2Proof
end

