-- ==== Sys2Proof/Decode.lean ====
section
/-! DEFINITION. The decoder, total on every word of every format and refusing by name, and the encoder beside it
(spec/30_encoding.md R45 to R53, spec/43_host_interface.md R107). Decoding reads no state. -/

namespace Sys2Proof

/-- Why a word is no instruction of its format. -/
inductive DecodeError where
  /-- A command word whose OPCODE is 0x00 or 0x06 to 0xFF (R53). -/
  | illegalOpcode
  /-- A command word whose ZERO field is not 0x00 (R53). -/
  | zeroFieldSet
  /-- BLUR, HPASS or VPASS with ARG not 0x0000 (R53). -/
  | argFieldSet
  /-- Micro-operation code 0, IDLE: it names no micro-operation (R51). -/
  | idleCode
  /-- A word with a bit set above the two bits of UOP or SEL (R47). -/
  | wordTooWide
deriving DecidableEq, Repr

/-- The selector code of a channel (R46). -/
def Channel.code : Channel → BitVec 2
  | .b => 0
  | .g => 1
  | .r => 2
  | .a => 3

/-- The channel a selector code names: all four codes are used (R46). -/
def Channel.ofCode (c : BitVec 2) : Channel :=
  if c = 0 then .b else if c = 1 then .g else if c = 2 then .r else .a

/-- OPCODE, bits 31:24 of a command word (R48, R107). -/
def opcodeField (c : Word) : Byte := c.extractLsb' 24 8

/-- ZERO, bits 23:16 of a command word (R48, R107). -/
def zeroField (c : Word) : Byte := c.extractLsb' 16 8

/-- ARG, bits 15:0 of a command word (R48, R107). -/
def argField (c : Word) : Half := c.extractLsb' 0 16

/-- A whole-grid command takes no argument: ARG must be zero (R48). -/
def decodeNoArg (i : Instr) (arg : Half) : Except DecodeError Instr :=
  if arg = 0 then .ok i else .error .argFieldSet

/-- Command words (R49, R53, R107). -/
def decodeCmd (c : Word) : Except DecodeError Instr :=
  if zeroField c ≠ 0 then .error .zeroFieldSet
  else if opcodeField c = 0x01 then decodeNoArg .blur (argField c)
  else if opcodeField c = 0x02 then decodeNoArg .hpass (argField c)
  else if opcodeField c = 0x03 then decodeNoArg .vpass (argField c)
  else if opcodeField c = 0x04 then .ok (.hline (argField c).toNat)
  else if opcodeField c = 0x05 then .ok (.vline (argField c).toNat)
  else .error .illegalOpcode

/-- Micro-operation codes (R51). -/
def decodeUop (u : BitVec 2) : Except DecodeError Instr :=
  if u = 1 then .ok .seed
  else if u = 2 then .ok .emit
  else if u = 3 then .ok .advance
  else .error .idleCode

/-- The 2-bit formats hold nothing above bit 1 (R47). -/
def decodeNarrow (f : BitVec 2 → Except DecodeError Instr) (w : Word) : Except DecodeError Instr :=
  if w.toNat < 4 then f (w.setWidth 2) else .error .wordTooWide

/-- PACK's four operands are the fields of its PIX word (R45, R62). -/
def decodePack (w : Word) : Instr :=
  .pack (w.extractLsb' 24 8) (w.extractLsb' 16 8) (w.extractLsb' 8 8) (w.extractLsb' 0 8)

/-- The decoder: the instruction a word is in the format it is presented in, or the reason it is none. -/
def decode (f : Format) (w : Word) : Except DecodeError Instr :=
  match f with
  | .cmd => decodeCmd w
  | .uop => decodeNarrow decodeUop w
  | .sel => decodeNarrow (fun c => .ok (.extract (Channel.ofCode c))) w
  | .pixUnpack => .ok (.unpack w)
  | .pixPack => .ok (decodePack w)

/-- A line command's word: OPCODE, ZERO = 0x00 and the line index in ARG (R48, R49). -/
def lineWord (opcode : Byte) (k : Nat) : Word :=
  opcode ++ (0 : Byte) ++ BitVec.ofNat 16 k

/-- The encoder, from the encodings of spec/opcode_table.json. -/
def encode : Instr → Word
  | .blur => 0x01000000
  | .hpass => 0x02000000
  | .vpass => 0x03000000
  | .hline y => lineWord 0x04 y
  | .vline x => lineWord 0x05 x
  | .seed => 1
  | .emit => 2
  | .advance => 3
  | .extract c => zext32 c.code
  | .unpack p => p
  | .pack a r g b => a ++ r ++ g ++ b

/-- The instruction of a decoding, forgetting why there is none. -/
def decoded (f : Format) (w : Word) : Option Instr :=
  match decode f w with
  | .ok i => some i
  | .error _ => none

/-- Which format a bare table word is read in. The table's formats overlap: UOP and SEL are both 2 bits, and every
32-bit word is a PIX word (R45), the command words among them. On the hardware the port decides; a bare word has no
port, so the formats are tried in the table's own order (CMD, UOP, SEL, PIX as UNPACK) and the first that has an
instruction for it is taken. DESIGN CHOICE (notes/assumptions/12.md): nothing but the host's two questions uses it;
a word written to CMD is read by `decode .cmd` alone. -/
def tableFormat (nbits w : Nat) : Option Format :=
  if 2 ^ 32 ≤ w then none
  else if nbits ≤ 8 then
    if (decoded .uop (BitVec.ofNat 32 w)).isSome then some .uop
    else if (decoded .sel (BitVec.ofNat 32 w)).isSome then some .sel
    else none
  else if (decoded .cmd (BitVec.ofNat 32 w)).isSome then some .cmd
  else some .pixUnpack

/-- The instruction the decoder reads from an opcode-table word of `nbits` bits. -/
def decodeTableWord (nbits w : Nat) : Option Instr :=
  match tableFormat nbits w with
  | some f => decoded f (BitVec.ofNat 32 w)
  | none => none

end Sys2Proof
end

