-- ==== Sys2Proof/Machine/State.lean ====
section
/-! DEFINITION. The state of the machine: everything spec/10_state.md R10 gives the block, the pixel memory behind its
pixel port (spec/20_memory.md R30), and, apart, the model's own fields: what the environment will do next, what
crossed the two ports so far, and the codec's wires. Plain data throughout. -/

namespace Sys2Proof.Machine

/-- One 32-bit register per channel lane (spec/10_state.md R12; spec/40_codec.md R61, R66). -/
structure Lanes where
  b : Word
  g : Word
  r : Word
  a : Word
deriving DecidableEq, Repr

/-- SEQ.PASS (R17): rows, or columns. -/
inductive Pass where
  | h
  | v
deriving DecidableEq, Repr

/-- SEQ.UOP (R17): the next micro-operation; the codes are those of spec/30_encoding.md R51. -/
inductive Uop where
  | idle
  | seed
  | emit
  | advance
deriving DecidableEq, Repr

/-- The code of a micro-operation in the format UOP (R51). -/
def Uop.code : Uop → BitVec 2
  | .idle => 0
  | .seed => 1
  | .emit => 2
  | .advance => 3

/-- SEQ, the sequencer position (R17): the block's only notion of what comes next. -/
structure Seq where
  pass : Pass
  line : Half
  pos : Half
  uop : Uop
deriving DecidableEq, Repr

/-- STATUS (R16); bits 31:4 are reserved and are no state. -/
structure Status where
  busy : Bool
  done : Bool
  err : Bool
  drop : Bool
deriving DecidableEq, Repr

/-- INTEN (R19); the other bits are reserved and are no state. -/
structure Inten where
  doneIe : Bool
  errIe : Bool
deriving DecidableEq, Repr

/-- ERRCODE.CODE (R24) by name; codes 6 to 15 are never recorded (spec/60_exceptions.md R115). -/
inductive ErrCode where
  | none
  | invalidGeometry
  | badDim
  | badRadius
  | illegalCmd
  | badLine
deriving DecidableEq, Repr

/-- The 4-bit error codes (R115). -/
def ErrCode.code : ErrCode → BitVec 4
  | .none => 0
  | .invalidGeometry => 1
  | .badDim => 2
  | .badRadius => 3
  | .illegalCmd => 4
  | .badLine => 5

/-- Something that happens to the block, or the engine's turn (spec/00_scope.md R147: two agents and a reset input;
their steps are atomic and interleave in any order). The list of events in `State.script` says which comes next. -/
inductive Event where
  /-- The engine takes its enabled step, if it has one (spec/43_host_interface.md R109). -/
  | engine
  /-- The host reads register `n` (R102). -/
  | regRead (n : BitVec 4)
  /-- The host writes `v` to register `n` (R103); with `n` = 0 it presents the command word `v` (R106). -/
  | regWrite (n : BitVec 4) (v : Word)
  /-- The host reads pixel index `i` by its own path, not through the block (spec/20_memory.md R41). -/
  | pixRead (i : Word)
  /-- The host writes pixel index `i` by its own path (R41). -/
  | pixWrite (i v : Word)
  /-- The input rst is asserted and released (spec/70_reset_and_hazards.md R133). -/
  | rst
  /-- The codec's inputs carry the pixel `p` and the selector `c` (spec/40_codec.md R60). -/
  | codecSelect (p : Word) (c : BitVec 2)
  /-- The pixel word `p` is presented to UNPACK (R61). -/
  | codecUnpack (p : Word)
  /-- The four channel values of the PIX word `w` are presented to PACK (R62). -/
  | codecPack (w : Word)
deriving DecidableEq, Repr

/-- One access at the pixel port, the `Rk` and `Wk` of spec/42_pass_drivers.md R89; `i` is the pixel index. -/
inductive Access where
  | read (i : Nat)
  | write (i : Nat) (v : Word)
deriving DecidableEq, Repr

/-- One finished host transaction, with the data that crossed the port (spec/30_encoding.md R55). -/
inductive Transaction where
  | regRead (n : BitVec 4) (v : Word)
  | regWrite (n : BitVec 4) (v : Word)
  | pixRead (i v : Word)
  | pixWrite (i v : Word)
deriving DecidableEq, Repr

/-- The codec's wires (spec/40_codec.md): the pixel on its input and the three functions' outputs. The codec has no
state of its own (R64); these fields are where the model shows a codec function's result. -/
structure Codec where
  /-- The pixel operand EXTRACT selects from. -/
  pixel : Word
  /-- EXTRACT's 8-bit result. -/
  channel : Byte
  /-- UNPACK's four lanes. -/
  lanes : Lanes
  /-- PACK's pixel word. -/
  packed : Word
deriving DecidableEq, Repr

structure State where
  /-- WIN (R11), `WIN[0]` first. A register past the end of the list holds the reset value
  (notes/assumptions/13.md). -/
  win : List Word
  /-- SUM[c] (R12). -/
  sum : Lanes
  /-- SUMOUT[c] (R12). -/
  sumOut : Lanes
  /-- SUMIN[c] (R12). -/
  sumIn : Lanes
  /-- DIV (R13). -/
  div : BitVec 16
  /-- SEQ (R17). -/
  seq : Seq
  /-- OPC (R26). -/
  opc : Byte
  /-- STATUS (R16). -/
  status : Status
  /-- CTRL.BLUR_ALPHA (R18). -/
  blurAlpha : Bool
  /-- INTEN (R19). -/
  inten : Inten
  /-- BUFLEN.LEN (R20). -/
  buflen : Word
  /-- WIDTH.W (R21). -/
  width : Half
  /-- HEIGHT.H (R22). -/
  height : Half
  /-- RADIUS.R (R23): 8 bits, write-any-read-legal, so it holds 0 to 254 and never 255. -/
  radius : Fin 255
  /-- ERRCODE.CODE (R24). -/
  errcode : ErrCode
  /-- ERRINFO.INFO (R25). -/
  errinfo : Word
  /-- Pixel memory as the platform's bytes (R30, R34), byte address 4 * index + byte, offset from PIXBASE. -/
  mem : List Host.Cell
  /-- How many pixels, from index 0, the platform backs with memory (R36, R147): a parameter, changed by no step
  (notes/assumptions/3.md). -/
  backed : Nat
  /-- The model's: pixel indices below this belong to a command and not to the host (R41 (c), R136;
  notes/assumptions/8.md). -/
  lent : Nat
  /-- The model's: what happens next, oldest first; when it is empty the engine has every turn
  (notes/assumptions/7.md). -/
  script : List Event
  /-- The model's: the finished host transactions, oldest first (notes/assumptions/14.md). -/
  hostLog : List Transaction
  /-- The model's: the pixel-port accesses so far, oldest first (R89, R111; notes/assumptions/14.md). -/
  accesses : List Access
  /-- The model's: the codec's wires (notes/assumptions/6.md). -/
  codec : Codec
deriving DecidableEq, Repr

/-- Why the machine stops. Both are safe: the model stops where the spec gives no step. -/
inductive Fault where
  /-- SEED, EMIT, ADVANCE or a host pixel access reached a pixel index the platform does not back
  (spec/93_implementation_defined.md U9: the engine is stuck). Safe. -/
  | unbackedPixel
  /-- The host touched a pixel that belongs to a running command (spec/20_memory.md R41 (c),
  spec/93_implementation_defined.md U7: the access is a race). Raised by the host's own pixel accesses. Safe. -/
  | bufferRace
deriving DecidableEq, Repr

/-- Why an instruction has no meaning. -/
inductive Refusal where
  /-- Raised by `exec` for an instruction this model gives no meaning yet. Safe. -/
  | notModelled (mnemonic : String)
deriving DecidableEq, Repr

/-- What a step or an instruction answers. -/
abbrev Result := Host.Outcome State Fault Refusal

/-- All four lanes 0. -/
def Lanes.zero : Lanes := { b := 0, g := 0, r := 0, a := 0 }

/-- The machine right after reset (spec/10_state.md R28). The host registers and SEQ.UOP have the values of R28. R28
gives WIN, the accumulators, DIV, OPC and SEQ's other fields no value: they are 0 here, DESIGN CHOICE
(notes/assumptions/2.md). Nothing is pending, nothing has crossed a port, memory lists nothing, and the platform backs
the whole pixel space (notes/assumptions/3.md). -/
def State.reset : State where
  win := []
  sum := Lanes.zero
  sumOut := Lanes.zero
  sumIn := Lanes.zero
  div := 0
  seq := { pass := .h, line := 0, pos := 0, uop := .idle }
  opc := 0
  status := { busy := false, done := false, err := false, drop := false }
  blurAlpha := true
  inten := { doneIe := false, errIe := false }
  buflen := 0
  width := 0
  height := 0
  radius := 0
  errcode := .none
  errinfo := 0
  mem := []
  backed := 2 ^ Config.idxW
  lent := 0
  script := []
  hostLog := []
  accesses := []
  codec := { pixel := 0, channel := 0, lanes := Lanes.zero, packed := 0 }

end Sys2Proof.Machine
end

