-- ==== Sys2Proof/Machine/Flags.lean ====
section
/-! DEFINITION. STATUS and what is computed from it: its word, its write-one-to-clear, the dropped write, the
interrupt output (spec/10_state.md R16; spec/43_host_interface.md R104, R105; spec/60_exceptions.md R118, R125). -/

namespace Sys2Proof.Machine

/-- A bit as the least significant bit of a word. -/
def bitWord (b : Bool) : Word := zext32 (BitVec.ofBool b)

/-- STATUS as `RegRead(1)` returns it: `zext_32(DROP ++ ERR ++ DONE ++ BUSY)` (R102). -/
def statusWord (t : Status) : Word :=
  zext32 (BitVec.ofBool t.drop ++ BitVec.ofBool t.err ++ BitVec.ofBool t.done ++ BitVec.ofBool t.busy)

/-- INTEN as `RegRead(3)` returns it: `zext_32(ERR_IE ++ DONE_IE ++ 0b0)` (R102). -/
def intenWord (t : Inten) : Word :=
  zext32 (BitVec.ofBool t.errIe ++ BitVec.ofBool t.doneIe ++ (0 : BitVec 1))

/-- A write that comes at the wrong time is lost and says so: STATUS.DROP <- 1, nothing else (R104, R106 step 1). -/
def dropWrite (s : State) : State := { s with status.drop := true }

/-- A command is taken: STATUS.DONE <- 0 (R106 step 2). -/
def takeCommand (s : State) : State := { s with status.done := false }

/-- W1C of DONE (R105). -/
def clearDone (s : State) : State := { s with status.done := false }

/-- W1C of ERR, the return from an error: ERRCODE and ERRINFO go to 0 with it (R105, R125). -/
def clearError (s : State) : State :=
  { s with status.err := false, errcode := .none, errinfo := 0 }

/-- W1C of DROP (R105). -/
def clearDrop (s : State) : State := { s with status.drop := false }

/-- `RegWrite(STATUS, v)` (R105): bits 1, 2 and 3 clear what they are written 1 to; every other bit is ignored. -/
def writeStatus (v : Word) (s : State) : State :=
  let s := if v.getLsbD 1 then clearDone s else s
  let s := if v.getLsbD 2 then clearError s else s
  if v.getLsbD 3 then clearDrop s else s

/-- The irq output: a level, a function of the state (R118). -/
def irq (s : State) : Bool :=
  (s.status.done && s.inten.doneIe) || (s.status.err && s.inten.errIe)

end Sys2Proof.Machine
end

