-- ==== Sys2Proof/Machine/Operands.lean ====
section
/-! DEFINITION. Operand forms: the channel codec's functions (spec/40_codec.md), the window's registers and weights
(spec/41_window_engine.md R67, R71) and the addressing of a line (spec/42_pass_drivers.md R85). Pure functions. -/

namespace Sys2Proof.Machine

/-- EXTRACT(p, c), `p[8*c+7 : 8*c]` (R60). -/
def extractChannel (p : Word) (c : Channel) : Byte :=
  p.extractLsb' (8 * c.code.toNat) 8

/-- PACK(a, r, g, b) (R62). -/
def packPixel (a r g b : Byte) : Word := a ++ r ++ g ++ b

/-- The lane of one channel. -/
def Lanes.get (l : Lanes) : Channel → Word
  | .b => l.b
  | .g => l.g
  | .r => l.r
  | .a => l.a

/-- The same lane formula in all four channels: no lane reads another (R66). -/
def Lanes.ofFn (f : Channel → Word) : Lanes :=
  { b := f .b, g := f .g, r := f .r, a := f .a }

/-- UNPACK(p): each channel zero-extended to 32 bits (R61). -/
def unpackPixel (p : Word) : Lanes := Lanes.ofFn fun c => zext32 (extractChannel p c)

/-- `ch_c(p)`: channel `c`'s lane of UNPACK(p), as the number it is (R61). -/
def chan (c : Channel) (p : Word) : Nat := ((unpackPixel p).get c).toNat

/-- `f 0 + f 1 + ... + f (n - 1)`. -/
def sumUpTo (f : Nat → Nat) : Nat → Nat
  | 0 => 0
  | n + 1 => sumUpTo f n + f n

/-- The weight of window position `i` at radius `r` (R67). -/
def weight (r i : Nat) : Nat := min (i + 1) (2 * r + 1 - i)

/-- The divisor, the sum of the weights (R69, R70). -/
def divisor (r : Nat) : Nat := r * (r + 2) + 1

/-- SUM[c]'s defining sum over a window (R12). -/
def windowSum (r : Nat) (x : Nat → Word) (c : Channel) : Nat :=
  sumUpTo (fun i => weight r i * chan c (x i)) (2 * r + 1)

/-- SUMOUT[c]'s defining sum: positions 0 to r, the centre included (R12). -/
def windowSumOut (r : Nat) (x : Nat → Word) (c : Channel) : Nat :=
  sumUpTo (fun i => chan c (x i)) (r + 1)

/-- SUMIN[c]'s defining sum: positions r + 1 to 2r (R12). -/
def windowSumIn (r : Nat) (x : Nat → Word) (c : Channel) : Nat :=
  sumUpTo (fun i => chan c (x (r + 1 + i))) r

/-- Window register `i` (R11); a register past the end of the list holds the reset value. -/
def winAt (s : State) (i : Nat) : Word := s.win[i]?.getD 0

/-- `n`, the current line's length (R85). -/
def lineLen (s : State) : Nat :=
  match s.seq.pass with
  | .h => s.width.toNat
  | .v => s.height.toNat

/-- `LB`, the current line's base index (R85). -/
def lineBase (s : State) : Nat :=
  match s.seq.pass with
  | .h => s.seq.line.toNat * s.width.toNat
  | .v => s.seq.line.toNat

/-- `LS`, the current line's stride (R85). -/
def lineStride (s : State) : Nat :=
  match s.seq.pass with
  | .h => 1
  | .v => s.width.toNat

/-- The pixel index of position `k` of the current line, `LB + LS*k` (R85, R89). It is below 2^32 for every
16-bit position (R31), so no index arithmetic wraps. -/
def lineIndex (s : State) (k : Nat) : Nat := lineBase s + lineStride s * k

/-- How many lines the current pass has: H rows or W columns (R88). -/
def passLines (s : State) : Nat :=
  match s.seq.pass with
  | .h => s.height.toNat
  | .v => s.width.toNat

/-- `W * H`, the length the command's region needs; below 2^32 (spec/60_exceptions.md R122). -/
def gridSize (s : State) : Nat := s.width.toNat * s.height.toNat

end Sys2Proof.Machine
end

