-- ==== Sys2Proof/Machine/Ops.lean ====
section
/-! DEFINITION. The shared operations over memory and registers: pixel memory, the window, error entry, command
acceptance, the sequencer and reset. Error return, `clearError`, stands in Flags.lean with the rest of STATUS. -/

namespace Sys2Proof.Machine

/-! ### Pixel memory (spec/20_memory.md R30, R34, R36) -/

/-- The canonical form: addresses strictly rise, none is past the pixel space, and no cell holds what an unlisted
address reads as. -/
abbrev Memory.wf (m : List Host.Cell) : Prop :=
  m.Pairwise (fun x y => x.1 < y.1) ∧ ∀ x ∈ m, x.1 < Config.memBytes ∧ x.2 ≠ Config.unlistedByte

/-- One byte of memory. -/
def readByte : List Host.Cell → Nat → Byte
  | [], _ => Config.unlistedByte
  | (a, v) :: m, b => if b = a then v else readByte m b

/-- A cell in front of the rest, unless it holds what an unlisted address reads as. -/
def consCell (a : Nat) (v : Byte) (m : List Host.Cell) : List Host.Cell :=
  if v = Config.unlistedByte then m else (a, v) :: m

/-- Store one byte, keeping the canonical form. -/
def writeByte : List Host.Cell → Nat → Byte → List Host.Cell
  | [], b, v => consCell b v []
  | (a, w) :: m, b, v =>
    if b < a then consCell b v ((a, w) :: m)
    else if b = a then consCell b v m
    else (a, w) :: writeByte m b v

/-- Which of a pixel's four bytes holds channel `c`: B, G, R, A in that order when little-endian (R34). -/
def channelByte (c : Channel) : Nat :=
  match Config.pixByteOrder with
  | .littleEndian => c.code.toNat
  | .bigEndian => 3 - c.code.toNat

/-- The byte address of channel `c` of pixel `i`, as an offset from PIXBASE (R34). -/
def pixelByte (i : Nat) (c : Channel) : Nat := 4 * i + channelByte c

/-- The 32-bit pixel at index `i`. -/
def readPixel (m : List Host.Cell) (i : Nat) : Word :=
  packPixel (readByte m (pixelByte i .a)) (readByte m (pixelByte i .r))
    (readByte m (pixelByte i .g)) (readByte m (pixelByte i .b))

/-- Store channel `c` of the pixel word `v` at index `i`. -/
def writeChannel (m : List Host.Cell) (i : Nat) (v : Word) (c : Channel) : List Host.Cell :=
  writeByte m (pixelByte i c) (extractChannel v c)

/-- Store the 32-bit pixel `v` at index `i`. -/
def writePixel (m : List Host.Cell) (i : Nat) (v : Word) : List Host.Cell :=
  writeChannel (writeChannel (writeChannel (writeChannel m i v .b) i v .g) i v .r) i v .a

/-! ### The engine's side: line reads, window, sums -/

/-- The value of position `k` of the current line (R85). -/
def linePixel (s : State) (k : Nat) : Word := readPixel s.mem (lineIndex s k)

/-- `m = min(r, n - 1)`, the last position SEED reads (R72). -/
def seedLast (s : State) : Nat := min s.radius.val (lineLen s - 1)

/-- What SEED puts into window register `i`: `t[clamp(i - r, 0, m)]` (R72). -/
def seedWindow (s : State) (i : Nat) : Word := linePixel s (min (i - s.radius.val) (seedLast s))

/-- The line position ADVANCE reads: `min(j + r + 1, n - 1)` (R77). -/
def advancePos (s : State) : Nat := min (s.seq.pos.toNat + s.radius.val + 1) (lineLen s - 1)

/-- What ADVANCE leaves in window register `i`, `i <= 2r`: a shift by one, the incoming pixel last (R77). -/
def shiftedWindow (s : State) (p : Word) (i : Nat) : Word :=
  if i < 2 * s.radius.val then winAt s (i + 1) else p

/-- Window registers 0 to 2r are written, the others keep their contents (R11, R72, R77). -/
def writeWindow (s : State) (x : Nat → Word) : List Word :=
  (List.range (2 * s.radius.val + 1)).map x ++ s.win.drop (2 * s.radius.val + 1)

/-- Every one of these line positions stands at an index the platform backs (R36). -/
def positionsBacked (s : State) (ks : List Nat) : Bool :=
  ks.all fun k => decide (lineIndex s k < s.backed)

/-- The quotient of one lane, unsigned and truncating (R74, R75, R81). -/
def quotient (s : State) (c : Channel) : Word :=
  if s.div = 0 then Config.divByZero (s.sum.get c) else s.sum.get c / zext32 s.div

/-- `q[c][7:0]` (R65, R75). -/
def quotientByte (s : State) (c : Channel) : Byte := (quotient s c).extractLsb' 0 8

/-- The A field EMIT writes: the A lane's quotient, or the centre sample's A field (R75, R76). -/
def emitAlpha (s : State) : Byte :=
  if s.blurAlpha then quotientByte s .a else extractChannel (winAt s s.radius.val) .a

/-- The pixel EMIT writes (R75). -/
def emitPixel (s : State) : Word :=
  packPixel (emitAlpha s) (quotientByte s .r) (quotientByte s .g) (quotientByte s .b)

/-- The engine's `MemWrite` to position `k` of the current line (R75, R89). -/
def enginePixelWrite (k : Nat) (v : Word) (s : State) : State :=
  { s with mem := writePixel s.mem (lineIndex s k) v, accesses := s.accesses ++ [.write (lineIndex s k) v] }

/-! ### The sequencer (spec/42_pass_drivers.md R88, spec/43_host_interface.md R110) -/

def setUop (u : Uop) (s : State) : State := { s with seq.uop := u }

/-- COMPLETE (R110). -/
def complete (s : State) : State :=
  { s with status.busy := false, status.done := true, seq.uop := .idle }

/-- The next line of the same pass (R88). -/
def nextLine (s : State) : State := { s with seq.line := s.seq.line + 1, seq.uop := .seed }

/-- BLUR's switch from its horizontal to its vertical pass (R88). -/
def nextPass (s : State) : State := { s with seq.pass := .v, seq.line := 0, seq.uop := .seed }

/-- OPC of the two line commands and of BLUR (spec/30_encoding.md R49). -/
def opcBlur : Byte := 0x01
def opcHline : Byte := 0x04
def opcVline : Byte := 0x05

/-- LINE_END (R88). -/
def lineEnd (s : State) : State :=
  if s.opc = opcHline ∨ s.opc = opcVline then complete s
  else if s.seq.line.toNat + 1 < passLines s then nextLine s
  else if s.opc = opcBlur ∧ s.seq.pass = .h then nextPass s
  else complete s

/-- SEQ's update after an EMIT (R88). -/
def afterEmit (s : State) : State :=
  if s.seq.pos.toNat + 1 < lineLen s then setUop .advance s else lineEnd s

/-! ### Error entry and command acceptance (spec/60_exceptions.md R120, R123; spec/43_host_interface.md R106, R108) -/

/-- Error entry, `raise E(info)` (R123). -/
def raiseError (e : ErrCode) (info : Word) (s : State) : State :=
  { s with status.err := true, errcode := e, errinfo := info }

/-- Start checks 2 to 4 of R120, in their order: the dimensions, the radius, the declared buffer length. -/
def gridFault (s : State) : Option (ErrCode × Word) :=
  if s.width = 0 ∨ s.height = 0 then some (.badDim, (zext32 s.height <<< 16) ||| zext32 s.width)
  else if s.radius = 0 then some (.badRadius, 0)
  else if s.buflen.toNat < gridSize s then some (.invalidGeometry, BitVec.ofNat 32 (gridSize s))
  else none

/-- Start checks 2 to 5 of a line command: `c` is its word, `k` its line index, `bound` the number of lines (R120). -/
def lineFault (c : Word) (k : Nat) (bound : Half) (s : State) : Option (ErrCode × Word) :=
  match gridFault s with
  | some f => some f
  | none => if bound.toNat ≤ k then some (.badLine, c) else none

/-- Command start (R108). The region `[0, W*H)` passes from the host to the engine, in
addition to any earlier command's region that the host has not yet taken back (R41 (c); notes/assumptions/8.md). -/
def startCommand (c : Word) (pass : Pass) (line : Half) (s : State) : State :=
  { s with
    opc := opcodeField c
    div := BitVec.ofNat 16 (divisor s.radius.val)
    seq := { pass := pass, line := line, pos := 0, uop := .seed }
    status.busy := true
    lent := max s.lent (gridSize s) }

/-- Command acceptance (R106): dropped while BUSY or ERR; otherwise taken, and then it fails with `fault` or starts. -/
def acceptCommand (c : Word) (fault : Option (ErrCode × Word)) (pass : Pass) (line : Half) (s : State) : State :=
  if s.status.busy || s.status.err then dropWrite s
  else
    match fault with
    | some (e, info) => raiseError e info (takeCommand s)
    | none => startCommand c pass line (takeCommand s)

/-- Acceptance of a word that is no command: check 1 of R120 fails, ERRINFO is the word (R53, R115). -/
def acceptIllegal (c : Word) (s : State) : State :=
  acceptCommand c (some (.illegalCmd, c)) .h 0 s

/-! ### Reset (spec/70_reset_and_hazards.md R133, R134) -/

/-- rst: the block takes the state of R28; the platform (pixel memory, what it backs) and the environment are not
touched, and the buffer stays lent until the host has read STATUS (R41 (c)): DEDUCED (notes/assumptions/8.md, 9.md). -/
def resetBlock (s : State) : State :=
  { State.reset with
    mem := s.mem
    backed := s.backed
    lent := s.lent
    script := s.script
    hostLog := s.hostLog
    accesses := s.accesses
    codec := s.codec }

end Sys2Proof.Machine
end

