-- ==== Sys2Proof/Machine/Codec.lean ====
section
/-! DEFINITION. The channel codec's instructions EXTRACT, UNPACK and PACK (spec/40_codec.md R60 to R62). They are
wiring: they read and write no register, no flag and no memory (R64); what they compute appears on the codec's output
wires, `State.codec` (notes/assumptions/6.md). -/

namespace Sys2Proof.Machine

/-- EXTRACT(p, c) of the pixel on the codec's input (R60). -/
def execExtract (c : Channel) (s : State) : Result :=
  .next { s with codec.channel := extractChannel s.codec.pixel c }

/-- UNPACK(p) (R61). -/
def execUnpack (p : Word) (s : State) : Result :=
  .next { s with codec.lanes := unpackPixel p }

/-- PACK(a, r, g, b) (R62). -/
def execPack (a r g b : Byte) (s : State) : Result :=
  .next { s with codec.packed := packPixel a r g b }

end Sys2Proof.Machine
end

