-- ==== Sys2Proof/Machine/Commands.lean ====
section
/-! DEFINITION. The five commands (spec/42_pass_drivers.md R91 to R95): the atomic acceptance of a command's word,
`RegWrite(CMD, c)` (spec/43_host_interface.md R106). A command that starts is then carried out by the engine's
micro-operations, one a step, in the order of R88 (spec/43_host_interface.md R109, R111 (a); notes/assumptions/15.md). -/

namespace Sys2Proof.Machine

/-- BLUR (R95). -/
def execBlur (s : State) : Result :=
  .next (acceptCommand (encode .blur) (gridFault s) .h 0 s)

/-- HPASS (R93). -/
def execHpass (s : State) : Result :=
  .next (acceptCommand (encode .hpass) (gridFault s) .h 0 s)

/-- VPASS (R94). -/
def execVpass (s : State) : Result :=
  .next (acceptCommand (encode .vpass) (gridFault s) .v 0 s)

/-- HLINE y (R91). -/
def execHline (y : Nat) (s : State) : Result :=
  .next (acceptCommand (encode (.hline y)) (lineFault (encode (.hline y)) y s.height s) .h (BitVec.ofNat 16 y) s)

/-- VLINE x (R92). -/
def execVline (x : Nat) (s : State) : Result :=
  .next (acceptCommand (encode (.vline x)) (lineFault (encode (.vline x)) x s.width s) .v (BitVec.ofNat 16 x) s)

end Sys2Proof.Machine
end

