-- ==== Sys2Proof/Machine/Window.lean ====
section
/-! DEFINITION. The micro-operations SEED, EMIT and ADVANCE (spec/41_window_engine.md R72, R75, R77), each with SEQ's
update after it (spec/42_pass_drivers.md R88). None raises an error (R84); one that reaches a pixel the platform does
not back has no step (spec/20_memory.md R36). They are defined in every state, also in those no command reaches
(notes/assumptions/10.md). -/

namespace Sys2Proof.Machine

/-- SEED (R72): read positions 0 to m once each, fill WIN[0..2r], form the twelve sums. -/
def execSeed (s : State) : Result :=
  if positionsBacked s (List.range (seedLast s + 1)) then
    .next { s with
      win := writeWindow s (seedWindow s)
      sum := Lanes.ofFn fun c => BitVec.ofNat 32 (windowSum s.radius.val (seedWindow s) c)
      sumOut := Lanes.ofFn fun c => BitVec.ofNat 32 (windowSumOut s.radius.val (seedWindow s) c)
      sumIn := Lanes.ofFn fun c => BitVec.ofNat 32 (windowSumIn s.radius.val (seedWindow s) c)
      seq.pos := 0
      seq.uop := .emit
      accesses := s.accesses ++ (List.range (seedLast s + 1)).map fun k => .read (lineIndex s k) }
  else .fault .unbackedPixel

/-- EMIT (R75): write the current output to position `j = SEQ.POS`. -/
def execEmit (s : State) : Result :=
  if positionsBacked s [s.seq.pos.toNat] then
    .next (afterEmit (enginePixelWrite s.seq.pos.toNat (emitPixel s) s))
  else .fault .unbackedPixel

/-- ADVANCE (R77): read the incoming pixel, update the sums from the values before, shift the window. -/
def execAdvance (s : State) : Result :=
  if positionsBacked s [advancePos s] then
    let p := linePixel s (advancePos s)
    let inn := unpackPixel p
    let old := unpackPixel (winAt s 0)
    let mid := unpackPixel (winAt s (s.radius.val + 1))
    .next { s with
      win := writeWindow s (shiftedWindow s p)
      sum := Lanes.ofFn fun c => s.sum.get c - s.sumOut.get c + s.sumIn.get c + inn.get c
      sumOut := Lanes.ofFn fun c => s.sumOut.get c - old.get c + mid.get c
      sumIn := Lanes.ofFn fun c => s.sumIn.get c - mid.get c + inn.get c
      seq.pos := s.seq.pos + 1
      seq.uop := .emit
      accesses := s.accesses ++ [.read (lineIndex s (advancePos s))] }
  else .fault .unbackedPixel

end Sys2Proof.Machine
end

