-- ==== Sys2Proof/Machine/Dispatch.lean ====
section
/-! DEFINITION. One arm per instruction. -/

namespace Sys2Proof.Machine

def exec (i : Instr) (s : State) : Host.Outcome State Fault Refusal :=
  match i with
  -- spec/42_pass_drivers.md
  | .blur => Sys2Proof.Machine.execBlur s
  | .hpass => Sys2Proof.Machine.execHpass s
  | .vpass => Sys2Proof.Machine.execVpass s
  | .hline y => Sys2Proof.Machine.execHline y s
  | .vline x => Sys2Proof.Machine.execVline x s
  -- spec/41_window_engine.md
  | .seed => Sys2Proof.Machine.execSeed s
  | .emit => Sys2Proof.Machine.execEmit s
  | .advance => Sys2Proof.Machine.execAdvance s
  -- spec/40_codec.md
  | .extract c => Sys2Proof.Machine.execExtract c s
  | .unpack p => Sys2Proof.Machine.execUnpack p s
  | .pack a r g b => Sys2Proof.Machine.execPack a r g b s

end Sys2Proof.Machine
end

