-- ==== Sys2Proof/Machine/HostPort.lean ====
section
/-! DEFINITION. The host's transactions other than a command word: register reads and writes (spec/43_host_interface.md
R102 to R105) and the host's own pixel accesses (spec/20_memory.md R41). Each is one atomic step (R37). -/

namespace Sys2Proof.Machine

/-- `RegRead(n)` (R102): the value returned. Reserved numbers and CMD read 0. -/
def regValue (s : State) (n : BitVec 4) : Word :=
  match n.toNat with
  | 1 => statusWord s.status
  | 2 => bitWord s.blurAlpha
  | 3 => intenWord s.inten
  | 4 => s.buflen
  | 5 => zext32 s.width
  | 6 => zext32 s.height
  | 7 => BitVec.ofNat 32 s.radius.val
  | 8 => zext32 s.errcode.code
  | 9 => s.errinfo
  | _ => 0

/-- RADIUS keeps `min(v, 254)`, comparing all 32 bits (R23, R50). -/
def clampRadius (v : Word) : Fin 255 := Fin.ofNat 255 (min v.toNat Config.rMax)

/-- A configuration register's write: dropped while a command runs (R104). -/
def writeConfig (f : State → State) (s : State) : State :=
  if s.status.busy then dropWrite s else f s

/-- `RegWrite(n, v)` for every register but CMD (R103); read-only and reserved numbers ignore it. -/
def writeRegister (n : BitVec 4) (v : Word) (s : State) : State :=
  match n.toNat with
  | 1 => writeStatus v s
  | 2 => writeConfig (fun s => { s with blurAlpha := v.getLsbD 0 }) s
  | 3 => { s with inten := { doneIe := v.getLsbD 1, errIe := v.getLsbD 2 } }
  | 4 => writeConfig (fun s => { s with buflen := v }) s
  | 5 => writeConfig (fun s => { s with width := v.extractLsb' 0 16 }) s
  | 6 => writeConfig (fun s => { s with height := v.extractLsb' 0 16 }) s
  | 7 => writeConfig (fun s => { s with radius := clampRadius v }) s
  | _ => s

/-- One more finished host transaction. -/
def logHost (t : Transaction) (s : State) : State := { s with hostLog := s.hostLog ++ [t] }

/-- A read of STATUS that returns BUSY = 0 gives the buffer back to the host (R41 (b), (c);
notes/assumptions/8.md). -/
def handBack (n : BitVec 4) (s : State) : State :=
  if n = 1 ∧ s.status.busy = false then { s with lent := 0 } else s

/-- `RegRead(n)` as a step: no register changes; the value is logged. -/
def hostRegRead (n : BitVec 4) (s : State) : State :=
  handBack n (logHost (.regRead n (regValue s n)) s)

/-- The host may touch pixel `i` by its own path: the platform backs it and no command owns it (R36, R41 (c)). What
a violation does is not defined (U7): it stops by name, DESIGN CHOICE (notes/assumptions/3.md, 8.md). At an index that
no command owns the access happens also while BUSY = 1, DESIGN CHOICE (notes/assumptions/17.md): R41 (c) does not forbid
it, while R40 and spec/00_scope.md R147 know no other agent than the engine then. -/
def hostPixel (i : Word) (s : State) (k : State → State) : Result :=
  if s.backed ≤ i.toNat then .fault .unbackedPixel
  else if i.toNat < s.lent then .fault .bufferRace
  else .next (k s)

/-- The host reads pixel `i`. -/
def hostPixRead (i : Word) (s : State) : Result :=
  hostPixel i s fun s => logHost (.pixRead i (readPixel s.mem i.toNat)) s

/-- The host writes pixel `i`. -/
def hostPixWrite (i v : Word) (s : State) : Result :=
  hostPixel i s fun s => logHost (.pixWrite i v) { s with mem := writePixel s.mem i.toNat v }

end Sys2Proof.Machine
end

