-- ==== Sys2Proof/Machine/Turns.lean ====
section
/-! DEFINITION. Whose turn it is and what that turn does: the engine's enabled step, a host transaction, a reset, or a
word presented to the codec (spec/00_scope.md R147; spec/43_host_interface.md R101, R106, R109). Here the machine reads
its next instruction's word and decodes it. -/

namespace Sys2Proof.Machine

/-- Run what a word decodes to in its format, or else `otherwise`. -/
def runWord (f : Format) (w : Word) (otherwise : State → Result) (s : State) : Result :=
  match decode f w with
  | .ok i => exec i s
  | .error _ => otherwise s

/-- The engine's turn (R109): while BUSY = 1 the micro-operation SEQ.UOP codes for; otherwise it has no step and
nothing changes (notes/assumptions/7.md). -/
def engineTurn (s : State) : Result :=
  if s.status.busy then runWord .uop (zext32 s.seq.uop.code) .next s else .next s

/-- `RegWrite(n, v)` as a step. Number 0 is CMD: the word is decoded and the command accepted, or it is illegal (R106,
R107). -/
def hostRegWrite (n : BitVec 4) (v : Word) (s : State) : Result :=
  if n = 0 then runWord .cmd v (fun s => .next (acceptIllegal v s)) (logHost (.regWrite n v) s)
  else .next (writeRegister n v (logHost (.regWrite n v) s))

/-- One event happens. -/
def serve (e : Event) (s : State) : Result :=
  match e with
  | .engine => engineTurn s
  | .regRead n => .next (hostRegRead n s)
  | .regWrite n v => hostRegWrite n v s
  | .pixRead i => hostPixRead i s
  | .pixWrite i v => hostPixWrite i v s
  | .rst => .next (resetBlock s)
  | .codecSelect p c => runWord .sel (zext32 c) .next { s with codec.pixel := p }
  | .codecUnpack p => runWord .pixUnpack p .next s
  | .codecPack w => runWord .pixPack w .next s

/-- The oldest pending event happens; with none pending the engine has its turn. DESIGN CHOICE: the order in which the
agents act is data of the state (notes/assumptions/7.md). -/
def takeTurn (s : State) : Result :=
  match s.script with
  | [] => engineTurn s
  | e :: rest => serve e { s with script := rest }

/-- The micro-operation a 2-bit code stands for in SEQ.UOP (R51). -/
def Uop.ofCode (c : BitVec 2) : Uop :=
  if c = 1 then .seed else if c = 2 then .emit else if c = 3 then .advance else .idle

/-- Put event `e` first. -/
def first (e : Event) (s : State) : State := { s with script := e :: s.script }

/-- Place word `w` of format `f` where the next step reads its instruction: a command word in a write to CMD, a
micro-operation code in SEQ.UOP of a busy engine whose turn is next, a codec word on the codec's inputs. DESIGN CHOICE
(notes/assumptions/11.md). -/
def placeWord (f : Format) (w : Word) (s : State) : State :=
  match f with
  | .cmd => first (.regWrite 0 w) s
  | .uop => first .engine { s with status.busy := true, seq.uop := Uop.ofCode (w.setWidth 2) }
  | .sel => first (.codecSelect s.codec.pixel (w.setWidth 2)) s
  | .pixUnpack => first (.codecUnpack w) s
  | .pixPack => first (.codecPack w) s

/-- A table word, placed in the format its bits are read in; a word of no format is presented to CMD. -/
def placeTableWord (nbits w : Nat) (s : State) : State :=
  match tableFormat nbits w with
  | some f => placeWord f (BitVec.ofNat 32 w) s
  | none => placeWord .cmd (BitVec.ofNat 32 w) s

end Sys2Proof.Machine
end

