-- ==== Sys2Proof/Machine/Step.lean ====
section
/-! DEFINITION. One step of the machine, and how a word is placed so that the next step runs it. -/

namespace Sys2Proof.Machine

/-- One atomic step of one agent (spec/00_scope.md R147). -/
def step (s : State) : Host.Outcome State Fault Refusal := takeTurn s

/-- `s` with an opcode-table word placed where `step` reads its next instruction. -/
def State.withFetchWord (s : State) (nbits w : Nat) : State := placeTableWord nbits w s

end Sys2Proof.Machine
end

