-- ==== Sys2Proof/Safety.lean ====
section
/-! DEFINITION. What claims about the machine are stated in: the reference blur (spec/42_pass_drivers.md R87, R96), the
access list of a sweep (R89), the invariant of a running block (spec/41_window_engine.md R79, R82, R84), and what a good
end of a run is (spec/70_reset_and_hazards.md R146). Nothing here is executed by the machine. -/

namespace Sys2Proof.Safety

open Sys2Proof.Machine

/-- The pixel at index `i`. -/
abbrev pixel (s : State) (i : Nat) : Word := readPixel s.mem i

/-- `ch_c(p)` as a number, through EXTRACT (spec/40_codec.md R60, R61). -/
abbrev chanVal (c : Channel) (p : Word) : Nat := (extractChannel p c).toNat

/-- The tent weight, written out from R67. -/
abbrev tent (r i : Nat) : Nat := min (i + 1) (2 * r + 1 - i)

/-- The weighted sum of one channel over a window `x 0 .. x (2r)` (spec/10_state.md R12). -/
abbrev tentSum (r : Nat) (x : Nat → Word) (c : Channel) : Nat :=
  ∑ i ∈ Finset.range (2 * r + 1), tent r i * chanVal c (x i)

/-- Window position `i` of line position `j`, by edge replication: `clamp(j - r + i, 0, n - 1)` (R71). -/
abbrev clampPos (n r j i : Nat) : Nat := min (j + i - r) (n - 1)

/-- One channel of the blurred line at position `j` (R74, R87). -/
def lineOutChannel (x : Nat → Word) (n r j : Nat) (c : Channel) : Nat :=
  tentSum r (fun i => x (clampPos n r j i)) c / (r * (r + 2) + 1)

/-- `LINEOUT(L0, r)[j]` (R87); `alpha` is CTRL.BLUR_ALPHA. -/
def lineOut (alpha : Bool) (x : Nat → Word) (n r j : Nat) : Word :=
  packPixel
    (if alpha then BitVec.ofNat 8 (lineOutChannel x n r j .a) else extractChannel (x j) .a)
    (BitVec.ofNat 8 (lineOutChannel x n r j .r))
    (BitVec.ofNat 8 (lineOutChannel x n r j .g))
    (BitVec.ofNat 8 (lineOutChannel x n r j .b))

/-- A grid as a function of the pixel index. -/
abbrev Grid := Nat → Word

/-- Row `y` of `g` blurred, every other index as before. -/
def blurRow (alpha : Bool) (w r y : Nat) (g : Grid) : Grid := fun i =>
  if i / w = y then lineOut alpha (fun k => g (y * w + k)) w r (i % w) else g i

/-- Column `x` of `g` blurred, every other index as before. -/
def blurColumn (alpha : Bool) (w h r x : Nat) (g : Grid) : Grid := fun i =>
  if i % w = x ∧ i / w < h then lineOut alpha (fun k => g (x + w * k)) h r (i / w) else g i

/-- `G1` of R96: every row blurred. -/
def blurRows (alpha : Bool) (w h r : Nat) (g : Grid) : Grid := fun i =>
  if i < w * h then lineOut alpha (fun k => g (i / w * w + k)) w r (i % w) else g i

/-- `G2` of R96 for `g = G1`: every column blurred. -/
def blurColumns (alpha : Bool) (w h r : Nat) (g : Grid) : Grid := fun i =>
  if i < w * h then lineOut alpha (fun k => g (i % w + w * k)) h r (i / w) else g i

/-- The accesses of one sweep, in order (R89): `x` is the line's contents before it, `idx` its indices. -/
def sweepAccesses (alpha : Bool) (x : Nat → Word) (idx : Nat → Nat) (n r : Nat) : List Access :=
  ((List.range (min r (n - 1) + 1)).map fun k => .read (idx k)) ++
    (List.range n).flatMap fun j =>
      .write (idx j) (lineOut alpha x n r j) ::
        (if j + 1 < n then [.read (idx (min (j + r + 1) (n - 1)))] else [])

/-- The accumulators of channel `c` equal their defining sums over WIN (spec/10_state.md R12, R79 (b)). -/
structure SumsHold (s : State) (c : Channel) : Prop where
  sum : (s.sum.get c).toNat = tentSum s.radius.val (winAt s) c
  sumOut : (s.sumOut.get c).toNat = ∑ i ∈ Finset.range (s.radius.val + 1), chanVal c (winAt s i)
  sumIn : (s.sumIn.get c).toNat = ∑ i ∈ Finset.range s.radius.val, chanVal c (winAt s (s.radius.val + 1 + i))

/-- The configuration passes start checks 2 to 4 (spec/60_exceptions.md R120). -/
structure GridLegal (s : State) : Prop where
  width : 0 < s.width.toNat
  height : 0 < s.height.toNat
  radius : 0 < s.radius.val
  fits : s.width.toNat * s.height.toNat ≤ s.buflen.toNat

/-- What holds while STATUS.BUSY = 1 (R84; spec/43_host_interface.md R104, R108; spec/10_state.md R13, R17, R26). -/
structure Running (s : State) : Prop where
  legal : GridLegal s
  lent : s.width.toNat * s.height.toNat ≤ s.lent
  uop : s.seq.uop ≠ .idle
  div : s.div.toNat = s.radius.val * (s.radius.val + 2) + 1
  opc : s.opc = 0x01 ∨ s.opc = 0x02 ∨ s.opc = 0x03 ∨ s.opc = 0x04 ∨ s.opc = 0x05
  rows : s.opc = 0x02 ∨ s.opc = 0x04 → s.seq.pass = .h
  columns : s.opc = 0x03 ∨ s.opc = 0x05 → s.seq.pass = .v
  line : s.seq.line.toNat < passLines s
  pos : s.seq.uop ≠ .seed → s.seq.pos.toNat < lineLen s
  more : s.seq.uop = .advance → s.seq.pos.toNat + 1 < lineLen s
  sums : s.seq.uop ≠ .seed → ∀ c, SumsHold s c

/-- The invariant of the machine: every step keeps it. -/
structure Inv (s : State) : Prop where
  memory : Memory.wf s.mem
  window : s.win.length ≤ Config.winMax
  /-- R16: no two of BUSY, DONE, ERR are 1 together. -/
  busyDone : ¬ (s.status.busy = true ∧ s.status.done = true)
  busyErr : ¬ (s.status.busy = true ∧ s.status.err = true)
  doneErr : ¬ (s.status.done = true ∧ s.status.err = true)
  /-- R24, R25: an error is recorded exactly while STATUS.ERR = 1. -/
  errcode : s.status.err = true ↔ s.errcode ≠ .none
  errinfo : s.status.err = false → s.errinfo = 0
  /-- R17: while BUSY = 0, UOP = IDLE. -/
  idle : s.status.busy = false → s.seq.uop = .idle
  running : s.status.busy = true → Running s

/-- The part of the window the sweep has still to write over equals the line in memory (R71, R79 (a), R90): before an
EMIT from the centre on, before an ADVANCE from the position after it. -/
def WindowAhead (s : State) : Prop :=
  s.status.busy = true →
    (s.seq.uop = .emit → ∀ i, s.radius.val ≤ i → i ≤ 2 * s.radius.val →
      winAt s i = pixel s (lineIndex s (clampPos (lineLen s) s.radius.val s.seq.pos.toNat i))) ∧
    (s.seq.uop = .advance → ∀ i, s.radius.val < i → i ≤ 2 * s.radius.val →
      winAt s i = pixel s (lineIndex s (clampPos (lineLen s) s.radius.val s.seq.pos.toNat i)))

/-- The platform backs the whole grid (spec/20_memory.md R36). -/
def Backed (s : State) : Prop := s.width.toNat * s.height.toNat ≤ s.backed

/-- The host registers that configure a command are the same in both states (R104). -/
structure SameConfig (s t : State) : Prop where
  blurAlpha : t.blurAlpha = s.blurAlpha
  buflen : t.buflen = s.buflen
  width : t.width = s.width
  height : t.height = s.height
  radius : t.radius = s.radius

/-- Both states hold the same engine registers and the same pixel memory (spec/10_state.md R10 (a) to (d), R30). -/
structure SameEngine (s t : State) : Prop where
  win : t.win = s.win
  sum : t.sum = s.sum
  sumOut : t.sumOut = s.sumOut
  sumIn : t.sumIn = s.sumIn
  div : t.div = s.div
  seq : t.seq = s.seq
  opc : t.opc = s.opc
  mem : t.mem = s.mem

/-- Lane `c` of the two states is the same: everything an operation on that lane reads (spec/40_codec.md R66). -/
structure SameLane (c : Channel) (s t : State) : Prop where
  sum : t.sum.get c = s.sum.get c
  sumOut : t.sumOut.get c = s.sumOut.get c
  sumIn : t.sumIn.get c = s.sumIn.get c
  win : ∀ i, chanVal c (winAt t i) = chanVal c (winAt s i)
  mem : ∀ i, chanVal c (pixel t i) = chanVal c (pixel s i)
  div : t.div = s.div
  seq : t.seq = s.seq
  opc : t.opc = s.opc
  config : SameConfig s t

/-- `k` steps of the machine. -/
abbrev runFor (k : Nat) (s : State) : Result := Host.Core.run Sys2Proof.core k s

/-- The engine has the next turn. -/
def EngineNext (s : State) : Prop := s.script = [] ∨ s.script.head? = some .engine

/-- The host is about to write the command word `c`, nothing else is pending, and the command will not be dropped or
fail a grid check. -/
structure CommandPending (c : Word) (s : State) : Prop where
  script : s.script = [.regWrite 0 c]
  idle : s.status.busy = false
  clear : s.status.err = false
  legal : GridLegal s
  backed : Backed s
  inv : Inv s

/-- `t` is where a command that took `k` micro-operations ends: BUSY is 1 after the command write and before each of
the `k` engine steps but the last, which sets DONE; the configuration is as before and pixel memory holds `g`. -/
def CompletesWith (k : Nat) (g : Grid) (s : State) : Prop :=
  (∀ j, 1 ≤ j → j ≤ k → ∃ u, runFor j s = .next u ∧ u.status.busy = true) ∧
  ∃ t, runFor (1 + k) s = .next t ∧ t.status.busy = false ∧ t.status.done = true ∧ t.status.err = false ∧
    SameConfig s t ∧ ∀ i, pixel t i = g i

/-- A run is over: the block is idle and the host has nothing more to issue (R146). -/
def RunOver (s : State) : Prop := s.status.busy = false ∧ s.script = []

/-- Whether this transaction writes a command word. -/
def isCommand : Transaction → Bool
  | .regWrite n _ => n == 0
  | _ => false

/-- Whether this transaction read STATUS with DONE = 1: the only way this model counts DONE as observed, DESIGN CHOICE
(notes/assumptions/18.md). -/
def readsDone : Transaction → Bool
  | .regRead n v => n == 1 && v.getLsbD 1
  | _ => false

/-- After every command the host saw DONE = 1 before it issued the next. DESIGN CHOICE (notes/assumptions/18.md): R146
says only that DONE was observed as 1 "after" each command; by this reading a run in which a command failed or was
dropped never ends well, also when the host recovers. -/
def doneAfterEach : List Transaction → Bool
  | [] => true
  | t :: rest => (!isCommand t || (rest.takeWhile (fun u => !isCommand u)).any readsDone) && doneAfterEach rest

/-- A run ended well (R146; for the observation of DONE see `doneAfterEach`). -/
def EndedWell (s : State) : Prop :=
  RunOver s ∧ s.status.err = false ∧ s.status.drop = false ∧ doneAfterEach s.hostLog = true

end Sys2Proof.Safety
end

