-- ==== Sys2Proof/Certificates/Slice0/Obligations.lean ====
section
/-! DEFINITION. The statements for the provers. `exec`, `step` and the machine's state are the model's; formulas of the
spec are written out where they are short. Where a statement mentions `lent`, `hostLog`, `accesses`, `codec`, `script`
or `backed`, those are the model's own fields, not the spec's (INVENTORY.md, State; notes/assumptions/3.md, 6.md, 7.md,
8.md and 14.md); what the spec says of the same event stands beside them. -/

open Sys2Proof Sys2Proof.Machine Sys2Proof.Safety

/-! ### Encodings -/

/-- Words written out from the tables of spec/30_encoding.md R45, R46, R49 and R51, and from rows Q1 to Q12 of
spec/95_test_vectors.md, decode to what they stand for. -/
def Obligations.SpecWordsDecode : Prop :=
  decode .cmd 0x01000000 = .ok .blur ∧ decode .cmd 0x02000000 = .ok .hpass ∧ decode .cmd 0x03000000 = .ok .vpass ∧
  decode .cmd 0x04000003 = .ok (.hline 3) ∧ decode .cmd 0x0400FFFF = .ok (.hline 65535) ∧
  decode .cmd 0x05000004 = .ok (.vline 4) ∧
  decode .uop 0b01 = .ok .seed ∧ decode .uop 0b10 = .ok .emit ∧ decode .uop 0b11 = .ok .advance ∧
  decode .sel 0b00 = .ok (.extract .b) ∧ decode .sel 0b01 = .ok (.extract .g) ∧
  decode .sel 0b10 = .ok (.extract .r) ∧ decode .sel 0b11 = .ok (.extract .a) ∧
  decode .pixUnpack 0x80C0FFEE = .ok (.unpack 0x80C0FFEE) ∧
  decode .pixPack 0xFFBF3F00 = .ok (.pack 0xFF 0xBF 0x3F 0x00) ∧
  decode .cmd 0x00000000 = .error .illegalOpcode ∧ decode .cmd 0x06000000 = .error .illegalOpcode ∧
  decode .cmd 0x01000001 = .error .argFieldSet ∧ decode .cmd 0x01010000 = .error .zeroFieldSet ∧
  decode .cmd 0x04010000 = .error .zeroFieldSet ∧ decode .cmd 0xFFFFFFFF = .error .zeroFieldSet

/-- Every well-formed instruction is what its encoded word decodes to, in its own format. -/
def Obligations.DecodeOfEncode : Prop :=
  ∀ i : Instr, i.wf = true → decode i.format (encode i) = .ok i

/-- A word that decodes is the encoding of what it decodes to: no word has two meanings in one format, and no bit of it
is ignored. -/
def Obligations.EncodeOfDecode : Prop :=
  ∀ (f : Format) (w : Word) (i : Instr), decode f w = .ok i → i.wf = true ∧ i.format = f ∧ encode i = w

/-- The command table of R49: a word selects the row whose condition `(c & mask) == match` holds, and a word that
selects no row is no command. -/
def Obligations.CommandRowsSelectByMask : Prop :=
  ∀ c : Word,
    (decode .cmd c = .ok .blur ↔ c &&& 0xFFFFFFFF = 0x01000000) ∧
    (decode .cmd c = .ok .hpass ↔ c &&& 0xFFFFFFFF = 0x02000000) ∧
    (decode .cmd c = .ok .vpass ↔ c &&& 0xFFFFFFFF = 0x03000000) ∧
    (∀ y, decode .cmd c = .ok (.hline y) ↔ c &&& 0xFFFF0000 = 0x04000000 ∧ y = (c &&& 0xFFFF).toNat) ∧
    (∀ x, decode .cmd c = .ok (.vline x) ↔ c &&& 0xFFFF0000 = 0x05000000 ∧ x = (c &&& 0xFFFF).toNat) ∧
    ((∃ e, decode .cmd c = .error e) ↔
      c &&& 0xFFFFFFFF ≠ 0x01000000 ∧ c &&& 0xFFFFFFFF ≠ 0x02000000 ∧ c &&& 0xFFFFFFFF ≠ 0x03000000 ∧
      c &&& 0xFFFF0000 ≠ 0x04000000 ∧ c &&& 0xFFFF0000 ≠ 0x05000000)

/-- R53: exactly these words are illegal, and one that reaches the decode step of acceptance raises ILLEGAL_CMD with
ERRINFO the word; it starts nothing and touches no pixel, because nothing else changes. -/
def Obligations.IllegalWordRaisesIllegalCmd : Prop :=
  (∀ c : Word, (∃ e, decode .cmd c = .error e) ↔
    ((c >>> 24).toNat = 0 ∨ 6 ≤ (c >>> 24).toNat ∨ (c >>> 16).toNat % 256 ≠ 0 ∨
      (((c >>> 24).toNat = 1 ∨ (c >>> 24).toNat = 2 ∨ (c >>> 24).toNat = 3) ∧ c.toNat % 65536 ≠ 0))) ∧
  (∃ e, decode .cmd 0x00000000 = .error e) ∧ (∃ e, decode .cmd 0xFFFFFFFF = .error e) ∧
  ∀ (s : State) (c : Word) (rest : List Event), s.script = .regWrite 0 c :: rest →
    (∃ e, decode .cmd c = .error e) → s.status.busy = false → s.status.err = false →
    step s = .next { s with
      script := rest
      hostLog := s.hostLog ++ [.regWrite 0 c]
      status := { s.status with done := false, err := true }
      errcode := .illegalCmd
      errinfo := c }

/-! ### A step runs the decoded instruction -/

/-- What the machine reads its next instruction from decodes to `i`: then the step is `exec i`, after the event is taken
off the script; a command write is also logged, and EXTRACT's pixel is put on the codec's input. -/
def Obligations.StepRunsDecodedInstruction : Prop :=
  (∀ (s : State) (c : Word) (rest : List Event) (i : Instr), s.script = .regWrite 0 c :: rest →
    decode .cmd c = .ok i →
    step s = exec i { s with script := rest, hostLog := s.hostLog ++ [.regWrite 0 c] }) ∧
  (∀ (s : State) (i : Instr), EngineNext s → s.status.busy = true →
    decode .uop (zext32 s.seq.uop.code) = .ok i → step s = exec i { s with script := s.script.tail }) ∧
  (∀ (s : State) (p : Word) (c : BitVec 2) (rest : List Event) (i : Instr), s.script = .codecSelect p c :: rest →
    decode .sel (zext32 c) = .ok i →
    step s = exec i { s with script := rest, codec := { s.codec with pixel := p } }) ∧
  (∀ (s : State) (p : Word) (rest : List Event) (i : Instr), s.script = .codecUnpack p :: rest →
    decode .pixUnpack p = .ok i → step s = exec i { s with script := rest }) ∧
  (∀ (s : State) (w : Word) (rest : List Event) (i : Instr), s.script = .codecPack w :: rest →
    decode .pixPack w = .ok i → step s = exec i { s with script := rest })

/-! ### The channel codec -/

/-- R60: EXTRACT completes in every state with the selected eight bits, and changes nothing else. -/
def Obligations.ExtractSelectsChannelBits : Prop :=
  ∀ s : State,
    exec (.extract .b) s = .next { s with codec := { s.codec with channel := s.codec.pixel.extractLsb' 0 8 } } ∧
    exec (.extract .g) s = .next { s with codec := { s.codec with channel := s.codec.pixel.extractLsb' 8 8 } } ∧
    exec (.extract .r) s = .next { s with codec := { s.codec with channel := s.codec.pixel.extractLsb' 16 8 } } ∧
    exec (.extract .a) s = .next { s with codec := { s.codec with channel := s.codec.pixel.extractLsb' 24 8 } }

/-- R61: UNPACK completes in every state with the four channels zero-extended, and changes nothing else. -/
def Obligations.UnpackZeroExtendsChannels : Prop :=
  ∀ (p : Word) (s : State), exec (.unpack p) s = .next { s with
    codec := { s.codec with
      lanes := { a := (p >>> 24) &&& 0xFF, r := (p >>> 16) &&& 0xFF, g := (p >>> 8) &&& 0xFF, b := p &&& 0xFF } } }

/-- R62: PACK completes in every state with the concatenation of its operands, and changes nothing else. -/
def Obligations.PackConcatenatesChannels : Prop :=
  ∀ (a r g b : Byte) (s : State), exec (.pack a r g b) s = .next { s with
    codec := { s.codec with
      packed := (zext32 a <<< 24) ||| (zext32 r <<< 16) ||| (zext32 g <<< 8) ||| zext32 b } }

/-- R63, both inverse laws, on the instructions' results: extracting from a packed word gives each operand back, and
packing the four extracted channels of any word gives that word. -/
def Obligations.CodecFunctionsAreInverse : Prop :=
  (∀ (a r g b : Byte) (s t : State), exec (.pack a r g b) s = .next t → ∀ u : State,
    u.codec.pixel = t.codec.packed →
    (∀ v, exec (.extract .a) u = .next v → v.codec.channel = a) ∧
    (∀ v, exec (.extract .r) u = .next v → v.codec.channel = r) ∧
    (∀ v, exec (.extract .g) u = .next v → v.codec.channel = g) ∧
    (∀ v, exec (.extract .b) u = .next v → v.codec.channel = b)) ∧
  (∀ s ta tr tg tb t : State, exec (.extract .a) s = .next ta → exec (.extract .r) s = .next tr →
    exec (.extract .g) s = .next tg → exec (.extract .b) s = .next tb →
    exec (.pack ta.codec.channel tr.codec.channel tg.codec.channel tb.codec.channel) s = .next t →
    t.codec.packed = s.codec.pixel)

/-! ### Weights, divisor, line geometry -/

/-- R67, R68 and R70: the weights' formula, their five properties, their sum, and the bounds that follow. -/
def Obligations.WeightsFormTentAndSumToDivisor : Prop :=
  ∀ r : Nat,
    (∀ i, i ≤ 2 * r → weight r i = min (i + 1) (2 * r + 1 - i) ∧ 1 ≤ weight r i ∧ weight r i = weight r (2 * r - i) ∧
      weight r i ≤ r + 1 ∧ (weight r i = r + 1 ↔ i = r)) ∧
    (∀ i, 1 ≤ i → i ≤ r → weight r i = weight r (i - 1) + 1) ∧
    (∀ i, r + 1 ≤ i → i ≤ 2 * r → weight r i + 1 = weight r (i - 1)) ∧
    weight r 0 = 1 ∧ weight r (2 * r) = 1 ∧
    ∑ i ∈ Finset.range (2 * r + 1), weight r i = divisor r ∧ divisor r = (r + 1) ^ 2 ∧
    divisor r = r * (r + 2) + 1 ∧ (1 ≤ r → 4 ≤ divisor r) ∧ (r ≤ 254 → 2 * r + 1 ≤ 509)

/-- R85: base, stride and length of the current line, and the index of its positions; the index never leaves 32 bits. -/
def Obligations.LineGeometry : Prop :=
  ∀ s : State,
    (s.seq.pass = .h → lineBase s = s.seq.line.toNat * s.width.toNat ∧ lineStride s = 1 ∧ lineLen s = s.width.toNat) ∧
    (s.seq.pass = .v → lineBase s = s.seq.line.toNat ∧ lineStride s = s.width.toNat ∧ lineLen s = s.height.toNat) ∧
    (∀ k, lineIndex s k = lineBase s + lineStride s * k) ∧
    (∀ k, k < lineLen s → lineIndex s k < 2 ^ 32)

/-- R86: two lines of one kind share no index, a row and a column share exactly one, and the lines of each kind cover
the grid and nothing else. `s` and `t` are two states with the same dimensions, each with its own current line. -/
def Obligations.LinesPartitionTheGrid : Prop :=
  (∀ s t : State, t.width = s.width → t.height = s.height → t.seq.pass = s.seq.pass →
    s.seq.line.toNat < passLines s → t.seq.line.toNat < passLines t →
    ∀ j k, j < lineLen s → k < lineLen t → lineIndex s j = lineIndex t k → s.seq.line = t.seq.line ∧ j = k) ∧
  (∀ s t : State, t.width = s.width → t.height = s.height → s.seq.pass = .h → t.seq.pass = .v →
    s.seq.line.toNat < passLines s → t.seq.line.toNat < passLines t →
    ∀ j k, j < lineLen s → k < lineLen t →
      (lineIndex s j = lineIndex t k ↔ j = t.seq.line.toNat ∧ k = s.seq.line.toNat)) ∧
  (∀ (s : State) (p : Pass) (i : Nat), i < s.width.toNat * s.height.toNat ↔
    ∃ (l : Half) (k : Nat), l.toNat < passLines { s with seq := { s.seq with pass := p, line := l } } ∧
      k < lineLen { s with seq := { s.seq with pass := p, line := l } } ∧
      lineIndex { s with seq := { s.seq with pass := p, line := l } } k = i)

/-! ### The micro-operations -/

/-- R72: SEED completes whenever the platform backs the positions it reads; the window, the twelve sums, SEQ and the
access list are as the rule gives them, the window registers above 2r and everything else, memory included, are
unchanged. -/
def Obligations.SeedFillsWindowAndSums : Prop :=
  ∀ s : State, 0 < lineLen s → (∀ k, k ≤ min s.radius.val (lineLen s - 1) → lineIndex s k < s.backed) →
    ∃ t, exec .seed s = .next t ∧
      (∀ i, i ≤ 2 * s.radius.val →
        winAt t i = pixel s (lineIndex s (min (i - s.radius.val) (min s.radius.val (lineLen s - 1))))) ∧
      (∀ i, 2 * s.radius.val < i → winAt t i = winAt s i) ∧
      (∀ c, SumsHold t c) ∧
      t.seq = { s.seq with pos := 0, uop := .emit } ∧
      t.accesses = s.accesses ++
        (List.range (min s.radius.val (lineLen s - 1) + 1)).map (fun k => .read (lineIndex s k)) ∧
      t = { s with win := t.win, sum := t.sum, sumOut := t.sumOut, sumIn := t.sumIn, seq := t.seq,
                   accesses := t.accesses }

/-- R75: EMIT completes whenever the platform backs position j. It writes one pixel, at `LB + LS*j`: each colour lane's
quotient, and for A the quotient or the centre sample's A field as CTRL.BLUR_ALPHA says. Every byte of memory outside
that pixel's four, the window, the sums and DIV, and everything else but SEQ and STATUS is unchanged. -/
def Obligations.EmitWritesCurrentOutput : Prop :=
  ∀ s : State, lineIndex s s.seq.pos.toNat < s.backed →
    ∃ t, exec .emit s = .next t ∧
      (∀ a, a / 4 ≠ lineIndex s s.seq.pos.toNat → readByte t.mem a = readByte s.mem a) ∧
      (Memory.wf s.mem → s.div ≠ 0 → pixel t (lineIndex s s.seq.pos.toNat) =
        packPixel
          (if s.blurAlpha then BitVec.ofNat 8 ((s.sum.get .a).toNat / s.div.toNat)
            else extractChannel (winAt s s.radius.val) .a)
          (BitVec.ofNat 8 ((s.sum.get .r).toNat / s.div.toNat))
          (BitVec.ofNat 8 ((s.sum.get .g).toNat / s.div.toNat))
          (BitVec.ofNat 8 ((s.sum.get .b).toNat / s.div.toNat))) ∧
      (Memory.wf s.mem → t.accesses = s.accesses ++
        [.write (lineIndex s s.seq.pos.toNat) (pixel t (lineIndex s s.seq.pos.toNat))]) ∧
      t = { s with mem := t.mem, accesses := t.accesses, seq := t.seq, status := t.status }

/-- R77: ADVANCE, issued when the line goes on, completes whenever the platform backs the position it reads. The sums
are computed from the values before, the window shifts by one and takes the incoming pixel, and everything else, memory
included, is unchanged. -/
def Obligations.AdvanceSlidesWindow : Prop :=
  ∀ s : State, s.seq.pos.toNat + 1 < lineLen s →
    lineIndex s (min (s.seq.pos.toNat + s.radius.val + 1) (lineLen s - 1)) < s.backed →
    ∃ t, exec .advance s = .next t ∧
      (∀ c, t.sum.get c = s.sum.get c - s.sumOut.get c + s.sumIn.get c +
        zext32 (extractChannel
          (pixel s (lineIndex s (min (s.seq.pos.toNat + s.radius.val + 1) (lineLen s - 1)))) c)) ∧
      (∀ c, t.sumOut.get c = s.sumOut.get c - zext32 (extractChannel (winAt s 0) c) +
        zext32 (extractChannel (winAt s (s.radius.val + 1)) c)) ∧
      (∀ c, t.sumIn.get c = s.sumIn.get c - zext32 (extractChannel (winAt s (s.radius.val + 1)) c) +
        zext32 (extractChannel
          (pixel s (lineIndex s (min (s.seq.pos.toNat + s.radius.val + 1) (lineLen s - 1)))) c)) ∧
      (∀ i, i < 2 * s.radius.val → winAt t i = winAt s (i + 1)) ∧
      winAt t (2 * s.radius.val) =
        pixel s (lineIndex s (min (s.seq.pos.toNat + s.radius.val + 1) (lineLen s - 1))) ∧
      (∀ i, 2 * s.radius.val < i → winAt t i = winAt s i) ∧
      t.seq.pos.toNat = s.seq.pos.toNat + 1 ∧ t.seq = { s.seq with pos := t.seq.pos, uop := .emit } ∧
      t.accesses = s.accesses ++
        [.read (lineIndex s (min (s.seq.pos.toNat + s.radius.val + 1) (lineLen s - 1)))] ∧
      t = { s with win := t.win, sum := t.sum, sumOut := t.sumOut, sumIn := t.sumIn, seq := t.seq,
                   accesses := t.accesses }

/-- R88 after an EMIT, and R110: within the line an ADVANCE follows; at the line's end a line command completes, any
other goes to the next line while there is one, BLUR goes from rows to columns, and otherwise the command completes:
BUSY 0, DONE 1, UOP idle. -/
def Obligations.EmitSequencing : Prop :=
  ∀ s t : State, exec .emit s = .next t →
    (s.seq.pos.toNat + 1 < lineLen s → t.seq = { s.seq with uop := .advance } ∧ t.status = s.status) ∧
    (lineLen s ≤ s.seq.pos.toNat + 1 →
      ((s.opc = 0x04 ∨ s.opc = 0x05) → t.seq = { s.seq with uop := .idle } ∧
        t.status = { s.status with busy := false, done := true }) ∧
      (¬ (s.opc = 0x04 ∨ s.opc = 0x05) → s.seq.line.toNat + 1 < passLines s →
        t.seq = { s.seq with line := s.seq.line + 1, uop := .seed } ∧ t.status = s.status) ∧
      (s.opc = 0x01 → s.seq.pass = .h → passLines s ≤ s.seq.line.toNat + 1 →
        t.seq = { s.seq with pass := .v, line := 0, uop := .seed } ∧ t.status = s.status) ∧
      (¬ (s.opc = 0x04 ∨ s.opc = 0x05) → ¬ (s.opc = 0x01 ∧ s.seq.pass = .h) →
        passLines s ≤ s.seq.line.toNat + 1 →
        t.seq = { s.seq with uop := .idle } ∧ t.status = { s.status with busy := false, done := true }))

/-- A micro-operation that reaches a pixel the platform does not back has no step (U9 of
spec/93_implementation_defined.md): the model stops by name (notes/assumptions/3.md). -/
def Obligations.UnbackedPixelStopsEngine : Prop :=
  ∀ s : State,
    (∀ k, k ≤ min s.radius.val (lineLen s - 1) → s.backed ≤ lineIndex s k → exec .seed s = .fault .unbackedPixel) ∧
    (s.backed ≤ lineIndex s s.seq.pos.toNat → exec .emit s = .fault .unbackedPixel) ∧
    (s.backed ≤ lineIndex s (min (s.seq.pos.toNat + s.radius.val + 1) (lineLen s - 1)) →
      exec .advance s = .fault .unbackedPixel)

/-- R82's bounds on the registers, and R65: each quotient is at most 255, so the narrowing at EMIT drops nothing. -/
def Obligations.AccumulatorsAndQuotientsBounded : Prop :=
  ∀ s : State, Inv s → s.status.busy = true → s.seq.uop ≠ .seed → ∀ c,
    (s.sum.get c).toNat ≤ 255 * s.div.toNat ∧ (s.sum.get c).toNat < 2 ^ 24 ∧
    (s.sumOut.get c).toNat ≤ 255 * (s.radius.val + 1) ∧ (s.sumIn.get c).toNat ≤ 255 * s.radius.val ∧
    (s.sumOut.get c).toNat ≤ (s.sum.get c).toNat ∧
    (extractChannel (winAt s 0) c).toNat ≤ (s.sumOut.get c).toNat ∧
    (extractChannel (winAt s (s.radius.val + 1)) c).toNat ≤ (s.sumIn.get c).toNat ∧
    4 ≤ s.div.toNat ∧ (quotient s c).toNat ≤ 255 ∧
    (quotientByte s c).toNat = (s.sum.get c).toNat / s.div.toNat

/-- R66: what the micro-operations do in one lane depends on that lane alone. -/
def Obligations.LanesAreIndependent : Prop :=
  ∀ (c : Channel) (s s' : State), SameLane c s s' → Memory.wf s.mem → Memory.wf s'.mem →
    ∀ u, u = Instr.seed ∨ u = Instr.emit ∨ u = Instr.advance →
      ∀ t t', exec u s = .next t → exec u s' = .next t' → SameLane c t t'

/-! ### Commands -/

/-- R108: a command that is taken and passes its checks starts; this is what each of the five leaves. Everything else,
memory included, is unchanged. `lent` is the model's own record of R41 (c) (notes/assumptions/8.md). -/
def Obligations.CommandsStart : Prop :=
  ∀ s : State, s.status.busy = false → s.status.err = false → GridLegal s →
    exec .blur s = .next { s with
      opc := 0x01, div := BitVec.ofNat 16 (s.radius.val * (s.radius.val + 2) + 1)
      seq := { pass := .h, line := 0, pos := 0, uop := .seed }
      status := { s.status with busy := true, done := false }
      lent := max s.lent (s.width.toNat * s.height.toNat) } ∧
    exec .hpass s = .next { s with
      opc := 0x02, div := BitVec.ofNat 16 (s.radius.val * (s.radius.val + 2) + 1)
      seq := { pass := .h, line := 0, pos := 0, uop := .seed }
      status := { s.status with busy := true, done := false }
      lent := max s.lent (s.width.toNat * s.height.toNat) } ∧
    exec .vpass s = .next { s with
      opc := 0x03, div := BitVec.ofNat 16 (s.radius.val * (s.radius.val + 2) + 1)
      seq := { pass := .v, line := 0, pos := 0, uop := .seed }
      status := { s.status with busy := true, done := false }
      lent := max s.lent (s.width.toNat * s.height.toNat) } ∧
    (∀ y, y < s.height.toNat → exec (.hline y) s = .next { s with
      opc := 0x04, div := BitVec.ofNat 16 (s.radius.val * (s.radius.val + 2) + 1)
      seq := { pass := .h, line := BitVec.ofNat 16 y, pos := 0, uop := .seed }
      status := { s.status with busy := true, done := false }
      lent := max s.lent (s.width.toNat * s.height.toNat) }) ∧
    (∀ x, x < s.width.toNat → exec (.vline x) s = .next { s with
      opc := 0x05, div := BitVec.ofNat 16 (s.radius.val * (s.radius.val + 2) + 1)
      seq := { pass := .v, line := BitVec.ofNat 16 x, pos := 0, uop := .seed }
      status := { s.status with busy := true, done := false }
      lent := max s.lent (s.width.toNat * s.height.toNat) })

/-- R106 step 1: while BUSY = 1 or ERR = 1 a command write is discarded; STATUS.DROP is set and nothing else changes. -/
def Obligations.CommandWriteDropped : Prop :=
  ∀ (s : State) (c : Word) (rest : List Event), s.script = .regWrite 0 c :: rest →
    s.status.busy = true ∨ s.status.err = true →
    step s = .next { s with
      script := rest, hostLog := s.hostLog ++ [.regWrite 0 c], status := { s.status with drop := true } }

/-- R120, checks 2, 3 and 4, with R115's codes and values and R123's entry: a taken command whose configuration is
illegal records the first check that fails and leaves everything else, memory included, as it was but DONE = 0. -/
def Obligations.IllegalConfigurationRaisesError : Prop :=
  ∀ (i : Instr) (s : State), i.format = .cmd → s.status.busy = false → s.status.err = false →
    (s.width = 0 ∨ s.height = 0 → exec i s = .next { s with
      status := { s.status with done := false, err := true }
      errcode := .badDim, errinfo := (zext32 s.height <<< 16) ||| zext32 s.width }) ∧
    (s.width ≠ 0 → s.height ≠ 0 → s.radius = 0 → exec i s = .next { s with
      status := { s.status with done := false, err := true }, errcode := .badRadius, errinfo := 0 }) ∧
    (s.width ≠ 0 → s.height ≠ 0 → s.radius ≠ 0 → s.buflen.toNat < s.width.toNat * s.height.toNat →
      exec i s = .next { s with
        status := { s.status with done := false, err := true }
        errcode := .invalidGeometry, errinfo := BitVec.ofNat 32 (s.width.toNat * s.height.toNat) })

/-- R120, check 5: a line command whose line is outside the grid records BAD_LINE with the command word. -/
def Obligations.LineOutsideGridRaisesBadLine : Prop :=
  ∀ (s : State) (k : Nat), k < 2 ^ 16 → s.status.busy = false → s.status.err = false → GridLegal s →
    (s.height.toNat ≤ k → exec (.hline k) s = .next { s with
      status := { s.status with done := false, err := true }
      errcode := .badLine, errinfo := 0x04000000 + BitVec.ofNat 32 k }) ∧
    (s.width.toNat ≤ k → exec (.vline k) s = .next { s with
      status := { s.status with done := false, err := true }
      errcode := .badLine, errinfo := 0x05000000 + BitVec.ofNat 32 k })

/-- R122: the geometry product is exact in 32 bits, so ERRINFO is the required length itself. -/
def Obligations.GeometryProductExact : Prop :=
  ∀ s : State, s.width.toNat * s.height.toNat < 2 ^ 32 ∧
    ∀ (e : ErrCode) (v : Word), gridFault s = some (e, v) → e = .invalidGeometry →
      v.toNat = s.width.toNat * s.height.toNat ∧ s.buflen.toNat < v.toNat

/-! ### The register port -/

/-- R102: what a read of each register returns; no register changes. A read of STATUS that returns BUSY = 0 also gives
the buffer back to the host, which is the model's own record of spec/20_memory.md R41 (notes/assumptions/8.md). -/
def Obligations.RegisterReadValues : Prop :=
  ∀ (s : State) (n : BitVec 4) (rest : List Event), s.script = .regRead n :: rest →
    ∃ v : Word, step s = .next { s with
        script := rest, hostLog := s.hostLog ++ [.regRead n v]
        lent := if n = 1 ∧ s.status.busy = false then 0 else s.lent } ∧
      (n = 0 → v = 0) ∧
      (n = 1 → v.toNat = 8 * s.status.drop.toNat + 4 * s.status.err.toNat + 2 * s.status.done.toNat +
        s.status.busy.toNat) ∧
      (n = 2 → v.toNat = s.blurAlpha.toNat) ∧
      (n = 3 → v.toNat = 4 * s.inten.errIe.toNat + 2 * s.inten.doneIe.toNat) ∧
      (n = 4 → v = s.buflen) ∧ (n = 5 → v.toNat = s.width.toNat) ∧ (n = 6 → v.toNat = s.height.toNat) ∧
      (n = 7 → v.toNat = s.radius.val) ∧
      (n = 8 → v.toNat = match s.errcode with
        | .none => 0 | .invalidGeometry => 1 | .badDim => 2 | .badRadius => 3 | .illegalCmd => 4 | .badLine => 5) ∧
      (n = 9 → v = s.errinfo) ∧ (10 ≤ n.toNat → v = 0)

/-- R103 for every register but CMD and STATUS while the block is idle: which bits a write keeps, RADIUS clamped to
254 over all 32 bits, read-only and reserved registers ignored. -/
def Obligations.RegisterWritesWhenIdle : Prop :=
  ∀ (s : State) (n : BitVec 4) (v : Word) (rest : List Event), s.script = .regWrite n v :: rest →
    s.status.busy = false → ∀ u : State, u = { s with script := rest, hostLog := s.hostLog ++ [.regWrite n v] } →
      (n = 2 → step s = .next { u with blurAlpha := v.getLsbD 0 }) ∧
      (n = 3 → step s = .next { u with inten := { doneIe := v.getLsbD 1, errIe := v.getLsbD 2 } }) ∧
      (n = 4 → step s = .next { u with buflen := v }) ∧
      (n = 5 → step s = .next { u with width := v.setWidth 16 }) ∧
      (n = 6 → step s = .next { u with height := v.setWidth 16 }) ∧
      (n = 7 → ∃ r : Fin 255, r.val = min v.toNat 254 ∧ step s = .next { u with radius := r }) ∧
      (8 ≤ n.toNat → step s = .next u)

/-- R104 and R103 while a command runs: CTRL, BUFLEN, WIDTH, HEIGHT and RADIUS keep their values and the write sets
DROP; INTEN is written; read-only and reserved registers ignore it. -/
def Obligations.ConfigurationWritesDroppedWhileBusy : Prop :=
  ∀ (s : State) (n : BitVec 4) (v : Word) (rest : List Event), s.script = .regWrite n v :: rest →
    s.status.busy = true → ∀ u : State, u = { s with script := rest, hostLog := s.hostLog ++ [.regWrite n v] } →
      (n = 2 ∨ n = 4 ∨ n = 5 ∨ n = 6 ∨ n = 7 → step s = .next { u with status := { s.status with drop := true } }) ∧
      (n = 3 → step s = .next { u with inten := { doneIe := v.getLsbD 1, errIe := v.getLsbD 2 } }) ∧
      (8 ≤ n.toNat → step s = .next u)

/-- R105, at any time: bits 1, 2 and 3 of the data clear DONE, ERR (with ERRCODE and ERRINFO) and DROP; bit 0 and bits
31:4 do nothing; BUSY keeps its value. -/
def Obligations.StatusWriteClearsFlags : Prop :=
  ∀ (s : State) (v : Word) (rest : List Event), s.script = .regWrite 1 v :: rest →
    step s = .next { s with
      script := rest
      hostLog := s.hostLog ++ [.regWrite 1 v]
      status := { busy := s.status.busy, done := s.status.done && !v.getLsbD 1, err := s.status.err && !v.getLsbD 2,
                  drop := s.status.drop && !v.getLsbD 3 }
      errcode := if v.getLsbD 2 then .none else s.errcode
      errinfo := if v.getLsbD 2 then 0 else s.errinfo }

/-- R104's consequence: from the start of a command to its completion the configuration and DIV are constant; only a
reset changes them. -/
def Obligations.ConfigurationConstantWhileBusy : Prop :=
  ∀ s t : State, s.status.busy = true → s.script.head? ≠ some .rst → step s = .next t →
    SameConfig s t ∧ t.div = s.div ∧ t.opc = s.opc

/-- R118: irq is a level, high exactly when DONE or ERR is pending and enabled; it is low after reset. -/
def Obligations.IrqIsPendingAndEnabled : Prop :=
  (∀ s : State, irq s = true ↔
    (s.status.done = true ∧ s.inten.doneIe = true) ∨ (s.status.err = true ∧ s.inten.errIe = true)) ∧
  irq State.reset = false ∧ ∀ s : State, irq (resetBlock s) = false

/-! ### Reset -/

/-- R28, the values it gives: the host registers, SEQ.UOP and the interrupt output after reset. -/
def Obligations.ResetRegisterValues : Prop :=
  State.reset.status = { busy := false, done := false, err := false, drop := false } ∧
  State.reset.blurAlpha = true ∧ State.reset.inten = { doneIe := false, errIe := false } ∧
  State.reset.buflen = 0 ∧ State.reset.width = 0 ∧ State.reset.height = 0 ∧ State.reset.radius = 0 ∧
  State.reset.errcode = .none ∧ State.reset.errinfo = 0 ∧ State.reset.seq.uop = .idle ∧ irq State.reset = false

/-- R133 and R134: rst, also while a command runs, gives those values and leaves pixel memory alone, so the buffer
keeps whatever part of the command was written; DONE is not set. -/
def Obligations.ResetEventAbandonsCommand : Prop :=
  ∀ (s : State) (rest : List Event), s.script = .rst :: rest → ∃ t, step s = .next t ∧
    t.status = { busy := false, done := false, err := false, drop := false } ∧
    t.blurAlpha = true ∧ t.inten = { doneIe := false, errIe := false } ∧ t.buflen = 0 ∧ t.width = 0 ∧
    t.height = 0 ∧ t.radius = 0 ∧ t.errcode = .none ∧ t.errinfo = 0 ∧ t.seq.uop = .idle ∧
    t.mem = s.mem ∧ t.accesses = s.accesses ∧ t.script = rest

/-! ### Host and engine -/

/-- R109: an idle engine given its turn has no step; nothing changes but that the turn is over, which is the model's
convention (notes/assumptions/7.md). -/
def Obligations.IdleEngineHasNoStep : Prop :=
  ∀ s : State, EngineNext s → s.status.busy = false → step s = .next { s with script := s.script.tail }

/-- R41: a host pixel access that the platform backs and no command owns reads or writes that pixel and nothing else;
one that touches a running command's buffer is a race and stops by name (U7; `lent` and `backed` are the model's,
notes/assumptions/3.md and 8.md). That the first also happens while BUSY = 1 is the model's choice
(notes/assumptions/17.md). -/
def Obligations.HostPixelAccesses : Prop :=
  (∀ (s : State) (i : Word) (rest : List Event), s.script = .pixRead i :: rest → i.toNat < s.backed →
    s.lent ≤ i.toNat →
    step s = .next { s with script := rest, hostLog := s.hostLog ++ [.pixRead i (pixel s i.toNat)] }) ∧
  (∀ (s : State) (i v : Word) (rest : List Event), s.script = .pixWrite i v :: rest → i.toNat < s.backed →
    s.lent ≤ i.toNat → Memory.wf s.mem → ∃ t, step s = .next t ∧ pixel t i.toNat = v ∧
      (∀ a, a / 4 ≠ i.toNat → readByte t.mem a = readByte s.mem a) ∧
      t = { s with script := rest, hostLog := s.hostLog ++ [.pixWrite i v], mem := t.mem }) ∧
  (∀ (s : State) (i : Word) (rest : List Event), s.script = .pixRead i :: rest → i.toNat < s.backed →
    i.toNat < s.lent → step s = .fault .bufferRace) ∧
  (∀ (s : State) (i v : Word) (rest : List Event), s.script = .pixWrite i v :: rest → i.toNat < s.backed →
    i.toNat < s.lent → step s = .fault .bufferRace)

/-- R109: while a command runs a host register transaction changes no engine register, no pixel and no configuration;
the command goes on. -/
def Obligations.HostCannotDisturbRunningCommand : Prop :=
  ∀ (s t : State) (e : Event), s.status.busy = true → s.script.head? = some e →
    (∃ n, e = .regRead n) ∨ (∃ n v, e = .regWrite n v) → step s = .next t →
    SameEngine s t ∧ SameConfig s t ∧ t.status.busy = true ∧ t.accesses = s.accesses

/-- R109 and R114: what an engine step does depends on the engine's registers, the configuration and pixel memory
alone. -/
def Obligations.EngineStepIsDetermined : Prop :=
  ∀ s s' t : State, SameEngine s s' → SameConfig s s' → s'.backed = s.backed → EngineNext s → EngineNext s' →
    s.status.busy = true → s'.status.busy = true → step s = .next t →
    ∃ t', step s' = .next t' ∧ SameEngine t t' ∧ t'.status.busy = t.status.busy ∧
      ∃ l, t.accesses = s.accesses ++ l ∧ t'.accesses = s'.accesses ++ l

/-! ### Whole-machine rules -/

/-- Pixel memory changes only by an EMIT of a running command or by a host pixel write (R30, R40, R124). -/
def Obligations.OnlyEmitAndHostChangePixels : Prop :=
  ∀ s t : State, step s = .next t →
    (s.status.busy = true ∧ s.seq.uop = .emit ∧ EngineNext s) ∨ (∃ i v, s.script.head? = some (.pixWrite i v)) ∨
      t.mem = s.mem

/-- STATUS.BUSY rises only by a command write and falls only by a completion, which sets DONE, or a reset (R16). -/
def Obligations.BusyChangesOnlyByCommandCompletionReset : Prop :=
  ∀ s t : State, step s = .next t →
    (s.status.busy = false → t.status.busy = true → ∃ c, s.script.head? = some (.regWrite 0 c)) ∧
    (s.status.busy = true → t.status.busy = false →
      (EngineNext s ∧ s.seq.uop = .emit ∧ t.status.done = true) ∨ s.script.head? = some .rst)

/-- R126: ERRCODE and ERRINFO describe the first failing command until ERR is cleared by its W1C or a reset. -/
def Obligations.RecordedErrorIsKept : Prop :=
  ∀ s t : State, s.status.err = true → step s = .next t →
    (t.status.err = true ∧ t.errcode = s.errcode ∧ t.errinfo = s.errinfo) ∨
    (∃ v : Word, s.script.head? = some (.regWrite 1 v) ∧ v.getLsbD 2 = true) ∨ s.script.head? = some .rst

/-- Every step keeps memory in canonical form, from any state. -/
def Obligations.StepKeepsMemoryCanonical : Prop :=
  ∀ s t : State, Memory.wf s.mem → step s = .next t → Memory.wf t.mem

/-- The invariant holds after reset. -/
def Obligations.InvHoldsAfterReset : Prop := Inv State.reset

/-- Every step keeps the invariant: the accumulators equal their defining sums at every EMIT and ADVANCE (R79 (b)), a
running command's configuration stays legal (R84), the flags stay exclusive (R16), an error is recorded exactly while
ERR = 1 (R24, R25), the sequencer stays inside the grid (R17), memory stays canonical. -/
def Obligations.StepKeepsInv : Prop :=
  ∀ s t : State, Inv s → step s = .next t → Inv t

/-- Every step keeps the window's leading part equal to the line still to be overwritten (R71, R79 (a), R90). -/
def Obligations.StepKeepsWindowAhead : Prop :=
  ∀ s t : State, Inv s → WindowAhead s → step s = .next t → WindowAhead t

/-- R32: every pixel-port access of a step is to a position of the current line, inside the grid and inside the
declared buffer. -/
def Obligations.AccessesStayInsideLine : Prop :=
  ∀ s t : State, Inv s → step s = .next t → ∃ l, t.accesses = s.accesses ++ l ∧
    ∀ a ∈ l, s.status.busy = true ∧ ∃ k, k < lineLen s ∧
      (a = .read (lineIndex s k) ∨ ∃ v, a = .write (lineIndex s k) v) ∧
      lineIndex s k < s.width.toNat * s.height.toNat ∧ lineIndex s k < s.buflen.toNat

/-- R90: the position an ADVANCE reads is ahead of every position the sweep has written. -/
def Obligations.AdvanceReadsAheadOfWrites : Prop :=
  ∀ s : State, Inv s → s.status.busy = true → s.seq.uop = .advance →
    ∀ t, exec .advance s = .next t → ∃ k, s.seq.pos.toNat < k ∧ k < lineLen s ∧
      t.accesses = s.accesses ++ [.read (lineIndex s k)] ∧
      ∀ j, j ≤ s.seq.pos.toNat → lineIndex s j ≠ lineIndex s k

/-- R116 and R145: a running command has an enabled step on a platform that backs the grid, and no step of it raises an
error. -/
def Obligations.RunningEngineAlwaysSteps : Prop :=
  ∀ s : State, Inv s → Backed s → s.status.busy = true → EngineNext s →
    ∃ t, step s = .next t ∧ t.status.err = false ∧ t.errcode = .none ∧
      (t.status.busy = true ∨ t.status.done = true)

/-! ### Whole commands -/

/-- R87 and R89: from the start of a line, the `2n` micro-operations of its sweep leave LINEOUT of the line's contents
in the line, every other pixel untouched, and exactly the listed accesses at the port. -/
def Obligations.SweepWritesLineOut : Prop :=
  ∀ s : State, Inv s → Backed s → s.script = [] → s.status.busy = true → s.seq.uop = .seed →
    ∃ t, runFor (2 * lineLen s) s = .next t ∧ SameConfig s t ∧
      (∀ j, j < lineLen s → pixel t (lineIndex s j) =
        lineOut s.blurAlpha (fun k => pixel s (lineIndex s k)) (lineLen s) s.radius.val j) ∧
      (∀ i, (∀ j, j < lineLen s → i ≠ lineIndex s j) → pixel t i = pixel s i) ∧
      t.accesses = s.accesses ++ sweepAccesses s.blurAlpha (fun k => pixel s (lineIndex s k)) (lineIndex s)
        (lineLen s) s.radius.val

/-- R91, R92 and R99: from its command write, HLINE y blurs row y in `2W` micro-operations and VLINE x column x in `2H`,
every other pixel untouched. -/
def Obligations.LineCommandsBlurOneLine : Prop :=
  ∀ (s : State) (k : Nat),
    (k < s.height.toNat → CommandPending (0x04000000 + BitVec.ofNat 32 k) s →
      CompletesWith (2 * s.width.toNat)
        (blurRow s.blurAlpha s.width.toNat s.radius.val k (pixel s)) s) ∧
    (k < s.width.toNat → CommandPending (0x05000000 + BitVec.ofNat 32 k) s →
      CompletesWith (2 * s.height.toNat)
        (blurColumn s.blurAlpha s.width.toNat s.height.toNat s.radius.val k (pixel s)) s)

/-- R93, R94, R96 and R99: HPASS leaves every row blurred and VPASS every column, in `2WH` micro-operations each, every
pixel outside the grid untouched. -/
def Obligations.PassCommandsBlurEveryLine : Prop :=
  ∀ s : State,
    (CommandPending 0x02000000 s → CompletesWith (2 * s.width.toNat * s.height.toNat)
      (blurRows s.blurAlpha s.width.toNat s.height.toNat s.radius.val (pixel s)) s) ∧
    (CommandPending 0x03000000 s → CompletesWith (2 * s.width.toNat * s.height.toNat)
      (blurColumns s.blurAlpha s.width.toNat s.height.toNat s.radius.val (pixel s)) s)

/-- R95, R96, R97 and R99: BLUR leaves G2, the columns of the row-blurred grid blurred, in `4WH` micro-operations, every
pixel outside the grid untouched. -/
def Obligations.BlurEqualsReference : Prop :=
  ∀ s : State, CommandPending 0x01000000 s → CompletesWith (4 * s.width.toNat * s.height.toNat)
    (blurColumns s.blurAlpha s.width.toNat s.height.toNat s.radius.val
      (blurRows s.blurAlpha s.width.toNat s.height.toNat s.radius.val (pixel s))) s

/-- R100 (a) and (b): BLUR leaves a grid of equal pixels, a single pixel among them, as it was, for every size, radius
and setting of BLUR_ALPHA. -/
def Obligations.UniformGridUnchangedByBlur : Prop :=
  ∀ (s : State) (p : Word), CommandPending 0x01000000 s →
    (∀ i, i < s.width.toNat * s.height.toNat → pixel s i = p) →
    CompletesWith (4 * s.width.toNat * s.height.toNat) (pixel s) s

/-- R100 (e): the `2n` micro-operations of a sweep leave every channel of every pixel of the line between bounds that
held for that channel on the line before; the A channel too, blurred or passed through. -/
def Obligations.BlurredChannelStaysWithinLineBounds : Prop :=
  ∀ s : State, Inv s → Backed s → s.script = [] → s.status.busy = true → s.seq.uop = .seed →
    ∃ t, runFor (2 * lineLen s) s = .next t ∧
      ∀ (c : Channel) (lo hi : Nat),
        (∀ k, k < lineLen s → lo ≤ chanVal c (pixel s (lineIndex s k)) ∧ chanVal c (pixel s (lineIndex s k)) ≤ hi) →
        ∀ j, j < lineLen s →
          lo ≤ chanVal c (pixel t (lineIndex s j)) ∧ chanVal c (pixel t (lineIndex s j)) ≤ hi

/-- R76's consequence: with BLUR_ALPHA = 0 the sweep of a line leaves every pixel's A field as it was. -/
def Obligations.AlphaPassesThrough : Prop :=
  ∀ s : State, Inv s → Backed s → s.script = [] → s.status.busy = true → s.seq.uop = .seed → s.blurAlpha = false →
    ∃ t, runFor (2 * lineLen s) s = .next t ∧ ∀ i, chanVal .a (pixel t i) = chanVal .a (pixel s i)
end

