-- ==== Sys2Proof/Laws/Arith.lean ====
section
/-! SUPPORT. The small lemmas of the operand functions: sums, channels, lanes, weights, the window's registers. Later
proofs cite these and do not unfold the functions. -/

namespace Sys2Proof.Laws

open Sys2Proof.Machine Sys2Proof.Safety

theorem sumUpTo_eq_sum (f : Nat → Nat) (n : Nat) : sumUpTo f n = ∑ i ∈ Finset.range n, f i := by
  induction n with
  | zero => rfl
  | succ n ih => rw [sumUpTo, ih, Finset.sum_range_succ]

@[simp] theorem get_ofFn (f : Channel → Word) (c : Channel) : (Lanes.ofFn f).get c = f c := by
  cases c <;> rfl

theorem lanes_ext {l m : Lanes} (h : ∀ c, l.get c = m.get c) : l = m := by
  obtain ⟨b, g, r, a⟩ := l
  obtain ⟨b', g', r', a'⟩ := m
  obtain rfl : b = b' := h .b
  obtain rfl : g = g' := h .g
  obtain rfl : r = r' := h .r
  obtain rfl : a = a' := h .a
  rfl

@[simp] theorem get_unpackPixel (p : Word) (c : Channel) :
    (unpackPixel p).get c = zext32 (extractChannel p c) := by
  simp [unpackPixel]

theorem chan_eq_chanVal (c : Channel) (p : Word) : chan c p = chanVal c p := by
  have h := (extractChannel p c).isLt
  simp only [chan, chanVal, get_unpackPixel, BitVec.toNat_setWidth]
  omega

theorem chanVal_le (c : Channel) (p : Word) : chanVal c p ≤ 255 := by
  have h := (extractChannel p c).isLt
  simp only [chanVal]
  omega

theorem extract_pack_a (a r g b : Byte) : extractChannel (packPixel a r g b) .a = a := by
  ext i hi
  simp only [extractChannel, packPixel, Channel.code, BitVec.getElem_extractLsb', BitVec.getLsbD_append]
  have : ¬ 24 + i < 8 := by omega
  simp [show 8 * 3 + i - 8 - 8 - 8 = i by omega, show ¬ 8 * 3 + i < 8 by omega,
    show ¬ 8 * 3 + i - 8 < 8 by omega, show ¬ 8 * 3 + i - 8 - 8 < 8 by omega, hi]

theorem extract_pack_r (a r g b : Byte) : extractChannel (packPixel a r g b) .r = r := by
  ext i hi
  simp only [extractChannel, packPixel, Channel.code, BitVec.getElem_extractLsb', BitVec.getLsbD_append]
  simp [show 8 * 2 + i - 8 - 8 = i by omega, show ¬ 8 * 2 + i < 8 by omega,
    show ¬ 8 * 2 + i - 8 < 8 by omega, hi]

theorem extract_pack_g (a r g b : Byte) : extractChannel (packPixel a r g b) .g = g := by
  ext i hi
  simp only [extractChannel, packPixel, Channel.code, BitVec.getElem_extractLsb', BitVec.getLsbD_append]
  simp [show 8 * 1 + i - 8 = i by omega, show ¬ 8 * 1 + i < 8 by omega, hi]

theorem extract_pack_b (a r g b : Byte) : extractChannel (packPixel a r g b) .b = b := by
  ext i hi
  simp only [extractChannel, packPixel, Channel.code, BitVec.getElem_extractLsb', BitVec.getLsbD_append]
  simp [hi]

theorem winAt_of_win {s t : State} (h : t.win = s.win) (i : Nat) : winAt t i = winAt s i := by
  rw [winAt, winAt, h]

/-- Once for SEED and ADVANCE: registers 0 to 2r take the new values, the others keep theirs. -/
theorem getD_writeWindow (s : State) (x : Nat → Word) (i : Nat) :
    (writeWindow s x)[i]?.getD 0 = if i ≤ 2 * s.radius.val then x i else winAt s i := by
  unfold writeWindow winAt
  by_cases h : i ≤ 2 * s.radius.val
  · rw [if_pos h, List.getElem?_append_left (by simp; omega)]
    simp [List.getElem?_range (show i < 2 * s.radius.val + 1 by omega)]
  · rw [if_neg h, List.getElem?_append_right (by simp; omega)]
    simp [List.getElem?_drop, show 2 * s.radius.val + 1 + (i - (2 * s.radius.val + 1)) = i by omega]

theorem length_writeWindow_le (s : State) (x : Nat → Word) (h : s.win.length ≤ Config.winMax) :
    (writeWindow s x).length ≤ Config.winMax := by
  have hr := s.radius.isLt
  simp only [Config.winMax] at *
  simp only [writeWindow, List.length_append, List.length_map, List.length_range, List.length_drop]
  omega

theorem windowSum_eq (r : Nat) (x : Nat → Word) (c : Channel) : windowSum r x c = tentSum r x c := by
  simp [windowSum, sumUpTo_eq_sum, weight, chan_eq_chanVal]

theorem windowSumOut_eq (r : Nat) (x : Nat → Word) (c : Channel) :
    windowSumOut r x c = ∑ i ∈ Finset.range (r + 1), chanVal c (x i) := by
  simp [windowSumOut, sumUpTo_eq_sum, chan_eq_chanVal]

theorem windowSumIn_eq (r : Nat) (x : Nat → Word) (c : Channel) :
    windowSumIn r x c = ∑ i ∈ Finset.range r, chanVal c (x (r + 1 + i)) := by
  simp [windowSumIn, sumUpTo_eq_sum, chan_eq_chanVal]

/-- A tent-weighted sum lies between the weights' sum times any bounds of the values it averages (R100 (e)). -/
theorem tentSum_bounds {r lo hi : Nat} {x : Nat → Word} {c : Channel}
    (h : ∀ i, i ≤ 2 * r → lo ≤ chanVal c (x i) ∧ chanVal c (x i) ≤ hi) :
    lo * ∑ i ∈ Finset.range (2 * r + 1), tent r i ≤ tentSum r x c ∧
      tentSum r x c ≤ hi * ∑ i ∈ Finset.range (2 * r + 1), tent r i := by
  rw [Finset.mul_sum, Finset.mul_sum]
  constructor <;> refine Finset.sum_le_sum fun i hi => ?_ <;>
    have hx := h i (by have := Finset.mem_range.mp hi; omega)
  · rw [Nat.mul_comm]
    exact Nat.mul_le_mul_left _ hx.1
  · rw [Nat.mul_comm (tent r i)]
    exact Nat.mul_le_mul_right _ hx.2

/-- Channel values are at most 255. -/
theorem tentSum_le (r : Nat) (x : Nat → Word) (c : Channel) :
    tentSum r x c ≤ 255 * ∑ i ∈ Finset.range (2 * r + 1), tent r i :=
  (tentSum_bounds (lo := 0) fun _ _ => ⟨Nat.zero_le _, chanVal_le c _⟩).2

theorem plainSum_le (n : Nat) (x : Nat → Word) (c : Channel) :
    ∑ i ∈ Finset.range n, chanVal c (x i) ≤ 255 * n := by
  calc ∑ i ∈ Finset.range n, chanVal c (x i) ≤ ∑ _i ∈ Finset.range n, 255 :=
        Finset.sum_le_sum fun i _ => chanVal_le c _
    _ = 255 * n := by simp [Nat.mul_comm]

/-! ### Line addressing -/

theorem lineIndex_row {s : State} (h : s.seq.pass = .h) (k : Nat) :
    lineIndex s k = s.seq.line.toNat * s.width.toNat + k := by
  simp [lineIndex, lineBase, lineStride, h]

theorem lineIndex_column {s : State} (h : s.seq.pass = .v) (k : Nat) :
    lineIndex s k = s.seq.line.toNat + s.width.toNat * k := by
  simp [lineIndex, lineBase, lineStride, h]

theorem lineLen_row {s : State} (h : s.seq.pass = .h) : lineLen s = s.width.toNat := by
  simp [lineLen, h]

theorem lineLen_column {s : State} (h : s.seq.pass = .v) : lineLen s = s.height.toNat := by
  simp [lineLen, h]

theorem lineLen_lt (s : State) : lineLen s < 2 ^ 16 := by
  unfold lineLen
  split
  · exact s.width.isLt
  · exact s.height.isLt

/-- No index arithmetic leaves the 32-bit pixel space, whatever the registers hold. -/
theorem lineIndex_lt (s : State) {k : Nat} (hk : k < 2 ^ 16) : lineIndex s k < 2 ^ 32 := by
  have hw : s.width.toNat ≤ 65535 := by have := s.width.isLt; omega
  have hl : s.seq.line.toNat ≤ 65535 := by have := s.seq.line.isLt; omega
  have hk' : k ≤ 65535 := by omega
  cases hp : s.seq.pass with
  | h =>
    rw [lineIndex_row hp]
    have := Nat.mul_le_mul hl hw
    omega
  | v =>
    rw [lineIndex_column hp]
    have := Nat.mul_le_mul hw hk'
    omega

theorem advancePos_lt (s : State) : advancePos s < 2 ^ 16 := by
  have := lineLen_lt s
  unfold advancePos
  omega

theorem seedLast_lt (s : State) : seedLast s < 2 ^ 16 := by
  have := lineLen_lt s
  unfold seedLast
  omega

/-- Different positions of a line stand at different indices. -/
theorem lineIndex_inj {s : State} (hw : 0 < s.width.toNat) {j k : Nat} (h : lineIndex s j = lineIndex s k) :
    j = k := by
  cases hp : s.seq.pass with
  | h => rw [lineIndex_row hp, lineIndex_row hp] at h; omega
  | v =>
    rw [lineIndex_column hp, lineIndex_column hp] at h
    exact Nat.eq_of_mul_eq_mul_left hw (by omega)

/-- Every position of a line inside the grid stands at an index of the grid. -/
theorem lineIndex_lt_grid {s : State} (hl : s.seq.line.toNat < passLines s) {k : Nat} (hk : k < lineLen s) :
    lineIndex s k < gridSize s := by
  unfold gridSize
  cases hp : s.seq.pass with
  | h =>
    rw [lineIndex_row hp]
    rw [lineLen_row hp] at hk
    have hl' : s.seq.line.toNat + 1 ≤ s.height.toNat := by simpa [passLines, hp] using hl
    have := Nat.mul_le_mul_right s.width.toNat hl'
    rw [Nat.mul_comm s.width.toNat]
    nlinarith
  | v =>
    rw [lineIndex_column hp]
    rw [lineLen_column hp] at hk
    have hl' : s.seq.line.toNat < s.width.toNat := by simpa [passLines, hp] using hl
    have := Nat.mul_le_mul_left s.width.toNat (show k + 1 ≤ s.height.toNat from hk)
    nlinarith

theorem positionsBacked_iff (s : State) (ks : List Nat) :
    positionsBacked s ks = true ↔ ∀ k ∈ ks, lineIndex s k < s.backed := by
  simp [positionsBacked]

end Sys2Proof.Laws
end

