-- ==== Sys2Proof/Laws/Encoding.lean ====
section
/-! SUPPORT. The fields of command words: of a line command's word, of any word, and of one that decodes. -/

namespace Sys2Proof.Laws

theorem opcodeField_lineWord (o : Byte) (k : Nat) : opcodeField (lineWord o k) = o := by
  refine BitVec.eq_of_getLsbD_eq fun i hi => ?_
  simp only [opcodeField, lineWord, BitVec.getLsbD_extractLsb', BitVec.getLsbD_append]
  simp [hi, show ¬ 24 + i < 16 by omega, show ¬ 24 + i - 16 < 8 by omega, show 24 + i - 16 - 8 = i by omega]

theorem zeroField_lineWord (o : Byte) (k : Nat) : zeroField (lineWord o k) = 0 := by
  refine BitVec.eq_of_getLsbD_eq fun i hi => ?_
  simp only [zeroField, lineWord, BitVec.getLsbD_extractLsb', BitVec.getLsbD_append]
  simp [hi, show ¬ 16 + i < 16 by omega]

theorem argField_lineWord (o : Byte) (k : Nat) : argField (lineWord o k) = BitVec.ofNat 16 k := by
  refine BitVec.eq_of_getLsbD_eq fun i hi => ?_
  simp only [argField, lineWord, BitVec.getLsbD_extractLsb', BitVec.getLsbD_append]
  simp [hi]

/-- A command word is its three fields (R48). -/
theorem word_of_fields (c : Word) : c = opcodeField c ++ zeroField c ++ argField c := by
  refine BitVec.eq_of_getLsbD_eq fun i hi => ?_
  simp only [opcodeField, zeroField, argField, BitVec.getLsbD_append, BitVec.getLsbD_extractLsb']
  by_cases h0 : i < 16
  · simp [h0]
  · by_cases h1 : i < 24
    · simp [h0, show i - 16 < 8 by omega, show 16 + (i - 16) = i by omega]
    · simp [h0, show ¬ i - 16 < 8 by omega, show i - 16 - 8 < 8 by omega, show 24 + (i - 16 - 8) = i by omega]

/-- What `decodeCmd` can answer, with the fields that make it answer so (R49, R53). -/
theorem decodeCmd_ok {c : Word} {i : Instr} (h : decodeCmd c = .ok i) :
    zeroField c = 0 ∧
    ((i = .blur ∧ opcodeField c = 0x01 ∧ argField c = 0) ∨ (i = .hpass ∧ opcodeField c = 0x02 ∧ argField c = 0) ∨
      (i = .vpass ∧ opcodeField c = 0x03 ∧ argField c = 0) ∨
      (i = .hline (argField c).toNat ∧ opcodeField c = 0x04) ∨ (i = .vline (argField c).toNat ∧ opcodeField c = 0x05)) := by
  unfold decodeCmd decodeNoArg at h
  split at h
  · cases h
  · rename_i hz
    refine ⟨not_not.mp hz, ?_⟩
    split at h
    · split at h <;> cases h
      exact .inl ⟨rfl, ‹_›, ‹_›⟩
    · split at h
      · split at h <;> cases h
        exact .inr (.inl ⟨rfl, ‹_›, ‹_›⟩)
      · split at h
        · split at h <;> cases h
          exact .inr (.inr (.inl ⟨rfl, ‹_›, ‹_›⟩))
        · split at h
          · cases h
            exact .inr (.inr (.inr (.inl ⟨rfl, ‹_›⟩)))
          · split at h
            · cases h
              exact .inr (.inr (.inr (.inr ⟨rfl, ‹_›⟩)))
            · cases h

theorem lineWord_of_fields {c : Word} {o : Byte} (hz : zeroField c = 0) (ho : opcodeField c = o) :
    lineWord o (argField c).toNat = c := by
  have h := word_of_fields c
  rw [hz, ho] at h
  rw [lineWord, BitVec.ofNat_toNat, BitVec.setWidth_eq]
  exact h.symm

end Sys2Proof.Laws
end

