-- ==== Sys2Proof/Laws/Memory.lean ====
section
/-! SUPPORT. Pixel memory: read after write, what a write leaves alone, and the canonical form (spec/20_memory.md R30,
R34, R36, R40). -/

namespace Sys2Proof.Laws

open Sys2Proof.Machine Sys2Proof.Safety

/-! ### Bytes -/

theorem readByte_consCell_other {a b : Nat} (h : b ≠ a) (v : Byte) (m : List Host.Cell) :
    readByte (consCell a v m) b = readByte m b := by
  unfold consCell
  split
  · rfl
  · simp [readByte, h]

/-- A write leaves every other byte alone, whatever form the memory is in. -/
theorem readByte_writeByte_other (m : List Host.Cell) {a b : Nat} (h : b ≠ a) (v : Byte) :
    readByte (writeByte m a v) b = readByte m b := by
  induction m with
  | nil => exact readByte_consCell_other h v []
  | cons x m ih =>
    obtain ⟨c, w⟩ := x
    simp only [writeByte]
    split
    · exact readByte_consCell_other h v _
    · split
      · subst a
        rw [readByte_consCell_other h]
        simp [readByte, h]
      · simp only [readByte]
        rw [ih]

/-- Nothing is listed below the first address of a rising list. -/
theorem readByte_below {m : List Host.Cell} {a : Nat} (h : ∀ x ∈ m, a < x.1) :
    readByte m a = Config.unlistedByte := by
  induction m with
  | nil => rfl
  | cons x m ih =>
    obtain ⟨c, w⟩ := x
    have hc : a < c := h _ (List.mem_cons_self ..)
    simp only [readByte, if_neg (Nat.ne_of_lt hc)]
    exact ih fun y hy => h y (List.mem_cons_of_mem _ hy)

theorem readByte_consCell_same {a : Nat} {v : Byte} {m : List Host.Cell} (h : ∀ x ∈ m, a < x.1) :
    readByte (consCell a v m) a = v := by
  unfold consCell
  split
  · rename_i hv
    rw [readByte_below h, hv]
  · simp [readByte]

/-- A read after a write to the same address gives the value written. -/
theorem readByte_writeByte_same {m : List Host.Cell} (hm : Memory.wf m) (a : Nat) (v : Byte) :
    readByte (writeByte m a v) a = v := by
  induction m with
  | nil => exact readByte_consCell_same (by simp)
  | cons x m ih =>
    obtain ⟨c, w⟩ := x
    obtain ⟨hs, hc⟩ := hm
    rw [List.pairwise_cons] at hs
    simp only [writeByte]
    split
    · rename_i hlt
      refine readByte_consCell_same fun y hy => ?_
      rcases List.mem_cons.mp hy with rfl | hy
      · exact hlt
      · exact Nat.lt_trans hlt (hs.1 y hy)
    · split
      · subst a
        exact readByte_consCell_same hs.1
      · rename_i hne
        simp only [readByte, if_neg hne]
        exact ih ⟨hs.2, fun y hy => hc y (List.mem_cons_of_mem _ hy)⟩

theorem mem_consCell {a : Nat} {v : Byte} {m : List Host.Cell} {x : Host.Cell} (h : x ∈ consCell a v m) :
    (x = (a, v) ∧ v ≠ Config.unlistedByte) ∨ x ∈ m := by
  unfold consCell at h
  split at h
  · exact .inr h
  · rename_i hv
    rcases List.mem_cons.mp h with rfl | h
    · exact .inl ⟨rfl, hv⟩
    · exact .inr h

theorem mem_writeByte {m : List Host.Cell} {a : Nat} {v : Byte} {x : Host.Cell} (h : x ∈ writeByte m a v) :
    (x = (a, v) ∧ v ≠ Config.unlistedByte) ∨ x ∈ m := by
  induction m with
  | nil => exact mem_consCell h
  | cons y m ih =>
    obtain ⟨c, w⟩ := y
    simp only [writeByte] at h
    split at h
    · exact mem_consCell h
    · split at h
      · exact (mem_consCell h).imp_right (List.mem_cons_of_mem _)
      · rcases List.mem_cons.mp h with rfl | h
        · exact .inr (List.mem_cons_self ..)
        · exact (ih h).imp_right (List.mem_cons_of_mem _)

theorem wf_consCell {a : Nat} {v : Byte} {m : List Host.Cell} (hm : Memory.wf m) (ha : a < Config.memBytes)
    (h : ∀ x ∈ m, a < x.1) : Memory.wf (consCell a v m) := by
  refine ⟨?_, fun x hx => ?_⟩
  · unfold consCell
    split
    · exact hm.1
    · exact List.pairwise_cons.mpr ⟨h, hm.1⟩
  · rcases mem_consCell hx with ⟨rfl, hv⟩ | hx
    · exact ⟨ha, hv⟩
    · exact hm.2 x hx

/-- Storing a byte of the pixel space keeps the canonical form. -/
theorem wf_writeByte {m : List Host.Cell} (hm : Memory.wf m) {a : Nat} (ha : a < Config.memBytes) (v : Byte) :
    Memory.wf (writeByte m a v) := by
  induction m with
  | nil => exact wf_consCell hm ha (by simp)
  | cons x m ih =>
    obtain ⟨c, w⟩ := x
    have hs := List.pairwise_cons.mp hm.1
    have ht : Memory.wf m := ⟨hs.2, fun y hy => hm.2 y (List.mem_cons_of_mem _ hy)⟩
    simp only [writeByte]
    split
    · rename_i hlt
      refine wf_consCell hm ha fun y hy => ?_
      rcases List.mem_cons.mp hy with rfl | hy
      · exact hlt
      · exact Nat.lt_trans hlt (hs.1 y hy)
    · split
      · subst a
        exact wf_consCell ht ha hs.1
      · rename_i hge hne
        refine ⟨List.pairwise_cons.mpr ⟨fun y hy => ?_, (ih ht).1⟩, fun y hy => ?_⟩
        · rcases mem_writeByte hy with ⟨rfl, -⟩ | hy
          · simp only; omega
          · exact hs.1 y hy
        · rcases List.mem_cons.mp hy with rfl | hy
          · exact hm.2 _ (List.mem_cons_self ..)
          · exact (ih ht).2 y hy

/-! ### Pixels -/

theorem channelByte_lt (c : Channel) : channelByte c < 4 := by
  cases c <;> decide

theorem channelByte_inj {c d : Channel} (h : channelByte c = channelByte d) : c = d := by
  cases c <;> cases d <;> first | rfl | exact absurd h (by decide)

/-- Different pixels and different channels stand in different bytes. -/
theorem pixelByte_inj {i j : Nat} {c d : Channel} (h : pixelByte i c = pixelByte j d) : i = j ∧ c = d := by
  have hc := channelByte_lt c
  have hd := channelByte_lt d
  unfold pixelByte at h
  have hij : i = j := by omega
  exact ⟨hij, channelByte_inj (by omega)⟩

theorem pixelByte_lt {i : Nat} (h : i < 2 ^ 32) (c : Channel) : pixelByte i c < Config.memBytes := by
  have hc := channelByte_lt c
  unfold pixelByte Config.memBytes
  omega

theorem pixelByte_div (i : Nat) (c : Channel) : pixelByte i c / 4 = i := by
  have hc := channelByte_lt c
  unfold pixelByte
  omega

theorem wf_writePixel {m : List Host.Cell} (hm : Memory.wf m) {i : Nat} (hi : i < 2 ^ 32) (v : Word) :
    Memory.wf (writePixel m i v) :=
  wf_writeByte (wf_writeByte (wf_writeByte (wf_writeByte hm (pixelByte_lt hi _) _) (pixelByte_lt hi _) _)
    (pixelByte_lt hi _) _) (pixelByte_lt hi _) _

/-- A pixel write changes no byte outside the pixel's four. -/
theorem readByte_writePixel_other (m : List Host.Cell) {i b : Nat} (h : b / 4 ≠ i) (v : Word) :
    readByte (writePixel m i v) b = readByte m b := by
  have hne : ∀ c, b ≠ pixelByte i c := fun c hb => h (by rw [hb, pixelByte_div])
  simp only [writePixel, writeChannel]
  rw [readByte_writeByte_other _ (hne _), readByte_writeByte_other _ (hne _), readByte_writeByte_other _ (hne _),
    readByte_writeByte_other _ (hne _)]

/-- Each of the pixel's four bytes holds its channel afterwards. -/
theorem readByte_writePixel_same {m : List Host.Cell} (hm : Memory.wf m) {i : Nat} (hi : i < 2 ^ 32) (v : Word)
    (c : Channel) : readByte (writePixel m i v) (pixelByte i c) = extractChannel v c := by
  have hne : ∀ {d e : Channel}, d ≠ e → pixelByte i d ≠ pixelByte i e := fun hde h => hde (pixelByte_inj h).2
  have h1 := wf_writeByte hm (pixelByte_lt hi .b) (extractChannel v .b)
  have h2 := wf_writeByte h1 (pixelByte_lt hi .g) (extractChannel v .g)
  have h3 := wf_writeByte h2 (pixelByte_lt hi .r) (extractChannel v .r)
  simp only [writePixel, writeChannel]
  cases c with
  | a => exact readByte_writeByte_same h3 _ _
  | r => rw [readByte_writeByte_other _ (hne (by decide))]; exact readByte_writeByte_same h2 _ _
  | g =>
    rw [readByte_writeByte_other _ (hne (by decide)), readByte_writeByte_other _ (hne (by decide))]
    exact readByte_writeByte_same h1 _ _
  | b =>
    rw [readByte_writeByte_other _ (hne (by decide)), readByte_writeByte_other _ (hne (by decide)),
      readByte_writeByte_other _ (hne (by decide))]
    exact readByte_writeByte_same hm _ _

theorem pack_extract (p : Word) :
    packPixel (extractChannel p .a) (extractChannel p .r) (extractChannel p .g) (extractChannel p .b) = p := by
  refine BitVec.eq_of_getLsbD_eq fun i hi => ?_
  simp only [extractChannel, packPixel, Channel.code, BitVec.getLsbD_append, BitVec.getLsbD_extractLsb']
  by_cases h0 : i < 8
  · simp [h0]
  · by_cases h1 : i < 16
    · simp [h0, show i - 8 < 8 by omega, show 8 + (i - 8) = i by omega]
    · by_cases h2 : i < 24
      · simp [h0, show ¬ i - 8 < 8 by omega, show i - 8 - 8 < 8 by omega, show 16 + (i - 8 - 8) = i by omega]
      · simp [h0, show ¬ i - 8 < 8 by omega, show ¬ i - 8 - 8 < 8 by omega, show i - 8 - 8 - 8 < 8 by omega,
          show 24 + (i - 8 - 8 - 8) = i by omega]

/-- The engine reads back what it wrote (R36, R40). -/
theorem readPixel_writePixel_same {m : List Host.Cell} (hm : Memory.wf m) {i : Nat} (hi : i < 2 ^ 32) (v : Word) :
    readPixel (writePixel m i v) i = v := by
  simp only [readPixel, readByte_writePixel_same hm hi]
  exact pack_extract v

/-- A pixel write leaves every other pixel alone. -/
theorem readPixel_writePixel_other (m : List Host.Cell) {i j : Nat} (h : j ≠ i) (v : Word) :
    readPixel (writePixel m i v) j = readPixel m j := by
  have hb : ∀ c, readByte (writePixel m i v) (pixelByte j c) = readByte m (pixelByte j c) := fun c =>
    readByte_writePixel_other m (by rw [pixelByte_div]; exact h) v
  simp only [readPixel, hb]

theorem reset_memory_wf : Memory.wf State.reset.mem := by decide

end Sys2Proof.Laws
end

