-- ==== Sys2Proof/Laws/State.lean ====
section
/-! SUPPORT. One lemma per field per state update: what each named update leaves in each field of State. -/

namespace Sys2Proof.Laws

open Sys2Proof.Machine

variable (s : State)

/-! ### dropWrite -/

@[simp] theorem dropWrite_win : (dropWrite s).win = s.win := rfl
@[simp] theorem dropWrite_sum : (dropWrite s).sum = s.sum := rfl
@[simp] theorem dropWrite_sumOut : (dropWrite s).sumOut = s.sumOut := rfl
@[simp] theorem dropWrite_sumIn : (dropWrite s).sumIn = s.sumIn := rfl
@[simp] theorem dropWrite_div : (dropWrite s).div = s.div := rfl
@[simp] theorem dropWrite_seq : (dropWrite s).seq = s.seq := rfl
@[simp] theorem dropWrite_opc : (dropWrite s).opc = s.opc := rfl
@[simp] theorem dropWrite_status : (dropWrite s).status = { s.status with drop := true } := rfl
@[simp] theorem dropWrite_blurAlpha : (dropWrite s).blurAlpha = s.blurAlpha := rfl
@[simp] theorem dropWrite_inten : (dropWrite s).inten = s.inten := rfl
@[simp] theorem dropWrite_buflen : (dropWrite s).buflen = s.buflen := rfl
@[simp] theorem dropWrite_width : (dropWrite s).width = s.width := rfl
@[simp] theorem dropWrite_height : (dropWrite s).height = s.height := rfl
@[simp] theorem dropWrite_radius : (dropWrite s).radius = s.radius := rfl
@[simp] theorem dropWrite_errcode : (dropWrite s).errcode = s.errcode := rfl
@[simp] theorem dropWrite_errinfo : (dropWrite s).errinfo = s.errinfo := rfl
@[simp] theorem dropWrite_mem : (dropWrite s).mem = s.mem := rfl
@[simp] theorem dropWrite_backed : (dropWrite s).backed = s.backed := rfl
@[simp] theorem dropWrite_lent : (dropWrite s).lent = s.lent := rfl
@[simp] theorem dropWrite_script : (dropWrite s).script = s.script := rfl
@[simp] theorem dropWrite_hostLog : (dropWrite s).hostLog = s.hostLog := rfl
@[simp] theorem dropWrite_accesses : (dropWrite s).accesses = s.accesses := rfl
@[simp] theorem dropWrite_codec : (dropWrite s).codec = s.codec := rfl

/-! ### takeCommand -/

@[simp] theorem takeCommand_win : (takeCommand s).win = s.win := rfl
@[simp] theorem takeCommand_sum : (takeCommand s).sum = s.sum := rfl
@[simp] theorem takeCommand_sumOut : (takeCommand s).sumOut = s.sumOut := rfl
@[simp] theorem takeCommand_sumIn : (takeCommand s).sumIn = s.sumIn := rfl
@[simp] theorem takeCommand_div : (takeCommand s).div = s.div := rfl
@[simp] theorem takeCommand_seq : (takeCommand s).seq = s.seq := rfl
@[simp] theorem takeCommand_opc : (takeCommand s).opc = s.opc := rfl
@[simp] theorem takeCommand_status : (takeCommand s).status = { s.status with done := false } := rfl
@[simp] theorem takeCommand_blurAlpha : (takeCommand s).blurAlpha = s.blurAlpha := rfl
@[simp] theorem takeCommand_inten : (takeCommand s).inten = s.inten := rfl
@[simp] theorem takeCommand_buflen : (takeCommand s).buflen = s.buflen := rfl
@[simp] theorem takeCommand_width : (takeCommand s).width = s.width := rfl
@[simp] theorem takeCommand_height : (takeCommand s).height = s.height := rfl
@[simp] theorem takeCommand_radius : (takeCommand s).radius = s.radius := rfl
@[simp] theorem takeCommand_errcode : (takeCommand s).errcode = s.errcode := rfl
@[simp] theorem takeCommand_errinfo : (takeCommand s).errinfo = s.errinfo := rfl
@[simp] theorem takeCommand_mem : (takeCommand s).mem = s.mem := rfl
@[simp] theorem takeCommand_backed : (takeCommand s).backed = s.backed := rfl
@[simp] theorem takeCommand_lent : (takeCommand s).lent = s.lent := rfl
@[simp] theorem takeCommand_script : (takeCommand s).script = s.script := rfl
@[simp] theorem takeCommand_hostLog : (takeCommand s).hostLog = s.hostLog := rfl
@[simp] theorem takeCommand_accesses : (takeCommand s).accesses = s.accesses := rfl
@[simp] theorem takeCommand_codec : (takeCommand s).codec = s.codec := rfl

/-! ### clearDone -/

@[simp] theorem clearDone_win : (clearDone s).win = s.win := rfl
@[simp] theorem clearDone_sum : (clearDone s).sum = s.sum := rfl
@[simp] theorem clearDone_sumOut : (clearDone s).sumOut = s.sumOut := rfl
@[simp] theorem clearDone_sumIn : (clearDone s).sumIn = s.sumIn := rfl
@[simp] theorem clearDone_div : (clearDone s).div = s.div := rfl
@[simp] theorem clearDone_seq : (clearDone s).seq = s.seq := rfl
@[simp] theorem clearDone_opc : (clearDone s).opc = s.opc := rfl
@[simp] theorem clearDone_status : (clearDone s).status = { s.status with done := false } := rfl
@[simp] theorem clearDone_blurAlpha : (clearDone s).blurAlpha = s.blurAlpha := rfl
@[simp] theorem clearDone_inten : (clearDone s).inten = s.inten := rfl
@[simp] theorem clearDone_buflen : (clearDone s).buflen = s.buflen := rfl
@[simp] theorem clearDone_width : (clearDone s).width = s.width := rfl
@[simp] theorem clearDone_height : (clearDone s).height = s.height := rfl
@[simp] theorem clearDone_radius : (clearDone s).radius = s.radius := rfl
@[simp] theorem clearDone_errcode : (clearDone s).errcode = s.errcode := rfl
@[simp] theorem clearDone_errinfo : (clearDone s).errinfo = s.errinfo := rfl
@[simp] theorem clearDone_mem : (clearDone s).mem = s.mem := rfl
@[simp] theorem clearDone_backed : (clearDone s).backed = s.backed := rfl
@[simp] theorem clearDone_lent : (clearDone s).lent = s.lent := rfl
@[simp] theorem clearDone_script : (clearDone s).script = s.script := rfl
@[simp] theorem clearDone_hostLog : (clearDone s).hostLog = s.hostLog := rfl
@[simp] theorem clearDone_accesses : (clearDone s).accesses = s.accesses := rfl
@[simp] theorem clearDone_codec : (clearDone s).codec = s.codec := rfl

/-! ### clearError -/

@[simp] theorem clearError_win : (clearError s).win = s.win := rfl
@[simp] theorem clearError_sum : (clearError s).sum = s.sum := rfl
@[simp] theorem clearError_sumOut : (clearError s).sumOut = s.sumOut := rfl
@[simp] theorem clearError_sumIn : (clearError s).sumIn = s.sumIn := rfl
@[simp] theorem clearError_div : (clearError s).div = s.div := rfl
@[simp] theorem clearError_seq : (clearError s).seq = s.seq := rfl
@[simp] theorem clearError_opc : (clearError s).opc = s.opc := rfl
@[simp] theorem clearError_status : (clearError s).status = { s.status with err := false } := rfl
@[simp] theorem clearError_blurAlpha : (clearError s).blurAlpha = s.blurAlpha := rfl
@[simp] theorem clearError_inten : (clearError s).inten = s.inten := rfl
@[simp] theorem clearError_buflen : (clearError s).buflen = s.buflen := rfl
@[simp] theorem clearError_width : (clearError s).width = s.width := rfl
@[simp] theorem clearError_height : (clearError s).height = s.height := rfl
@[simp] theorem clearError_radius : (clearError s).radius = s.radius := rfl
@[simp] theorem clearError_errcode : (clearError s).errcode = .none := rfl
@[simp] theorem clearError_errinfo : (clearError s).errinfo = 0 := rfl
@[simp] theorem clearError_mem : (clearError s).mem = s.mem := rfl
@[simp] theorem clearError_backed : (clearError s).backed = s.backed := rfl
@[simp] theorem clearError_lent : (clearError s).lent = s.lent := rfl
@[simp] theorem clearError_script : (clearError s).script = s.script := rfl
@[simp] theorem clearError_hostLog : (clearError s).hostLog = s.hostLog := rfl
@[simp] theorem clearError_accesses : (clearError s).accesses = s.accesses := rfl
@[simp] theorem clearError_codec : (clearError s).codec = s.codec := rfl

/-! ### clearDrop -/

@[simp] theorem clearDrop_win : (clearDrop s).win = s.win := rfl
@[simp] theorem clearDrop_sum : (clearDrop s).sum = s.sum := rfl
@[simp] theorem clearDrop_sumOut : (clearDrop s).sumOut = s.sumOut := rfl
@[simp] theorem clearDrop_sumIn : (clearDrop s).sumIn = s.sumIn := rfl
@[simp] theorem clearDrop_div : (clearDrop s).div = s.div := rfl
@[simp] theorem clearDrop_seq : (clearDrop s).seq = s.seq := rfl
@[simp] theorem clearDrop_opc : (clearDrop s).opc = s.opc := rfl
@[simp] theorem clearDrop_status : (clearDrop s).status = { s.status with drop := false } := rfl
@[simp] theorem clearDrop_blurAlpha : (clearDrop s).blurAlpha = s.blurAlpha := rfl
@[simp] theorem clearDrop_inten : (clearDrop s).inten = s.inten := rfl
@[simp] theorem clearDrop_buflen : (clearDrop s).buflen = s.buflen := rfl
@[simp] theorem clearDrop_width : (clearDrop s).width = s.width := rfl
@[simp] theorem clearDrop_height : (clearDrop s).height = s.height := rfl
@[simp] theorem clearDrop_radius : (clearDrop s).radius = s.radius := rfl
@[simp] theorem clearDrop_errcode : (clearDrop s).errcode = s.errcode := rfl
@[simp] theorem clearDrop_errinfo : (clearDrop s).errinfo = s.errinfo := rfl
@[simp] theorem clearDrop_mem : (clearDrop s).mem = s.mem := rfl
@[simp] theorem clearDrop_backed : (clearDrop s).backed = s.backed := rfl
@[simp] theorem clearDrop_lent : (clearDrop s).lent = s.lent := rfl
@[simp] theorem clearDrop_script : (clearDrop s).script = s.script := rfl
@[simp] theorem clearDrop_hostLog : (clearDrop s).hostLog = s.hostLog := rfl
@[simp] theorem clearDrop_accesses : (clearDrop s).accesses = s.accesses := rfl
@[simp] theorem clearDrop_codec : (clearDrop s).codec = s.codec := rfl

/-! ### setUop -/

@[simp] theorem setUop_win (u : Uop) : (setUop u s).win = s.win := rfl
@[simp] theorem setUop_sum (u : Uop) : (setUop u s).sum = s.sum := rfl
@[simp] theorem setUop_sumOut (u : Uop) : (setUop u s).sumOut = s.sumOut := rfl
@[simp] theorem setUop_sumIn (u : Uop) : (setUop u s).sumIn = s.sumIn := rfl
@[simp] theorem setUop_div (u : Uop) : (setUop u s).div = s.div := rfl
@[simp] theorem setUop_seq (u : Uop) : (setUop u s).seq = { s.seq with uop := u } := rfl
@[simp] theorem setUop_opc (u : Uop) : (setUop u s).opc = s.opc := rfl
@[simp] theorem setUop_status (u : Uop) : (setUop u s).status = s.status := rfl
@[simp] theorem setUop_blurAlpha (u : Uop) : (setUop u s).blurAlpha = s.blurAlpha := rfl
@[simp] theorem setUop_inten (u : Uop) : (setUop u s).inten = s.inten := rfl
@[simp] theorem setUop_buflen (u : Uop) : (setUop u s).buflen = s.buflen := rfl
@[simp] theorem setUop_width (u : Uop) : (setUop u s).width = s.width := rfl
@[simp] theorem setUop_height (u : Uop) : (setUop u s).height = s.height := rfl
@[simp] theorem setUop_radius (u : Uop) : (setUop u s).radius = s.radius := rfl
@[simp] theorem setUop_errcode (u : Uop) : (setUop u s).errcode = s.errcode := rfl
@[simp] theorem setUop_errinfo (u : Uop) : (setUop u s).errinfo = s.errinfo := rfl
@[simp] theorem setUop_mem (u : Uop) : (setUop u s).mem = s.mem := rfl
@[simp] theorem setUop_backed (u : Uop) : (setUop u s).backed = s.backed := rfl
@[simp] theorem setUop_lent (u : Uop) : (setUop u s).lent = s.lent := rfl
@[simp] theorem setUop_script (u : Uop) : (setUop u s).script = s.script := rfl
@[simp] theorem setUop_hostLog (u : Uop) : (setUop u s).hostLog = s.hostLog := rfl
@[simp] theorem setUop_accesses (u : Uop) : (setUop u s).accesses = s.accesses := rfl
@[simp] theorem setUop_codec (u : Uop) : (setUop u s).codec = s.codec := rfl

/-! ### complete -/

@[simp] theorem complete_win : (complete s).win = s.win := rfl
@[simp] theorem complete_sum : (complete s).sum = s.sum := rfl
@[simp] theorem complete_sumOut : (complete s).sumOut = s.sumOut := rfl
@[simp] theorem complete_sumIn : (complete s).sumIn = s.sumIn := rfl
@[simp] theorem complete_div : (complete s).div = s.div := rfl
@[simp] theorem complete_seq : (complete s).seq = { s.seq with uop := .idle } := rfl
@[simp] theorem complete_opc : (complete s).opc = s.opc := rfl
@[simp] theorem complete_status : (complete s).status = { s.status with busy := false, done := true } := rfl
@[simp] theorem complete_blurAlpha : (complete s).blurAlpha = s.blurAlpha := rfl
@[simp] theorem complete_inten : (complete s).inten = s.inten := rfl
@[simp] theorem complete_buflen : (complete s).buflen = s.buflen := rfl
@[simp] theorem complete_width : (complete s).width = s.width := rfl
@[simp] theorem complete_height : (complete s).height = s.height := rfl
@[simp] theorem complete_radius : (complete s).radius = s.radius := rfl
@[simp] theorem complete_errcode : (complete s).errcode = s.errcode := rfl
@[simp] theorem complete_errinfo : (complete s).errinfo = s.errinfo := rfl
@[simp] theorem complete_mem : (complete s).mem = s.mem := rfl
@[simp] theorem complete_backed : (complete s).backed = s.backed := rfl
@[simp] theorem complete_lent : (complete s).lent = s.lent := rfl
@[simp] theorem complete_script : (complete s).script = s.script := rfl
@[simp] theorem complete_hostLog : (complete s).hostLog = s.hostLog := rfl
@[simp] theorem complete_accesses : (complete s).accesses = s.accesses := rfl
@[simp] theorem complete_codec : (complete s).codec = s.codec := rfl

/-! ### nextLine -/

@[simp] theorem nextLine_win : (nextLine s).win = s.win := rfl
@[simp] theorem nextLine_sum : (nextLine s).sum = s.sum := rfl
@[simp] theorem nextLine_sumOut : (nextLine s).sumOut = s.sumOut := rfl
@[simp] theorem nextLine_sumIn : (nextLine s).sumIn = s.sumIn := rfl
@[simp] theorem nextLine_div : (nextLine s).div = s.div := rfl
@[simp] theorem nextLine_seq : (nextLine s).seq = { s.seq with line := s.seq.line + 1, uop := .seed } := rfl
@[simp] theorem nextLine_opc : (nextLine s).opc = s.opc := rfl
@[simp] theorem nextLine_status : (nextLine s).status = s.status := rfl
@[simp] theorem nextLine_blurAlpha : (nextLine s).blurAlpha = s.blurAlpha := rfl
@[simp] theorem nextLine_inten : (nextLine s).inten = s.inten := rfl
@[simp] theorem nextLine_buflen : (nextLine s).buflen = s.buflen := rfl
@[simp] theorem nextLine_width : (nextLine s).width = s.width := rfl
@[simp] theorem nextLine_height : (nextLine s).height = s.height := rfl
@[simp] theorem nextLine_radius : (nextLine s).radius = s.radius := rfl
@[simp] theorem nextLine_errcode : (nextLine s).errcode = s.errcode := rfl
@[simp] theorem nextLine_errinfo : (nextLine s).errinfo = s.errinfo := rfl
@[simp] theorem nextLine_mem : (nextLine s).mem = s.mem := rfl
@[simp] theorem nextLine_backed : (nextLine s).backed = s.backed := rfl
@[simp] theorem nextLine_lent : (nextLine s).lent = s.lent := rfl
@[simp] theorem nextLine_script : (nextLine s).script = s.script := rfl
@[simp] theorem nextLine_hostLog : (nextLine s).hostLog = s.hostLog := rfl
@[simp] theorem nextLine_accesses : (nextLine s).accesses = s.accesses := rfl
@[simp] theorem nextLine_codec : (nextLine s).codec = s.codec := rfl

/-! ### nextPass -/

@[simp] theorem nextPass_win : (nextPass s).win = s.win := rfl
@[simp] theorem nextPass_sum : (nextPass s).sum = s.sum := rfl
@[simp] theorem nextPass_sumOut : (nextPass s).sumOut = s.sumOut := rfl
@[simp] theorem nextPass_sumIn : (nextPass s).sumIn = s.sumIn := rfl
@[simp] theorem nextPass_div : (nextPass s).div = s.div := rfl
@[simp] theorem nextPass_seq : (nextPass s).seq = { s.seq with pass := .v, line := 0, uop := .seed } := rfl
@[simp] theorem nextPass_opc : (nextPass s).opc = s.opc := rfl
@[simp] theorem nextPass_status : (nextPass s).status = s.status := rfl
@[simp] theorem nextPass_blurAlpha : (nextPass s).blurAlpha = s.blurAlpha := rfl
@[simp] theorem nextPass_inten : (nextPass s).inten = s.inten := rfl
@[simp] theorem nextPass_buflen : (nextPass s).buflen = s.buflen := rfl
@[simp] theorem nextPass_width : (nextPass s).width = s.width := rfl
@[simp] theorem nextPass_height : (nextPass s).height = s.height := rfl
@[simp] theorem nextPass_radius : (nextPass s).radius = s.radius := rfl
@[simp] theorem nextPass_errcode : (nextPass s).errcode = s.errcode := rfl
@[simp] theorem nextPass_errinfo : (nextPass s).errinfo = s.errinfo := rfl
@[simp] theorem nextPass_mem : (nextPass s).mem = s.mem := rfl
@[simp] theorem nextPass_backed : (nextPass s).backed = s.backed := rfl
@[simp] theorem nextPass_lent : (nextPass s).lent = s.lent := rfl
@[simp] theorem nextPass_script : (nextPass s).script = s.script := rfl
@[simp] theorem nextPass_hostLog : (nextPass s).hostLog = s.hostLog := rfl
@[simp] theorem nextPass_accesses : (nextPass s).accesses = s.accesses := rfl
@[simp] theorem nextPass_codec : (nextPass s).codec = s.codec := rfl

/-! ### raiseError -/

@[simp] theorem raiseError_win (e : ErrCode) (i : Word) : (raiseError e i s).win = s.win := rfl
@[simp] theorem raiseError_sum (e : ErrCode) (i : Word) : (raiseError e i s).sum = s.sum := rfl
@[simp] theorem raiseError_sumOut (e : ErrCode) (i : Word) : (raiseError e i s).sumOut = s.sumOut := rfl
@[simp] theorem raiseError_sumIn (e : ErrCode) (i : Word) : (raiseError e i s).sumIn = s.sumIn := rfl
@[simp] theorem raiseError_div (e : ErrCode) (i : Word) : (raiseError e i s).div = s.div := rfl
@[simp] theorem raiseError_seq (e : ErrCode) (i : Word) : (raiseError e i s).seq = s.seq := rfl
@[simp] theorem raiseError_opc (e : ErrCode) (i : Word) : (raiseError e i s).opc = s.opc := rfl
@[simp] theorem raiseError_status (e : ErrCode) (i : Word) : (raiseError e i s).status = { s.status with err := true } := rfl
@[simp] theorem raiseError_blurAlpha (e : ErrCode) (i : Word) : (raiseError e i s).blurAlpha = s.blurAlpha := rfl
@[simp] theorem raiseError_inten (e : ErrCode) (i : Word) : (raiseError e i s).inten = s.inten := rfl
@[simp] theorem raiseError_buflen (e : ErrCode) (i : Word) : (raiseError e i s).buflen = s.buflen := rfl
@[simp] theorem raiseError_width (e : ErrCode) (i : Word) : (raiseError e i s).width = s.width := rfl
@[simp] theorem raiseError_height (e : ErrCode) (i : Word) : (raiseError e i s).height = s.height := rfl
@[simp] theorem raiseError_radius (e : ErrCode) (i : Word) : (raiseError e i s).radius = s.radius := rfl
@[simp] theorem raiseError_errcode (e : ErrCode) (i : Word) : (raiseError e i s).errcode = e := rfl
@[simp] theorem raiseError_errinfo (e : ErrCode) (i : Word) : (raiseError e i s).errinfo = i := rfl
@[simp] theorem raiseError_mem (e : ErrCode) (i : Word) : (raiseError e i s).mem = s.mem := rfl
@[simp] theorem raiseError_backed (e : ErrCode) (i : Word) : (raiseError e i s).backed = s.backed := rfl
@[simp] theorem raiseError_lent (e : ErrCode) (i : Word) : (raiseError e i s).lent = s.lent := rfl
@[simp] theorem raiseError_script (e : ErrCode) (i : Word) : (raiseError e i s).script = s.script := rfl
@[simp] theorem raiseError_hostLog (e : ErrCode) (i : Word) : (raiseError e i s).hostLog = s.hostLog := rfl
@[simp] theorem raiseError_accesses (e : ErrCode) (i : Word) : (raiseError e i s).accesses = s.accesses := rfl
@[simp] theorem raiseError_codec (e : ErrCode) (i : Word) : (raiseError e i s).codec = s.codec := rfl

/-! ### startCommand -/

@[simp] theorem startCommand_win (c : Word) (p : Pass) (l : Half) : (startCommand c p l s).win = s.win := rfl
@[simp] theorem startCommand_sum (c : Word) (p : Pass) (l : Half) : (startCommand c p l s).sum = s.sum := rfl
@[simp] theorem startCommand_sumOut (c : Word) (p : Pass) (l : Half) : (startCommand c p l s).sumOut = s.sumOut := rfl
@[simp] theorem startCommand_sumIn (c : Word) (p : Pass) (l : Half) : (startCommand c p l s).sumIn = s.sumIn := rfl
@[simp] theorem startCommand_div (c : Word) (p : Pass) (l : Half) : (startCommand c p l s).div = BitVec.ofNat 16 (divisor s.radius.val) := rfl
@[simp] theorem startCommand_seq (c : Word) (p : Pass) (l : Half) : (startCommand c p l s).seq = { pass := p, line := l, pos := 0, uop := .seed } := rfl
@[simp] theorem startCommand_opc (c : Word) (p : Pass) (l : Half) : (startCommand c p l s).opc = opcodeField c := rfl
@[simp] theorem startCommand_status (c : Word) (p : Pass) (l : Half) : (startCommand c p l s).status = { s.status with busy := true } := rfl
@[simp] theorem startCommand_blurAlpha (c : Word) (p : Pass) (l : Half) : (startCommand c p l s).blurAlpha = s.blurAlpha := rfl
@[simp] theorem startCommand_inten (c : Word) (p : Pass) (l : Half) : (startCommand c p l s).inten = s.inten := rfl
@[simp] theorem startCommand_buflen (c : Word) (p : Pass) (l : Half) : (startCommand c p l s).buflen = s.buflen := rfl
@[simp] theorem startCommand_width (c : Word) (p : Pass) (l : Half) : (startCommand c p l s).width = s.width := rfl
@[simp] theorem startCommand_height (c : Word) (p : Pass) (l : Half) : (startCommand c p l s).height = s.height := rfl
@[simp] theorem startCommand_radius (c : Word) (p : Pass) (l : Half) : (startCommand c p l s).radius = s.radius := rfl
@[simp] theorem startCommand_errcode (c : Word) (p : Pass) (l : Half) : (startCommand c p l s).errcode = s.errcode := rfl
@[simp] theorem startCommand_errinfo (c : Word) (p : Pass) (l : Half) : (startCommand c p l s).errinfo = s.errinfo := rfl
@[simp] theorem startCommand_mem (c : Word) (p : Pass) (l : Half) : (startCommand c p l s).mem = s.mem := rfl
@[simp] theorem startCommand_backed (c : Word) (p : Pass) (l : Half) : (startCommand c p l s).backed = s.backed := rfl
@[simp] theorem startCommand_lent (c : Word) (p : Pass) (l : Half) : (startCommand c p l s).lent = max s.lent (gridSize s) := rfl
@[simp] theorem startCommand_script (c : Word) (p : Pass) (l : Half) : (startCommand c p l s).script = s.script := rfl
@[simp] theorem startCommand_hostLog (c : Word) (p : Pass) (l : Half) : (startCommand c p l s).hostLog = s.hostLog := rfl
@[simp] theorem startCommand_accesses (c : Word) (p : Pass) (l : Half) : (startCommand c p l s).accesses = s.accesses := rfl
@[simp] theorem startCommand_codec (c : Word) (p : Pass) (l : Half) : (startCommand c p l s).codec = s.codec := rfl

/-! ### enginePixelWrite -/

@[simp] theorem enginePixelWrite_win (k : Nat) (v : Word) : (enginePixelWrite k v s).win = s.win := rfl
@[simp] theorem enginePixelWrite_sum (k : Nat) (v : Word) : (enginePixelWrite k v s).sum = s.sum := rfl
@[simp] theorem enginePixelWrite_sumOut (k : Nat) (v : Word) : (enginePixelWrite k v s).sumOut = s.sumOut := rfl
@[simp] theorem enginePixelWrite_sumIn (k : Nat) (v : Word) : (enginePixelWrite k v s).sumIn = s.sumIn := rfl
@[simp] theorem enginePixelWrite_div (k : Nat) (v : Word) : (enginePixelWrite k v s).div = s.div := rfl
@[simp] theorem enginePixelWrite_seq (k : Nat) (v : Word) : (enginePixelWrite k v s).seq = s.seq := rfl
@[simp] theorem enginePixelWrite_opc (k : Nat) (v : Word) : (enginePixelWrite k v s).opc = s.opc := rfl
@[simp] theorem enginePixelWrite_status (k : Nat) (v : Word) : (enginePixelWrite k v s).status = s.status := rfl
@[simp] theorem enginePixelWrite_blurAlpha (k : Nat) (v : Word) : (enginePixelWrite k v s).blurAlpha = s.blurAlpha := rfl
@[simp] theorem enginePixelWrite_inten (k : Nat) (v : Word) : (enginePixelWrite k v s).inten = s.inten := rfl
@[simp] theorem enginePixelWrite_buflen (k : Nat) (v : Word) : (enginePixelWrite k v s).buflen = s.buflen := rfl
@[simp] theorem enginePixelWrite_width (k : Nat) (v : Word) : (enginePixelWrite k v s).width = s.width := rfl
@[simp] theorem enginePixelWrite_height (k : Nat) (v : Word) : (enginePixelWrite k v s).height = s.height := rfl
@[simp] theorem enginePixelWrite_radius (k : Nat) (v : Word) : (enginePixelWrite k v s).radius = s.radius := rfl
@[simp] theorem enginePixelWrite_errcode (k : Nat) (v : Word) : (enginePixelWrite k v s).errcode = s.errcode := rfl
@[simp] theorem enginePixelWrite_errinfo (k : Nat) (v : Word) : (enginePixelWrite k v s).errinfo = s.errinfo := rfl
@[simp] theorem enginePixelWrite_mem (k : Nat) (v : Word) : (enginePixelWrite k v s).mem = writePixel s.mem (lineIndex s k) v := rfl
@[simp] theorem enginePixelWrite_backed (k : Nat) (v : Word) : (enginePixelWrite k v s).backed = s.backed := rfl
@[simp] theorem enginePixelWrite_lent (k : Nat) (v : Word) : (enginePixelWrite k v s).lent = s.lent := rfl
@[simp] theorem enginePixelWrite_script (k : Nat) (v : Word) : (enginePixelWrite k v s).script = s.script := rfl
@[simp] theorem enginePixelWrite_hostLog (k : Nat) (v : Word) : (enginePixelWrite k v s).hostLog = s.hostLog := rfl
@[simp] theorem enginePixelWrite_accesses (k : Nat) (v : Word) : (enginePixelWrite k v s).accesses = s.accesses ++ [.write (lineIndex s k) v] := rfl
@[simp] theorem enginePixelWrite_codec (k : Nat) (v : Word) : (enginePixelWrite k v s).codec = s.codec := rfl

/-! ### logHost -/

@[simp] theorem logHost_win (t : Transaction) : (logHost t s).win = s.win := rfl
@[simp] theorem logHost_sum (t : Transaction) : (logHost t s).sum = s.sum := rfl
@[simp] theorem logHost_sumOut (t : Transaction) : (logHost t s).sumOut = s.sumOut := rfl
@[simp] theorem logHost_sumIn (t : Transaction) : (logHost t s).sumIn = s.sumIn := rfl
@[simp] theorem logHost_div (t : Transaction) : (logHost t s).div = s.div := rfl
@[simp] theorem logHost_seq (t : Transaction) : (logHost t s).seq = s.seq := rfl
@[simp] theorem logHost_opc (t : Transaction) : (logHost t s).opc = s.opc := rfl
@[simp] theorem logHost_status (t : Transaction) : (logHost t s).status = s.status := rfl
@[simp] theorem logHost_blurAlpha (t : Transaction) : (logHost t s).blurAlpha = s.blurAlpha := rfl
@[simp] theorem logHost_inten (t : Transaction) : (logHost t s).inten = s.inten := rfl
@[simp] theorem logHost_buflen (t : Transaction) : (logHost t s).buflen = s.buflen := rfl
@[simp] theorem logHost_width (t : Transaction) : (logHost t s).width = s.width := rfl
@[simp] theorem logHost_height (t : Transaction) : (logHost t s).height = s.height := rfl
@[simp] theorem logHost_radius (t : Transaction) : (logHost t s).radius = s.radius := rfl
@[simp] theorem logHost_errcode (t : Transaction) : (logHost t s).errcode = s.errcode := rfl
@[simp] theorem logHost_errinfo (t : Transaction) : (logHost t s).errinfo = s.errinfo := rfl
@[simp] theorem logHost_mem (t : Transaction) : (logHost t s).mem = s.mem := rfl
@[simp] theorem logHost_backed (t : Transaction) : (logHost t s).backed = s.backed := rfl
@[simp] theorem logHost_lent (t : Transaction) : (logHost t s).lent = s.lent := rfl
@[simp] theorem logHost_script (t : Transaction) : (logHost t s).script = s.script := rfl
@[simp] theorem logHost_hostLog (t : Transaction) : (logHost t s).hostLog = s.hostLog ++ [t] := rfl
@[simp] theorem logHost_accesses (t : Transaction) : (logHost t s).accesses = s.accesses := rfl
@[simp] theorem logHost_codec (t : Transaction) : (logHost t s).codec = s.codec := rfl

/-! ### first -/

@[simp] theorem first_win (e : Event) : (first e s).win = s.win := rfl
@[simp] theorem first_sum (e : Event) : (first e s).sum = s.sum := rfl
@[simp] theorem first_sumOut (e : Event) : (first e s).sumOut = s.sumOut := rfl
@[simp] theorem first_sumIn (e : Event) : (first e s).sumIn = s.sumIn := rfl
@[simp] theorem first_div (e : Event) : (first e s).div = s.div := rfl
@[simp] theorem first_seq (e : Event) : (first e s).seq = s.seq := rfl
@[simp] theorem first_opc (e : Event) : (first e s).opc = s.opc := rfl
@[simp] theorem first_status (e : Event) : (first e s).status = s.status := rfl
@[simp] theorem first_blurAlpha (e : Event) : (first e s).blurAlpha = s.blurAlpha := rfl
@[simp] theorem first_inten (e : Event) : (first e s).inten = s.inten := rfl
@[simp] theorem first_buflen (e : Event) : (first e s).buflen = s.buflen := rfl
@[simp] theorem first_width (e : Event) : (first e s).width = s.width := rfl
@[simp] theorem first_height (e : Event) : (first e s).height = s.height := rfl
@[simp] theorem first_radius (e : Event) : (first e s).radius = s.radius := rfl
@[simp] theorem first_errcode (e : Event) : (first e s).errcode = s.errcode := rfl
@[simp] theorem first_errinfo (e : Event) : (first e s).errinfo = s.errinfo := rfl
@[simp] theorem first_mem (e : Event) : (first e s).mem = s.mem := rfl
@[simp] theorem first_backed (e : Event) : (first e s).backed = s.backed := rfl
@[simp] theorem first_lent (e : Event) : (first e s).lent = s.lent := rfl
@[simp] theorem first_script (e : Event) : (first e s).script = e :: s.script := rfl
@[simp] theorem first_hostLog (e : Event) : (first e s).hostLog = s.hostLog := rfl
@[simp] theorem first_accesses (e : Event) : (first e s).accesses = s.accesses := rfl
@[simp] theorem first_codec (e : Event) : (first e s).codec = s.codec := rfl

/-! ### resetBlock -/

@[simp] theorem resetBlock_win : (resetBlock s).win = State.reset.win := rfl
@[simp] theorem resetBlock_sum : (resetBlock s).sum = State.reset.sum := rfl
@[simp] theorem resetBlock_sumOut : (resetBlock s).sumOut = State.reset.sumOut := rfl
@[simp] theorem resetBlock_sumIn : (resetBlock s).sumIn = State.reset.sumIn := rfl
@[simp] theorem resetBlock_div : (resetBlock s).div = State.reset.div := rfl
@[simp] theorem resetBlock_seq : (resetBlock s).seq = State.reset.seq := rfl
@[simp] theorem resetBlock_opc : (resetBlock s).opc = State.reset.opc := rfl
@[simp] theorem resetBlock_status : (resetBlock s).status = State.reset.status := rfl
@[simp] theorem resetBlock_blurAlpha : (resetBlock s).blurAlpha = State.reset.blurAlpha := rfl
@[simp] theorem resetBlock_inten : (resetBlock s).inten = State.reset.inten := rfl
@[simp] theorem resetBlock_buflen : (resetBlock s).buflen = State.reset.buflen := rfl
@[simp] theorem resetBlock_width : (resetBlock s).width = State.reset.width := rfl
@[simp] theorem resetBlock_height : (resetBlock s).height = State.reset.height := rfl
@[simp] theorem resetBlock_radius : (resetBlock s).radius = State.reset.radius := rfl
@[simp] theorem resetBlock_errcode : (resetBlock s).errcode = State.reset.errcode := rfl
@[simp] theorem resetBlock_errinfo : (resetBlock s).errinfo = State.reset.errinfo := rfl
@[simp] theorem resetBlock_mem : (resetBlock s).mem = s.mem := rfl
@[simp] theorem resetBlock_backed : (resetBlock s).backed = s.backed := rfl
@[simp] theorem resetBlock_lent : (resetBlock s).lent = s.lent := rfl
@[simp] theorem resetBlock_script : (resetBlock s).script = s.script := rfl
@[simp] theorem resetBlock_hostLog : (resetBlock s).hostLog = s.hostLog := rfl
@[simp] theorem resetBlock_accesses : (resetBlock s).accesses = s.accesses := rfl
@[simp] theorem resetBlock_codec : (resetBlock s).codec = s.codec := rfl

end Sys2Proof.Laws
end

