-- ==== Sys2Proof/Laws/Ops.lean ====
section
/-! SUPPORT. What each shared operation can do, once: the sequencer's updates, command acceptance, register writes, the
host's pixel accesses and the three micro-operations. Later proofs cite these and do not unfold the operations. -/

namespace Sys2Proof.Laws

open Sys2Proof.Machine Sys2Proof.Safety

/-- LINE_END ends in one of three ways (R88). -/
theorem lineEnd_cases (s : State) :
    (lineEnd s = complete s) ∨
    (lineEnd s = nextLine s ∧ s.opc ≠ opcHline ∧ s.opc ≠ opcVline ∧ s.seq.line.toNat + 1 < passLines s) ∨
    (lineEnd s = nextPass s ∧ s.opc = opcBlur ∧ s.seq.pass = .h ∧ passLines s ≤ s.seq.line.toNat + 1) := by
  unfold lineEnd
  by_cases h1 : s.opc = opcHline ∨ s.opc = opcVline
  · exact .inl (by rw [if_pos h1])
  · rw [if_neg h1]
    by_cases h2 : s.seq.line.toNat + 1 < passLines s
    · exact .inr (.inl ⟨by rw [if_pos h2], fun h => h1 (.inl h), fun h => h1 (.inr h), h2⟩)
    · rw [if_neg h2]
      by_cases h3 : s.opc = opcBlur ∧ s.seq.pass = .h
      · exact .inr (.inr ⟨by rw [if_pos h3], h3.1, h3.2, by omega⟩)
      · exact .inl (by rw [if_neg h3])

/-- After an EMIT: an ADVANCE when the line goes on, LINE_END otherwise (R88). -/
theorem afterEmit_cases (s : State) :
    (afterEmit s = setUop .advance s ∧ s.seq.pos.toNat + 1 < lineLen s) ∨
    (afterEmit s = lineEnd s ∧ lineLen s ≤ s.seq.pos.toNat + 1) := by
  unfold afterEmit
  by_cases h : s.seq.pos.toNat + 1 < lineLen s
  · exact .inl ⟨if_pos h, h⟩
  · exact .inr ⟨if_neg h, by omega⟩

/-- After an EMIT only SEQ and STATUS may differ. -/
theorem afterEmit_frame (s : State) :
    afterEmit s = { s with seq := (afterEmit s).seq, status := (afterEmit s).status } := by
  rcases afterEmit_cases s with ⟨h, -⟩ | ⟨h, -⟩
  · rw [h]; rfl
  · rw [h]
    rcases lineEnd_cases s with h | ⟨h, -⟩ | ⟨h, -⟩ <;> rw [h] <;> rfl

/-- Acceptance drops, fails or starts (R106). -/
theorem acceptCommand_cases (c : Word) (f : Option (ErrCode × Word)) (p : Pass) (l : Half) (s : State) :
    ((s.status.busy = true ∨ s.status.err = true) ∧ acceptCommand c f p l s = dropWrite s) ∨
    (s.status.busy = false ∧ s.status.err = false ∧
      ∃ e info, f = some (e, info) ∧ acceptCommand c f p l s = raiseError e info (takeCommand s)) ∨
    (s.status.busy = false ∧ s.status.err = false ∧ f = none ∧
      acceptCommand c f p l s = startCommand c p l (takeCommand s)) := by
  unfold acceptCommand
  cases hb : s.status.busy <;> cases he : s.status.err <;> simp
  cases f with
  | none => simp
  | some x => exact .inl ⟨x.1, x.2, rfl, rfl⟩

/-- The grid checks pass exactly for a legal configuration (R120, checks 2 to 4). -/
theorem gridFault_none_iff (s : State) : gridFault s = none ↔ GridLegal s := by
  have hw : s.width = 0 ↔ s.width.toNat = 0 := by simp [BitVec.toNat_eq]
  have hh : s.height = 0 ↔ s.height.toNat = 0 := by simp [BitVec.toNat_eq]
  have hr : s.radius = 0 ↔ s.radius.val = 0 := ⟨fun h => by rw [h]; rfl, fun h => Fin.ext h⟩
  unfold gridFault gridSize
  simp only [hw, hh, hr]
  constructor
  · intro h
    split at h
    · cases h
    · split at h
      · cases h
      · split at h
        · cases h
        · exact ⟨by omega, by omega, by omega, by omega⟩
  · rintro ⟨h1, h2, h3, h4⟩
    rw [if_neg (by omega), if_neg (by omega), if_neg (by omega)]

/-- A failing grid check records an error. -/
theorem gridFault_some_ne_none {s : State} {e : ErrCode} {i : Word} (h : gridFault s = some (e, i)) :
    e ≠ .none := by
  unfold gridFault at h
  split at h
  · cases h; decide
  · split at h
    · cases h; decide
    · split at h
      · cases h; decide
      · cases h

theorem lineFault_none_iff (c : Word) (k : Nat) (b : Half) (s : State) :
    lineFault c k b s = none ↔ GridLegal s ∧ k < b.toNat := by
  unfold lineFault
  cases hg : gridFault s with
  | some f =>
    have : ¬ GridLegal s := fun h => by rw [(gridFault_none_iff s).mpr h] at hg; cases hg
    simp [this]
  | none => simp [(gridFault_none_iff s).mp hg]

theorem lineFault_some_ne_none {c : Word} {k : Nat} {b : Half} {s : State} {e : ErrCode} {i : Word}
    (h : lineFault c k b s = some (e, i)) : e ≠ .none := by
  unfold lineFault at h
  cases hg : gridFault s with
  | some f => simp only [hg, Option.some.injEq] at h; subst h; exact gridFault_some_ne_none hg
  | none =>
    simp only [hg] at h
    split at h
    · cases h; decide
    · cases h

/-- A host pixel access happens, or stops with the reason that forbids it. -/
theorem hostPixel_next {i : Word} {s t : State} {k : State → State} (h : hostPixel i s k = .next t) :
    i.toNat < s.backed ∧ s.lent ≤ i.toNat ∧ t = k s := by
  unfold hostPixel at h
  split at h
  · cases h
  · split at h
    · cases h
    · cases h
      exact ⟨by omega, by omega, rfl⟩

/-! ### The micro-operations -/

/-- What SEED answers when it answers a state. -/
def seeded (s : State) : State :=
  { s with
    win := writeWindow s (seedWindow s)
    sum := Lanes.ofFn fun c => BitVec.ofNat 32 (windowSum s.radius.val (seedWindow s) c)
    sumOut := Lanes.ofFn fun c => BitVec.ofNat 32 (windowSumOut s.radius.val (seedWindow s) c)
    sumIn := Lanes.ofFn fun c => BitVec.ofNat 32 (windowSumIn s.radius.val (seedWindow s) c)
    seq := { s.seq with pos := 0, uop := .emit }
    accesses := s.accesses ++ (List.range (seedLast s + 1)).map fun k => .read (lineIndex s k) }

/-- What EMIT answers when it answers a state. -/
def emitted (s : State) : State := afterEmit (enginePixelWrite s.seq.pos.toNat (emitPixel s) s)

/-- What ADVANCE answers when it answers a state. -/
def advanced (s : State) : State :=
  { s with
    win := writeWindow s (shiftedWindow s (linePixel s (advancePos s)))
    sum := Lanes.ofFn fun c =>
      s.sum.get c - s.sumOut.get c + s.sumIn.get c + (unpackPixel (linePixel s (advancePos s))).get c
    sumOut := Lanes.ofFn fun c =>
      s.sumOut.get c - (unpackPixel (winAt s 0)).get c + (unpackPixel (winAt s (s.radius.val + 1))).get c
    sumIn := Lanes.ofFn fun c =>
      s.sumIn.get c - (unpackPixel (winAt s (s.radius.val + 1))).get c +
        (unpackPixel (linePixel s (advancePos s))).get c
    seq := { s.seq with pos := s.seq.pos + 1, uop := .emit }
    accesses := s.accesses ++ [.read (lineIndex s (advancePos s))] }

theorem execSeed_of_backed {s : State} (h : ∀ k ≤ seedLast s, lineIndex s k < s.backed) :
    execSeed s = .next (seeded s) :=
  if_pos ((positionsBacked_iff s _).mpr fun k hk => h k (by simpa [Nat.lt_succ_iff] using hk))

theorem execEmit_of_backed {s : State} (h : lineIndex s s.seq.pos.toNat < s.backed) :
    execEmit s = .next (emitted s) :=
  if_pos ((positionsBacked_iff s _).mpr (by simpa using h))

theorem execAdvance_of_backed {s : State} (h : lineIndex s (advancePos s) < s.backed) :
    execAdvance s = .next (advanced s) :=
  if_pos ((positionsBacked_iff s _).mpr (by simpa using h))

theorem execSeed_next {s t : State} (h : execSeed s = .next t) :
    (∀ k ≤ seedLast s, lineIndex s k < s.backed) ∧ t = seeded s := by
  unfold execSeed at h
  split at h
  · rename_i hb
    cases h
    exact ⟨fun k hk => (positionsBacked_iff s _).mp hb k (by simpa [Nat.lt_succ_iff] using hk), rfl⟩
  · cases h

theorem execEmit_next {s t : State} (h : execEmit s = .next t) :
    lineIndex s s.seq.pos.toNat < s.backed ∧ t = emitted s := by
  unfold execEmit at h
  split at h
  · rename_i hb
    cases h
    exact ⟨(positionsBacked_iff s _).mp hb _ (by simp), rfl⟩
  · cases h

theorem execAdvance_next {s t : State} (h : execAdvance s = .next t) :
    lineIndex s (advancePos s) < s.backed ∧ t = advanced s := by
  unfold execAdvance at h
  split at h
  · rename_i hb
    cases h
    exact ⟨(positionsBacked_iff s _).mp hb _ (by simp), rfl⟩
  · cases h

theorem winAt_seeded (s : State) (i : Nat) :
    winAt (seeded s) i = if i ≤ 2 * s.radius.val then seedWindow s i else winAt s i :=
  getD_writeWindow s _ i

theorem winAt_advanced (s : State) (i : Nat) :
    winAt (advanced s) i =
      if i ≤ 2 * s.radius.val then shiftedWindow s (linePixel s (advancePos s)) i else winAt s i :=
  getD_writeWindow s _ i

/-- EMIT stores one pixel, at the current position. -/
theorem emitted_mem (s : State) :
    (emitted s).mem = writePixel s.mem (lineIndex s s.seq.pos.toNat) (emitPixel s) := by
  unfold emitted
  rw [afterEmit_frame]
  rfl

/-- EMIT makes one access. -/
theorem emitted_accesses (s : State) :
    (emitted s).accesses = s.accesses ++ [.write (lineIndex s s.seq.pos.toNat) (emitPixel s)] := by
  unfold emitted
  rw [afterEmit_frame]
  rfl

/-- What an EMIT may change. -/
theorem emitted_frame (s : State) :
    emitted s = { s with mem := (emitted s).mem, accesses := (emitted s).accesses, seq := (emitted s).seq,
                         status := (emitted s).status } := by
  unfold emitted
  rw [afterEmit_frame]
  rfl

/-- An EMIT leaves STATUS alone, or completes the command; it never touches ERR. -/
theorem emitted_status (s : State) :
    ((emitted s).status = s.status ∨ ((emitted s).status.busy = false ∧ (emitted s).status.done = true)) ∧
      (emitted s).status.err = s.status.err := by
  unfold emitted
  rcases afterEmit_cases (enginePixelWrite s.seq.pos.toNat (emitPixel s) s) with ⟨h, -⟩ | ⟨h, -⟩
  · rw [h]
    exact ⟨.inl rfl, rfl⟩
  · rw [h]
    rcases lineEnd_cases (enginePixelWrite s.seq.pos.toNat (emitPixel s) s) with h | ⟨h, -⟩ | ⟨h, -⟩ <;> rw [h] <;>
      simp [complete, nextLine, nextPass]

/-! ### The register port -/

/-- A write to STATUS, whole (R105). -/
theorem writeStatus_eq (v : Word) (s : State) :
    writeStatus v s = { s with
      status := { busy := s.status.busy, done := s.status.done && !v.getLsbD 1, err := s.status.err && !v.getLsbD 2,
                  drop := s.status.drop && !v.getLsbD 3 }
      errcode := if v.getLsbD 2 then .none else s.errcode
      errinfo := if v.getLsbD 2 then 0 else s.errinfo } := by
  unfold writeStatus
  cases v.getLsbD 1 <;> cases v.getLsbD 2 <;> cases v.getLsbD 3 <;> simp [clearDone, clearError, clearDrop]

/-- A configuration write happens, or is dropped (R104). -/
theorem writeConfig_cases (f : State → State) (s : State) :
    (s.status.busy = true ∧ writeConfig f s = dropWrite s) ∨ (s.status.busy = false ∧ writeConfig f s = f s) := by
  unfold writeConfig
  cases s.status.busy <;> simp

/-- RADIUS keeps the smaller of the value and 254 (R23). -/
theorem clampRadius_val (v : Word) : (clampRadius v).val = min v.toNat 254 := by
  simp only [clampRadius, Config.rMax, Fin.ofNat]
  omega

/-- A read of a register hands the buffer back or changes nothing (R41 (b), R102). -/
theorem handBack_cases (n : BitVec 4) (s : State) :
    (n = 1 ∧ s.status.busy = false ∧ handBack n s = { s with lent := 0 }) ∨ handBack n s = s := by
  unfold handBack
  split
  · rename_i h
    exact .inl ⟨h.1, h.2, rfl⟩
  · exact .inr rfl

/-- What a register write can change: the host registers; BUSY never; the configuration not while a command runs; a
recorded error only by W1C of STATUS.ERR (R103 to R105, R126). -/
theorem writeRegister_frame (n : BitVec 4) (v : Word) (s : State) :
    ∃ st ba it bl w h r ec ei,
      writeRegister n v s = { s with status := st, blurAlpha := ba, inten := it, buflen := bl, width := w, height := h,
                                     radius := r, errcode := ec, errinfo := ei } ∧
      st.busy = s.status.busy ∧
      (s.status.busy = true → ba = s.blurAlpha ∧ bl = s.buflen ∧ w = s.width ∧ h = s.height ∧ r = s.radius) ∧
      (s.status.err = true → (n = 1 ∧ v.getLsbD 2 = true) ∨ (st.err = true ∧ ec = s.errcode ∧ ei = s.errinfo)) := by
  have keep : ∀ x : State, s.status.busy = false ∨ x = s → (s.status.busy = true →
      x.blurAlpha = s.blurAlpha ∧ x.buflen = s.buflen ∧ x.width = s.width ∧ x.height = s.height ∧
        x.radius = s.radius) := by
    rintro x (h | rfl) hb
    · rw [h] at hb; cases hb
    · exact ⟨rfl, rfl, rfl, rfl, rfl⟩
  unfold writeRegister
  split
  · rename_i hn
    rw [writeStatus_eq]
    refine ⟨_, _, _, _, _, _, _, _, _, rfl, rfl, keep s (.inr rfl), fun he => ?_⟩
    cases h2 : v.getLsbD 2
    · exact .inr (by simp [he])
    · exact .inl ⟨BitVec.eq_of_toNat_eq hn, rfl⟩
  · rcases writeConfig_cases (fun s => { s with blurAlpha := v.getLsbD 0 }) s with ⟨-, e⟩ | ⟨h, e⟩ <;> rw [e]
    · exact ⟨_, _, _, _, _, _, _, _, _, rfl, rfl, keep s (.inr rfl), fun he => .inr ⟨he, rfl, rfl⟩⟩
    · exact ⟨_, _, _, _, _, _, _, _, _, rfl, rfl, keep { s with blurAlpha := v.getLsbD 0 } (.inl h),
        fun he => .inr ⟨he, rfl, rfl⟩⟩
  · exact ⟨_, _, _, _, _, _, _, _, _, rfl, rfl, keep s (.inr rfl), fun he => .inr ⟨he, rfl, rfl⟩⟩
  · rcases writeConfig_cases (fun s => { s with buflen := v }) s with ⟨-, e⟩ | ⟨h, e⟩ <;> rw [e]
    · exact ⟨_, _, _, _, _, _, _, _, _, rfl, rfl, keep s (.inr rfl), fun he => .inr ⟨he, rfl, rfl⟩⟩
    · exact ⟨_, _, _, _, _, _, _, _, _, rfl, rfl, keep { s with buflen := v } (.inl h), fun he => .inr ⟨he, rfl, rfl⟩⟩
  · rcases writeConfig_cases (fun s => { s with width := v.extractLsb' 0 16 }) s with ⟨-, e⟩ | ⟨h, e⟩ <;> rw [e]
    · exact ⟨_, _, _, _, _, _, _, _, _, rfl, rfl, keep s (.inr rfl), fun he => .inr ⟨he, rfl, rfl⟩⟩
    · exact ⟨_, _, _, _, _, _, _, _, _, rfl, rfl, keep { s with width := v.extractLsb' 0 16 } (.inl h),
        fun he => .inr ⟨he, rfl, rfl⟩⟩
  · rcases writeConfig_cases (fun s => { s with height := v.extractLsb' 0 16 }) s with ⟨-, e⟩ | ⟨h, e⟩ <;> rw [e]
    · exact ⟨_, _, _, _, _, _, _, _, _, rfl, rfl, keep s (.inr rfl), fun he => .inr ⟨he, rfl, rfl⟩⟩
    · exact ⟨_, _, _, _, _, _, _, _, _, rfl, rfl, keep { s with height := v.extractLsb' 0 16 } (.inl h),
        fun he => .inr ⟨he, rfl, rfl⟩⟩
  · rcases writeConfig_cases (fun s => { s with radius := clampRadius v }) s with ⟨-, e⟩ | ⟨h, e⟩ <;> rw [e]
    · exact ⟨_, _, _, _, _, _, _, _, _, rfl, rfl, keep s (.inr rfl), fun he => .inr ⟨he, rfl, rfl⟩⟩
    · exact ⟨_, _, _, _, _, _, _, _, _, rfl, rfl, keep { s with radius := clampRadius v } (.inl h),
        fun he => .inr ⟨he, rfl, rfl⟩⟩
  · exact ⟨_, _, _, _, _, _, _, _, _, rfl, rfl, keep s (.inr rfl), fun he => .inr ⟨he, rfl, rfl⟩⟩

end Sys2Proof.Laws
end

