-- ==== Sys2Proof/Laws/Step.lean ====
section
/-! SUPPORT. Everything a step can do: one case per kind of turn. Invariant proofs start here. -/

namespace Sys2Proof.Laws

open Sys2Proof.Machine Sys2Proof.Safety

/-- The state the turn starts from: the event that happens is no longer pending. -/
def popped (s : State) : State := { s with script := s.script.tail }

/-- A command word's acceptance, seen from the outside: which lines it would start on, and what its start needs. -/
structure CommandForm (c : Word) (f : Option (ErrCode × Word)) (p : Pass) (l : Half) (s : State) : Prop where
  legal : f = none → GridLegal s
  line : f = none → l.toNat < (match p with | .h => s.height.toNat | .v => s.width.toNat)
  opcode : f = none → opcodeField c = 0x01 ∨ opcodeField c = 0x02 ∨ opcodeField c = 0x03 ∨ opcodeField c = 0x04 ∨
    opcodeField c = 0x05
  rows : f = none → opcodeField c = 0x02 ∨ opcodeField c = 0x04 → p = .h
  columns : f = none → opcodeField c = 0x03 ∨ opcodeField c = 0x05 → p = .v
  recorded : ∀ e i, f = some (e, i) → e ≠ .none

/-- What one turn did. -/
inductive Turn (s : State) : State → Prop where
  /-- The engine had its turn and no step (R109). -/
  | idle : (s.script = [] ∨ s.script.head? = some .engine) → (s.status.busy = false ∨ s.seq.uop = .idle) →
      Turn s (popped s)
  | seed : (s.script = [] ∨ s.script.head? = some .engine) → s.status.busy = true → s.seq.uop = .seed →
      (∀ k ≤ seedLast s, lineIndex s k < s.backed) → Turn s (seeded (popped s))
  | emit : (s.script = [] ∨ s.script.head? = some .engine) → s.status.busy = true → s.seq.uop = .emit →
      lineIndex s s.seq.pos.toNat < s.backed → Turn s (emitted (popped s))
  | advance : (s.script = [] ∨ s.script.head? = some .engine) → s.status.busy = true → s.seq.uop = .advance →
      lineIndex s (advancePos s) < s.backed → Turn s (advanced (popped s))
  | regRead (n : BitVec 4) : s.script.head? = some (.regRead n) → Turn s (hostRegRead n (popped s))
  | regWrite (n : BitVec 4) (v : Word) : s.script.head? = some (.regWrite n v) → n ≠ 0 →
      Turn s (writeRegister n v (logHost (.regWrite n v) (popped s)))
  | command (c : Word) (f : Option (ErrCode × Word)) (p : Pass) (l : Half) :
      s.script.head? = some (.regWrite 0 c) → CommandForm c f p l s →
      Turn s (acceptCommand c f p l (logHost (.regWrite 0 c) (popped s)))
  | pixRead (i : Word) : s.script.head? = some (.pixRead i) → i.toNat < s.backed → s.lent ≤ i.toNat →
      Turn s (logHost (.pixRead i (readPixel s.mem i.toNat)) (popped s))
  | pixWrite (i v : Word) : s.script.head? = some (.pixWrite i v) → i.toNat < s.backed → s.lent ≤ i.toNat →
      Turn s (logHost (.pixWrite i v) { popped s with mem := writePixel s.mem i.toNat v })
  | rst : s.script.head? = some .rst → Turn s (resetBlock (popped s))
  /-- A codec function was evaluated. -/
  | codec (k : Codec) : (∃ p c, s.script.head? = some (.codecSelect p c)) ∨ (∃ p, s.script.head? = some (.codecUnpack p)) ∨
      (∃ w, s.script.head? = some (.codecPack w)) → Turn s { popped s with codec := k }

/-- A legal grid has a first row and a first column. -/
theorem first_line_lt {s : State} (h : GridLegal s) (p : Pass) :
    ((0 : Half)).toNat < (match p with | .h => s.height.toNat | .v => s.width.toNat) := by
  cases p
  · exact h.height
  · exact h.width

theorem commandForm_grid {c : Word} {p : Pass} {s : State}
    (ho : opcodeField c = 0x01 ∨ opcodeField c = 0x02 ∨ opcodeField c = 0x03)
    (hr : opcodeField c = 0x02 → p = .h) (hc : opcodeField c = 0x03 → p = .v) :
    CommandForm c (gridFault s) p 0 s where
  legal h := (gridFault_none_iff s).mp h
  line h := first_line_lt ((gridFault_none_iff s).mp h) p
  opcode _ := by rcases ho with h | h | h <;> simp [h]
  rows _ := by rcases ho with h | h | h <;> simp_all
  columns _ := by rcases ho with h | h | h <;> simp_all
  recorded _ _ h := gridFault_some_ne_none h

/-- A command instruction, run, is the acceptance of the word it was decoded from. -/
theorem exec_command {c : Word} {i : Instr} (h : decodeCmd c = .ok i) (s : State) :
    ∃ f p l, exec i s = .next (acceptCommand c f p l s) ∧ CommandForm c f p l s := by
  obtain ⟨hz, h⟩ := decodeCmd_ok h
  have hword : ∀ o a, opcodeField c = o → argField c = a → c = o ++ (0 : Byte) ++ a := by
    intro o a ho ha
    rw [← ho, ← ha, ← hz]
    exact word_of_fields c
  rcases h with ⟨rfl, ho, ha⟩ | ⟨rfl, ho, ha⟩ | ⟨rfl, ho, ha⟩ | ⟨rfl, ho⟩ | ⟨rfl, ho⟩
  · obtain rfl : c = encode .blur := hword _ _ ho ha
    exact ⟨_, _, _, rfl, commandForm_grid (.inl ho) (fun _ => rfl) (fun h => absurd h (by decide))⟩
  · obtain rfl : c = encode .hpass := hword _ _ ho ha
    exact ⟨_, _, _, rfl, commandForm_grid (.inr (.inl ho)) (fun _ => rfl) (fun h => absurd h (by decide))⟩
  · obtain rfl : c = encode .vpass := hword _ _ ho ha
    exact ⟨_, _, _, rfl, commandForm_grid (.inr (.inr ho)) (fun h => absurd h (by decide)) (fun _ => rfl)⟩
  · have hw : encode (.hline (argField c).toNat) = c := lineWord_of_fields hz ho
    refine ⟨_, _, _, by show execHline _ s = _; rw [execHline, hw], ?_⟩
    exact
      { legal := fun h => ((lineFault_none_iff ..).mp h).1
        line := fun h => by simpa using ((lineFault_none_iff ..).mp h).2
        opcode := fun _ => by simp [ho]
        rows := fun _ _ => rfl
        columns := fun _ h => by rw [ho] at h; exact absurd h (by decide)
        recorded := fun _ _ h => lineFault_some_ne_none h }
  · have hw : encode (.vline (argField c).toNat) = c := lineWord_of_fields hz ho
    refine ⟨_, _, _, by show execVline _ s = _; rw [execVline, hw], ?_⟩
    exact
      { legal := fun h => ((lineFault_none_iff ..).mp h).1
        line := fun h => by simpa using ((lineFault_none_iff ..).mp h).2
        opcode := fun _ => by simp [ho]
        rows := fun _ h => by rw [ho] at h; exact absurd h (by decide)
        columns := fun _ _ => rfl
        recorded := fun _ _ h => lineFault_some_ne_none h }

/-- What a command needs of the state is not changed by logging or by taking the event off the script. -/
theorem CommandForm.congr {c : Word} {f : Option (ErrCode × Word)} {p : Pass} {l : Half} {s t : State}
    (h : CommandForm c f p l s) (hw : t.width = s.width) (hh : t.height = s.height) (hr : t.radius = s.radius)
    (hb : t.buflen = s.buflen) : CommandForm c f p l t where
  legal hf := by
    obtain ⟨h1, h2, h3, h4⟩ := h.legal hf
    exact ⟨by rwa [hw], by rwa [hh], by rwa [hr], by rwa [hw, hh, hb]⟩
  line hf := by rw [hw, hh]; exact h.line hf
  opcode := h.opcode
  rows := h.rows
  columns := h.columns
  recorded := h.recorded

/-- The engine's turn, case by case. -/
theorem engineTurn_cases {s t : State} (h : engineTurn s = .next t) :
    ((s.status.busy = false ∨ s.seq.uop = .idle) ∧ t = s) ∨
    (s.status.busy = true ∧ s.seq.uop = .seed ∧ execSeed s = .next t) ∨
    (s.status.busy = true ∧ s.seq.uop = .emit ∧ execEmit s = .next t) ∨
    (s.status.busy = true ∧ s.seq.uop = .advance ∧ execAdvance s = .next t) := by
  unfold engineTurn at h
  cases hb : s.status.busy with
  | false =>
    simp only [hb] at h
    exact .inl ⟨.inl rfl, by cases h; rfl⟩
  | true =>
    simp only [hb, if_true] at h
    cases hu : s.seq.uop with
    | idle => rw [hu] at h; exact .inl ⟨.inr rfl, by cases h; rfl⟩
    | seed => rw [hu] at h; exact .inr (.inl ⟨rfl, rfl, h⟩)
    | emit => rw [hu] at h; exact .inr (.inr (.inl ⟨rfl, rfl, h⟩))
    | advance => rw [hu] at h; exact .inr (.inr (.inr ⟨rfl, rfl, h⟩))

/-- The engine's turn as a `Turn`, once for both ways the engine comes to have it. -/
theorem turn_of_engineTurn {s t : State} (hs : s.script = [] ∨ s.script.head? = some .engine)
    (h : engineTurn (popped s) = .next t) : Turn s t := by
  rcases engineTurn_cases h with ⟨hb, rfl⟩ | ⟨hb, hu, h⟩ | ⟨hb, hu, h⟩ | ⟨hb, hu, h⟩
  · exact .idle hs hb
  · obtain ⟨hk, rfl⟩ := execSeed_next h
    exact .seed hs hb hu hk
  · obtain ⟨hk, rfl⟩ := execEmit_next h
    exact .emit hs hb hu hk
  · obtain ⟨hk, rfl⟩ := execAdvance_next h
    exact .advance hs hb hu hk

/-- The one inversion lemma of `step`. -/
theorem step_turn {s t : State} (h : step s = .next t) : Turn s t := by
  unfold step takeTurn at h
  cases hs : s.script with
  | nil =>
    rw [hs] at h
    refine turn_of_engineTurn (.inl hs) ?_
    have hp : popped s = s := by rw [popped, hs]; cases s; cases hs; rfl
    rw [hp]
    exact h
  | cons e rest =>
    rw [hs] at h
    simp only at h
    have hp : { s with script := rest } = popped s := by rw [popped, hs]; rfl
    have hh : s.script.head? = some e := by rw [hs]; rfl
    rw [hp] at h
    cases e with
    | engine => exact turn_of_engineTurn (.inr hh) h
    | regRead n =>
      cases h
      exact .regRead n hh
    | regWrite n v =>
      simp only [serve, hostRegWrite] at h
      split at h
      · subst n
        unfold runWord at h
        split at h
        · rename_i i hi
          obtain ⟨f, p, l, he, hf⟩ := exec_command hi (logHost (.regWrite 0 v) (popped s))
          rw [he] at h
          cases h
          exact .command v f p l hh (hf.congr rfl rfl rfl rfl)
        · cases h
          refine .command v _ _ _ hh ?_
          exact
            { legal := fun h => nomatch h
              line := fun h => nomatch h
              opcode := fun h => nomatch h
              rows := fun h => nomatch h
              columns := fun h => nomatch h
              recorded := fun e i h => by cases h; decide }
      · cases h
        exact .regWrite n v hh ‹_›
    | pixRead i =>
      obtain ⟨h1, h2, rfl⟩ := hostPixel_next h
      exact .pixRead i hh h1 h2
    | pixWrite i v =>
      change hostPixWrite i v (popped s) = .next t at h
      unfold hostPixWrite at h
      obtain ⟨h1, h2, rfl⟩ := hostPixel_next h
      exact .pixWrite i v hh h1 h2
    | rst =>
      cases h
      exact .rst hh
    | codecSelect p c =>
      simp only [serve, runWord] at h
      split at h
      · rename_i i hi
        have : i = .extract (Channel.ofCode c) := by
          simp only [decode, decodeNarrow] at hi
          split at hi
          · cases hi
            simp
          · cases hi
        subst i
        cases h
        exact .codec _ (.inl ⟨p, c, hh⟩)
      · cases h
        exact .codec _ (.inl ⟨p, c, hh⟩)
    | codecUnpack p =>
      cases h
      exact .codec _ (.inr (.inl ⟨p, hh⟩))
    | codecPack w =>
      cases h
      exact .codec _ (.inr (.inr ⟨w, hh⟩))

end Sys2Proof.Laws
end

