-- ==== Sys2Proof/Laws/Window.lean ====
section
/-! SUPPORT. Why ADVANCE's three updates keep the sums (spec/41_window_engine.md R78), over the naturals and in the
32-bit registers, and that SEED establishes them (R79 (b)). -/

namespace Sys2Proof.Laws

open Sys2Proof.Machine Sys2Proof.Safety Finset

theorem tent_rising {r i : Nat} (h : i ≤ r) : tent r i = i + 1 := by
  unfold tent
  omega

theorem tent_falling {r i : Nat} (h : i < r) : tent r (r + 1 + i) = r - i := by
  unfold tent
  omega

/-- A sum over a window splits at the centre. -/
theorem sum_window_split (r : Nat) (f : Nat → Nat) :
    ∑ i ∈ range (2 * r + 1), f i = ∑ i ∈ range (r + 1), f i + ∑ i ∈ range r, f (r + 1 + i) := by
  rw [show 2 * r + 1 = (r + 1) + r by omega, sum_range_add]

/-- R78: dropping the oldest sample and recentring takes SUMOUT off the weighted sum and adds SUMIN to it. -/
theorem tent_shift (r : Nat) (f : Nat → Nat) :
    ∑ i ∈ range (2 * r), tent r i * f (i + 1) + ∑ i ∈ range (r + 1), f i =
      ∑ i ∈ range (2 * r + 1), tent r i * f i + ∑ i ∈ range r, f (r + 1 + i) := by
  have hleft : ∑ i ∈ range (2 * r), tent r i * f (i + 1) =
      ∑ i ∈ range r, (i + 1) * f (i + 1) + ∑ i ∈ range r, (r - i + 1) * f (r + 1 + i) := by
    rw [show 2 * r = r + r by omega, sum_range_add]
    congr 1
    · exact sum_congr rfl fun i hi => by rw [tent_rising (by have := mem_range.mp hi; omega)]
    · refine sum_congr rfl fun i hi => ?_
      have := mem_range.mp hi
      rw [show r + i + 1 = r + 1 + i by omega, show tent r (r + i) = r - i + 1 by unfold tent; omega]
  have hright : ∑ i ∈ range (2 * r + 1), tent r i * f i =
      ∑ i ∈ range (r + 1), (i + 1) * f i + ∑ i ∈ range r, (r - i) * f (r + 1 + i) := by
    rw [sum_window_split]
    congr 1
    · exact sum_congr rfl fun i hi => by rw [tent_rising (by have := mem_range.mp hi; omega)]
    · exact sum_congr rfl fun i hi => by rw [tent_falling (mem_range.mp hi)]
  have hrise : ∑ i ∈ range (r + 1), (i + 1) * f i =
      ∑ i ∈ range r, (i + 1) * f (i + 1) + ∑ i ∈ range (r + 1), f i := by
    simp only [Nat.add_mul, Nat.one_mul, sum_add_distrib]
    rw [sum_range_succ' (fun i => i * f i) r]
    simp only [Nat.add_mul, Nat.one_mul, sum_add_distrib, Nat.zero_mul, Nat.add_zero]
  have hfall : ∑ i ∈ range r, (r - i + 1) * f (r + 1 + i) =
      ∑ i ∈ range r, (r - i) * f (r + 1 + i) + ∑ i ∈ range r, f (r + 1 + i) := by
    rw [← sum_add_distrib]
    exact sum_congr rfl fun i _ => by ring
  rw [hleft, hright, hrise, hfall]
  ring

/-- The window after an ADVANCE. -/
theorem shiftedWindow_lt {s : State} {p : Word} {i : Nat} (h : i < 2 * s.radius.val) :
    shiftedWindow s p i = winAt s (i + 1) := if_pos h

theorem shiftedWindow_last (s : State) (p : Word) : shiftedWindow s p (2 * s.radius.val) = p :=
  if_neg (Nat.lt_irrefl _)

/-- R78 on the window's contents: SUM' + SUMOUT = SUM + SUMIN + in. -/
theorem tentSum_shifted (s : State) (p : Word) (c : Channel) :
    tentSum s.radius.val (shiftedWindow s p) c + ∑ i ∈ range (s.radius.val + 1), chanVal c (winAt s i) =
      tentSum s.radius.val (winAt s) c + ∑ i ∈ range s.radius.val, chanVal c (winAt s (s.radius.val + 1 + i)) +
        chanVal c p := by
  have h := tent_shift s.radius.val fun i => chanVal c (winAt s i)
  have hlast : tent s.radius.val (2 * s.radius.val) = 1 := by unfold tent; omega
  unfold tentSum at *
  rw [sum_range_succ, shiftedWindow_last, hlast, Nat.one_mul]
  rw [sum_congr rfl fun i hi => by rw [shiftedWindow_lt (mem_range.mp hi)]]
  omega

/-- R78: SUMOUT' + old = SUMOUT + mid. -/
theorem sumOut_shifted {s : State} (hr : 0 < s.radius.val) (p : Word) (c : Channel) :
    ∑ i ∈ range (s.radius.val + 1), chanVal c (shiftedWindow s p i) + chanVal c (winAt s 0) =
      ∑ i ∈ range (s.radius.val + 1), chanVal c (winAt s i) + chanVal c (winAt s (s.radius.val + 1)) := by
  rw [sum_congr rfl fun i hi => by
    rw [shiftedWindow_lt (show i < 2 * s.radius.val by have := mem_range.mp hi; omega)]]
  rw [← sum_range_succ (fun i => chanVal c (winAt s i)), sum_range_succ' (fun i => chanVal c (winAt s i))]

/-- R78: SUMIN' + mid = SUMIN + in. -/
theorem sumIn_shifted {s : State} (hr : 0 < s.radius.val) (p : Word) (c : Channel) :
    ∑ i ∈ range s.radius.val, chanVal c (shiftedWindow s p (s.radius.val + 1 + i)) +
        chanVal c (winAt s (s.radius.val + 1)) =
      ∑ i ∈ range s.radius.val, chanVal c (winAt s (s.radius.val + 1 + i)) + chanVal c p := by
  obtain ⟨m, hm⟩ : ∃ m, s.radius.val = m + 1 := ⟨s.radius.val - 1, by omega⟩
  rw [hm, sum_range_succ, sum_range_succ' (fun i => chanVal c (winAt s (m + 1 + 1 + i)))]
  have hlast : shiftedWindow s p (m + 1 + 1 + m) = p := by
    rw [show m + 1 + 1 + m = 2 * s.radius.val by omega, shiftedWindow_last]
  rw [hlast, sum_congr rfl fun i hi => by
    rw [shiftedWindow_lt (show m + 1 + 1 + i < 2 * s.radius.val by have := mem_range.mp hi; omega),
      show m + 1 + 1 + i + 1 = m + 1 + 1 + (i + 1) by omega]]
  rw [Nat.add_zero]
  omega

/-- Each of SUMOUT's samples has weight at least 1 in SUM, so `SUM - SUMOUT` does not go below zero (R82). -/
theorem sumOut_le_tentSum (r : Nat) (x : Nat → Word) (c : Channel) :
    ∑ i ∈ range (r + 1), chanVal c (x i) ≤ tentSum r x c := by
  rw [tentSum, sum_window_split]
  refine Nat.le_add_right_of_le (sum_le_sum fun i hi => ?_)
  rw [tent_rising (by have := mem_range.mp hi; omega)]
  exact Nat.le_mul_of_pos_left _ (by omega)

theorem winAt_seeded_le {s : State} {i : Nat} (h : i ≤ 2 * s.radius.val) : winAt (seeded s) i = seedWindow s i := by
  rw [winAt_seeded, if_pos h]

theorem winAt_advanced_le {s : State} {i : Nat} (h : i ≤ 2 * s.radius.val) :
    winAt (advanced s) i = shiftedWindow s (linePixel s (advancePos s)) i := by
  rw [winAt_advanced, if_pos h]

/-! ### The registers hold their defining sums -/

/-- A weighted sum fits an accumulator with room to spare, whatever the window holds. -/
theorem tentSum_lt {r : Nat} (hr : r < 255) (x : Nat → Word) (c : Channel) : tentSum r x c < 2 ^ 26 := by
  have hb : ∑ i ∈ range (2 * r + 1), tent r i ≤ (2 * r + 1) * (r + 1) := by
    calc ∑ i ∈ range (2 * r + 1), tent r i ≤ ∑ _i ∈ range (2 * r + 1), (r + 1) :=
          sum_le_sum fun i _ => by unfold tent; omega
      _ = (2 * r + 1) * (r + 1) := by simp
  have hm : (2 * r + 1) * (r + 1) ≤ 509 * 255 := Nat.mul_le_mul (by omega) (by omega)
  have := tentSum_le r x c
  omega

theorem toNat_lane (p : Word) (c : Channel) : (zext32 (extractChannel p c)).toNat = chanVal c p := by
  have h := chanVal_le c p
  simp only [chanVal] at *
  rw [BitVec.toNat_setWidth, Nat.mod_eq_of_lt (by omega)]

@[simp] theorem seeded_radius (s : State) : (seeded s).radius = s.radius := rfl
@[simp] theorem advanced_radius (s : State) : (advanced s).radius = s.radius := rfl

/-- SEED leaves every accumulator equal to its defining sum (R72, R79 (b)). -/
theorem sumsHold_seeded (s : State) (c : Channel) : SumsHold (seeded s) c := by
  have hr := s.radius.isLt
  constructor
  · show (Lanes.get (Lanes.ofFn _) c).toNat = _
    rw [get_ofFn, windowSum_eq, BitVec.toNat_ofNat, Nat.mod_eq_of_lt (Nat.lt_trans (tentSum_lt hr _ _) (by norm_num)),
      seeded_radius]
    exact sum_congr rfl fun i hi => by rw [winAt_seeded_le (by have := mem_range.mp hi; omega)]
  · show (Lanes.get (Lanes.ofFn _) c).toNat = _
    rw [get_ofFn, windowSumOut_eq, BitVec.toNat_ofNat,
      Nat.mod_eq_of_lt (Nat.lt_of_le_of_lt (plainSum_le _ _ _) (by omega)), seeded_radius]
    exact sum_congr rfl fun i hi => by rw [winAt_seeded_le (by have := mem_range.mp hi; omega)]
  · show (Lanes.get (Lanes.ofFn _) c).toNat = _
    rw [get_ofFn, windowSumIn_eq, BitVec.toNat_ofNat,
      Nat.mod_eq_of_lt (Nat.lt_of_le_of_lt (plainSum_le _ (fun i => _) _) (by omega)), seeded_radius]
    exact sum_congr rfl fun i hi => by rw [winAt_seeded_le (by have := mem_range.mp hi; omega)]

/-- ADVANCE keeps every accumulator equal to its defining sum (R77, R78, R79 (b)): no register wraps. -/
theorem sumsHold_advanced {s : State} (hr0 : 0 < s.radius.val) {c : Channel} (h : SumsHold s c) :
    SumsHold (advanced s) c := by
  have hr := s.radius.isLt
  obtain ⟨h1, h2, h3⟩ := h
  have e1 := tentSum_shifted s (linePixel s (advancePos s)) c
  have e2 := sumOut_shifted hr0 (linePixel s (advancePos s)) c
  have e3 := sumIn_shifted hr0 (linePixel s (advancePos s)) c
  have b1 := sumOut_le_tentSum s.radius.val (winAt s) c
  have b2 := tentSum_lt hr (winAt s) c
  have b3 := plainSum_le s.radius.val (fun i => winAt s (s.radius.val + 1 + i)) c
  have b4 := plainSum_le (s.radius.val + 1) (winAt s) c
  have cp := chanVal_le c (linePixel s (advancePos s))
  have cm := chanVal_le c (winAt s (s.radius.val + 1))
  have m0 : chanVal c (winAt s 0) ≤ ∑ i ∈ range (s.radius.val + 1), chanVal c (winAt s i) :=
    single_le_sum (f := fun i => chanVal c (winAt s i)) (fun _ _ => Nat.zero_le _) (mem_range.mpr (by omega))
  have mm : chanVal c (winAt s (s.radius.val + 1)) ≤
      ∑ i ∈ range s.radius.val, chanVal c (winAt s (s.radius.val + 1 + i)) :=
    single_le_sum (f := fun i => chanVal c (winAt s (s.radius.val + 1 + i))) (fun _ _ => Nat.zero_le _)
      (mem_range.mpr hr0)
  constructor
  · show (Lanes.get (Lanes.ofFn _) c).toNat = _
    have hsum : tentSum (advanced s).radius.val (winAt (advanced s)) c =
        tentSum s.radius.val (shiftedWindow s (linePixel s (advancePos s))) c := by
      rw [advanced_radius]
      exact sum_congr rfl fun i hi => by rw [winAt_advanced_le (by have := mem_range.mp hi; omega)]
    rw [get_ofFn, hsum]
    simp only [get_unpackPixel, BitVec.toNat_add, BitVec.toNat_sub, toNat_lane, h1, h2, h3]
    omega
  · show (Lanes.get (Lanes.ofFn _) c).toNat = _
    have hsum : ∑ i ∈ range ((advanced s).radius.val + 1), chanVal c (winAt (advanced s) i) =
        ∑ i ∈ range (s.radius.val + 1), chanVal c (shiftedWindow s (linePixel s (advancePos s)) i) := by
      rw [advanced_radius]
      exact sum_congr rfl fun i hi => by rw [winAt_advanced_le (by have := mem_range.mp hi; omega)]
    rw [get_ofFn, hsum]
    simp only [get_unpackPixel, BitVec.toNat_add, BitVec.toNat_sub, toNat_lane, h2]
    omega
  · show (Lanes.get (Lanes.ofFn _) c).toNat = _
    have hsum : ∑ i ∈ range (advanced s).radius.val, chanVal c (winAt (advanced s) ((advanced s).radius.val + 1 + i)) =
        ∑ i ∈ range s.radius.val,
          chanVal c (shiftedWindow s (linePixel s (advancePos s)) (s.radius.val + 1 + i)) := by
      rw [advanced_radius]
      exact sum_congr rfl fun i hi => by rw [winAt_advanced_le (by have := mem_range.mp hi; omega)]
    rw [get_ofFn, hsum]
    simp only [get_unpackPixel, BitVec.toNat_add, BitVec.toNat_sub, toNat_lane, h3]
    omega

end Sys2Proof.Laws
end

