-- ==== Sys2Proof/Laws/Invariant.lean ====
section
/-! SUPPORT. How the parts of the invariant carry over from one state to another that agrees with it on what they read.
Invariant proofs start from `step_turn` and use these for every turn that leaves the engine alone. -/

namespace Sys2Proof.Laws

open Sys2Proof.Machine Sys2Proof.Safety

theorem gridLegal_congr {s t : State} (h : GridLegal s) (hw : t.width = s.width) (hh : t.height = s.height)
    (hr : t.radius = s.radius) (hb : t.buflen = s.buflen) : GridLegal t :=
  ⟨by rw [hw]; exact h.width, by rw [hh]; exact h.height, by rw [hr]; exact h.radius,
    by rw [hw, hh, hb]; exact h.fits⟩

theorem sumsHold_congr {s t : State} {c : Channel} (h : SumsHold s c) (hr : t.radius = s.radius) (hw : t.win = s.win)
    (h1 : t.sum = s.sum) (h2 : t.sumOut = s.sumOut) (h3 : t.sumIn = s.sumIn) : SumsHold t c := by
  have hx : winAt t = winAt s := funext (winAt_of_win hw)
  exact ⟨by rw [hr, h1, hx]; exact h.sum, by rw [hr, h2, hx]; exact h.sumOut, by rw [hr, h3, hx]; exact h.sumIn⟩

/-- The line's geometry is a function of SEQ, WIDTH and HEIGHT (R29, R85). -/
theorem lineGeometry_congr {s t : State} (hq : t.seq.pass = s.seq.pass ∧ t.seq.line = s.seq.line)
    (hw : t.width = s.width) (hh : t.height = s.height) :
    lineIndex t = lineIndex s ∧ lineLen t = lineLen s ∧ passLines t = passLines s := by
  refine ⟨funext fun k => ?_, ?_, ?_⟩
  · simp only [lineIndex, lineBase, lineStride, hq.1, hq.2, hw]
  · simp only [lineLen, hq.1, hw, hh]
  · simp only [passLines, hq.1, hw, hh]

/-- What `Running` reads is the engine, the configuration and `lent`. -/
theorem running_congr {s t : State} (h : Running s) (hwin : t.win = s.win) (h1 : t.sum = s.sum)
    (h2 : t.sumOut = s.sumOut) (h3 : t.sumIn = s.sumIn) (hq : t.seq = s.seq) (hd : t.div = s.div) (ho : t.opc = s.opc)
    (hw : t.width = s.width) (hh : t.height = s.height) (hr : t.radius = s.radius) (hb : t.buflen = s.buflen)
    (hl : t.lent = s.lent) : Running t := by
  obtain ⟨-, hlen, hlines⟩ := lineGeometry_congr (s := s) (t := t) (by rw [hq]; exact ⟨rfl, rfl⟩) hw hh
  exact ⟨gridLegal_congr h.legal hw hh hr hb, by rw [hl, hw, hh]; exact h.lent, by rw [hq]; exact h.uop,
    by rw [hd, hr]; exact h.div, by rw [ho]; exact h.opc, by rw [ho, hq]; exact h.rows, by rw [ho, hq]; exact h.columns,
    by rw [hq, hlines]; exact h.line, by rw [hq, hlen]; exact h.pos, by rw [hq, hlen]; exact h.more,
    by rw [hq]; exact fun hu c => sumsHold_congr (h.sums hu c) hr hwin h1 h2 h3⟩

/-- The invariant survives every turn that leaves the engine and STATUS's error record alone and keeps memory
canonical; DONE may fall. -/
theorem inv_congr {s t : State} (h : Inv s) (hm : Memory.wf t.mem) (hbusy : t.status.busy = s.status.busy)
    (hdone : t.status.done = true → s.status.done = true) (herr : t.status.err = s.status.err)
    (hcode : t.errcode = s.errcode) (hinfo : t.errinfo = s.errinfo) (hwin : t.win = s.win) (hq : t.seq = s.seq)
    (hrun : s.status.busy = true → Running s → Running t) : Inv t where
  memory := hm
  window := by rw [hwin]; exact h.window
  busyDone := fun x => h.busyDone ⟨hbusy ▸ x.1, hdone x.2⟩
  busyErr := fun x => h.busyErr ⟨hbusy ▸ x.1, herr ▸ x.2⟩
  doneErr := fun x => h.doneErr ⟨hdone x.1, herr ▸ x.2⟩
  errcode := by rw [herr, hcode]; exact h.errcode
  errinfo := by rw [herr, hinfo]; exact h.errinfo
  idle := by rw [hbusy, hq]; exact h.idle
  running := fun hb => by rw [hbusy] at hb; exact hrun hb (h.running hb)

end Sys2Proof.Laws
end

