-- ==== Sys2Proof/Laws/PerInstr.lean ====
section
/-! SUPPORT. Statements about every instruction as syntax, one lemma per constructor. -/

namespace Sys2Proof.Laws.EncodeFits

/-- The widths of the formats (spec/30_encoding.md R47). -/
def width : Format → Nat
  | .cmd => 32
  | .uop => 2
  | .sel => 2
  | .pixUnpack => 32
  | .pixPack => 32

/-- An instruction's word fits its format, and ZERO of a command word is 0 whatever its operand (R47, R48). -/
def Statement (i : Instr) : Prop :=
  (encode i).toNat < 2 ^ width i.format ∧ (i.format = .cmd → zeroField (encode i) = 0)

theorem of_wide {i : Instr} (hf : width i.format = 32) (hz : i.format = .cmd → zeroField (encode i) = 0) :
    Statement i :=
  ⟨by rw [hf]; exact (encode i).isLt, hz⟩

theorem blur : Statement .blur := of_wide rfl fun _ => by decide
theorem hpass : Statement .hpass := of_wide rfl fun _ => by decide
theorem vpass : Statement .vpass := of_wide rfl fun _ => by decide
theorem hline (y : Nat) : Statement (.hline y) := of_wide rfl fun _ => zeroField_lineWord 0x04 y
theorem vline (x : Nat) : Statement (.vline x) := of_wide rfl fun _ => zeroField_lineWord 0x05 x
theorem seed : Statement .seed := ⟨by decide, fun h => nomatch h⟩
theorem emit : Statement .emit := ⟨by decide, fun h => nomatch h⟩
theorem advance : Statement .advance := ⟨by decide, fun h => nomatch h⟩
theorem extract (c : Channel) : Statement (.extract c) := ⟨by cases c <;> decide, fun h => nomatch h⟩
theorem unpack (p : Word) : Statement (.unpack p) := of_wide rfl fun h => nomatch h
theorem pack (a r g b : Byte) : Statement (.pack a r g b) := of_wide rfl fun h => nomatch h

end Sys2Proof.Laws.EncodeFits
end

