-- ==== Sys2Proof/Tests/Slice0.lean ====
section
/-! SUPPORT. The model's own tests. Expected values are those of spec/95_test_vectors.md (the row is named at each test)
or are written out from the encodings of spec/30_encoding.md. After them, one witness for each statement of
Certificates/Slice0/Obligations.lean that has hypotheses. -/

namespace Sys2Proof.Tests

/- One theorem at a time: each `decide +kernel` waits for the kernel, and many waiting at once take a thread each. -/
set_option Elab.async false

open Sys2Proof.Machine Sys2Proof.Safety

/-! ### Small states -/

/-- Pixels at indices `i`, `i + 1`, ... -/
def pixelsFrom : Nat → List Word → State → State
  | _, [], s => s
  | i, p :: l, s => pixelsFrom (i + 1) l { s with mem := writePixel s.mem i p }

/-- After reset, configured: width, height, radius, and a buffer that is just long enough. -/
def grid (w h : Half) (r : Fin 255) : State :=
  { State.reset with width := w, height := h, radius := r, buflen := zext32 w * zext32 h }

/-- The whole answer is a next state with this property. -/
def nextIs (r : Result) (p : State → Bool) : Bool :=
  match r with
  | .next t => p t
  | .fault _ => false
  | .refused _ => false

/-- The host writes `c` to CMD next. -/
def commanded (c : Word) (s : State) : State := { s with script := [.regWrite 0 c] }

/-- Where `k` steps lead; the start itself if they stop. -/
def after (k : Nat) (s : State) : State :=
  match runFor k s with
  | .next t => t
  | .fault _ => s
  | .refused _ => s

/-- A row of a running HLINE 0 on a grid of one row, about to perform `u` at position `j`. -/
def onRow (l : List Word) (r : Fin 255) (j : Half) (u : Uop) : State :=
  { pixelsFrom 0 l (grid (BitVec.ofNat 16 l.length) 1 r) with
    status := { busy := true, done := false, err := false, drop := false }
    opc := 0x04
    div := BitVec.ofNat 16 (divisor r.val)
    seq := { pass := .h, line := 0, pos := j, uop := u } }

/-- The line of vector V2. -/
def lineV2 : List Word := [0x10203040, 0x50607080, 0x90a0b0c0, 0xd0e0f000, 0x11223344]

/-- Lanes in the vectors' order (B, G, R, A). -/
def lanes (b g r a : Nat) : Lanes :=
  { b := BitVec.ofNat 32 b, g := BitVec.ofNat 32 g, r := BitVec.ofNat 32 r, a := BitVec.ofNat 32 a }

/-! ### Well-formedness -/

/-- ARG has 16 bits (R48): the largest line index is 65535. -/
theorem test_wf_hline_bound : (Instr.hline 65535).wf = true ∧ (Instr.hline 65536).wf = false := by decide

theorem test_wf_vline_bound : (Instr.vline 65535).wf = true ∧ (Instr.vline 65536).wf = false := by decide

/-! ### Decoding: one word for every constructor, from R45, R46, R49, R51 -/

theorem test_decode_blur : decode .cmd 0b00000001000000000000000000000000 = .ok .blur := by decide
theorem test_decode_hpass : decode .cmd 0b00000010000000000000000000000000 = .ok .hpass := by decide
theorem test_decode_vpass : decode .cmd 0b00000011000000000000000000000000 = .ok .vpass := by decide
theorem test_decode_hline : decode .cmd 0b00000100000000001000000000000001 = .ok (.hline 32769) := by decide
theorem test_decode_vline : decode .cmd 0b00000101000000000000000100000010 = .ok (.vline 258) := by decide
theorem test_decode_seed : decode .uop 0b01 = .ok .seed := by decide
theorem test_decode_emit : decode .uop 0b10 = .ok .emit := by decide
theorem test_decode_advance : decode .uop 0b11 = .ok .advance := by decide
theorem test_decode_extract : decode .sel 0b10 = .ok (.extract .r) := by decide
theorem test_decode_unpack :
    decode .pixUnpack 0b10000000110000001111111111101110 = .ok (.unpack 0x80C0FFEE) := by decide
theorem test_decode_pack :
    decode .pixPack 0b11111111101111110011111100000000 = .ok (.pack 0xFF 0xBF 0x3F 0x00) := by decide

/-- Q7 to Q12, U11, and code 0 of UOP (R51). -/
theorem test_decode_reserved :
    decode .cmd 0x00000000 = .error .illegalOpcode ∧ decode .cmd 0xFFFFFFFF = .error .zeroFieldSet ∧
    decode .cmd 0x06000000 = .error .illegalOpcode ∧ decode .cmd 0x01000001 = .error .argFieldSet ∧
    decode .cmd 0x01010000 = .error .zeroFieldSet ∧ decode .cmd 0x04010000 = .error .zeroFieldSet ∧
    decode .uop 0 = .error .idleCode ∧ decode .uop 5 = .error .wordTooWide ∧ decode .sel 4 = .error .wordTooWide := by
  decide

/-- The rows of the opcode table by their `match` or `encoding`, as bare words; PACK shares UNPACK's bits
(notes/assumptions/12.md). -/
theorem test_table_words :
    decodeTableWord 32 0x01000000 = some .blur ∧ decodeTableWord 32 0x02000000 = some .hpass ∧
    decodeTableWord 32 0x03000000 = some .vpass ∧ decodeTableWord 32 0x04000000 = some (.hline 0) ∧
    decodeTableWord 32 0x05000000 = some (.vline 0) ∧ decodeTableWord 8 1 = some .seed ∧
    decodeTableWord 8 2 = some .emit ∧ decodeTableWord 8 3 = some .advance ∧
    decodeTableWord 8 0 = some (.extract .b) ∧ decodeTableWord 32 0 = some (.unpack 0) := by decide

/-! ### Placing a word so that the next step runs it -/

/-- E1: with everything at reset BLUR fails with BAD_DIM. -/
theorem test_fetch_blur :
    nextIs (step (State.reset.withFetchWord 32 0x01000000)) (fun t => t.errcode = .badDim ∧ t.status.err) = true := by
  decide +kernel

/-- The engine's turn performs the placed micro-operation on the line SEQ names. -/
theorem test_fetch_seed :
    nextIs (step (State.reset.withFetchWord 8 1)) (fun t => t.seq.uop = .emit ∧ t.accesses = [.read 0]) = true := by
  decide +kernel

/-- K6. -/
theorem test_fetch_unpack :
    nextIs (step (State.reset.withFetchWord 32 0xFFFFFFFF)) (fun t => t.codec.lanes = lanes 255 255 255 255) = true := by
  decide +kernel

/-! ### Commands: Q1 to Q3, Q5, Q6, Q13, Q15, E4, E7, E10, H6 -/

theorem test_blur_starts :
    nextIs (exec .blur (grid 4 4 1)) (fun t => t.status.busy ∧ t.opc = 0x01 ∧ t.div = 4 ∧
      t.seq = { pass := .h, line := 0, pos := 0, uop := .seed }) = true := by decide +kernel

/-- E10: the product does not wrap. -/
theorem test_blur_geometry_exact :
    nextIs (exec .blur { grid 65535 65535 1 with buflen := 0xfffe0000 })
      (fun t => t.errcode = .invalidGeometry ∧ t.errinfo = 0xfffe0001 ∧ t.status.err ∧ !t.status.busy) = true := by
  decide +kernel

theorem test_hpass_starts :
    nextIs (exec .hpass (grid 4 4 1)) (fun t => t.status.busy ∧ t.opc = 0x02 ∧
      t.seq = { pass := .h, line := 0, pos := 0, uop := .seed }) = true := by decide +kernel

/-- H6: DONE is cleared by a command that then fails. -/
theorem test_hpass_failing_clears_done :
    nextIs (exec .hpass { grid 4 4 0 with status := { busy := false, done := true, err := false, drop := false } })
      (fun t => t.errcode = .badRadius ∧ t.errinfo = 0 ∧ statusWord t.status = 4) = true := by decide +kernel

theorem test_vpass_starts :
    nextIs (exec .vpass (grid 4 4 1)) (fun t => t.status.busy ∧ t.opc = 0x03 ∧
      t.seq = { pass := .v, line := 0, pos := 0, uop := .seed }) = true := by decide +kernel

theorem test_hline_starts :
    nextIs (exec (.hline 3) (grid 4 4 1)) (fun t => t.status.busy ∧ t.opc = 0x04 ∧
      t.seq = { pass := .h, line := 3, pos := 0, uop := .seed }) = true := by decide +kernel

theorem test_hline_bad_line :
    nextIs (exec (.hline 65535) (grid 4 4 1)) (fun t => t.errcode = .badLine ∧ t.errinfo = 0x0400ffff ∧
      t.accesses = []) = true := by decide +kernel

theorem test_vline_starts :
    nextIs (exec (.vline 3) (grid 4 2 1)) (fun t => t.status.busy ∧ t.opc = 0x05 ∧
      t.seq = { pass := .v, line := 3, pos := 0, uop := .seed }) = true := by decide +kernel

/-- E7, for VLINE: BAD_DIM carries `(H << 16) | W`. -/
theorem test_vline_bad_dim :
    nextIs (exec (.vline 4) (grid 0 5 1)) (fun t => t.errcode = .badDim ∧ t.errinfo = 0x00050000) = true := by
  decide +kernel

/-! ### Micro-operations: V1, V2, V7, S8 -/

/-- V2. -/
theorem test_seed_window_and_sums :
    nextIs (exec .seed (onRow lineV2 2 0 .seed)) (fun t =>
      t.win = [0x10203040, 0x10203040, 0x10203040, 0x50607080, 0x90a0b0c0] ∧
      t.sum = lanes 832 688 544 400 ∧ t.sumOut = lanes 192 144 96 48 ∧ t.sumIn = lanes 320 288 256 224 ∧
      t.accesses = [.read 0, .read 1, .read 2] ∧ t.seq.uop = .emit) = true := by decide +kernel

/-- S8: a line shorter than the radius; the last pixel fills the leading end. -/
theorem test_seed_short_line :
    nextIs (exec .seed (onRow [0xff102030, 0xff405060, 0xff708090] 5 0 .seed)) (fun t =>
      t.sum = lanes 2928 2352 1776 9180 ∧ t.sumOut = lanes 288 192 96 1530 ∧ t.sumIn = lanes 672 592 512 1275 ∧
      winAt t 6 = 0xff405060 ∧ winAt t 10 = 0xff708090 ∧ t.accesses.length = 3) = true := by decide +kernel

/-- V1 at position 2: 765 div 4 is 191, not rounded; and the line command completes. -/
theorem test_emit_truncates_and_completes :
    nextIs (exec .emit { onRow [0, 0x3f, 0xff] 1 2 .emit with win := [0, 0xff, 0xff], sum := lanes 765 0 0 0 })
      (fun t => pixel t 2 = 0xbf ∧ pixel t 1 = 0x3f ∧ statusWord t.status = 2 ∧ t.seq.uop = .idle) = true := by
  decide +kernel

/-- V7 at position 0 with BLUR_ALPHA = 0: the centre's A field is written, not the quotient 112. -/
theorem test_emit_alpha_passes :
    nextIs (exec .emit { onRow [0x80ff0000, 0x4000ff00, 0x000000ff] 1 0 .emit with
        blurAlpha := false, win := [0x80ff0000, 0x80ff0000, 0x4000ff00], sum := lanes 0 255 765 448 })
      (fun t => pixel t 0 = 0x80bf3f00 ∧ t.seq.uop = .advance ∧ t.status.busy) = true := by decide +kernel

/-- V2, the first ADVANCE. -/
theorem test_advance_updates_sums :
    nextIs (exec .advance { onRow lineV2 2 0 .advance with
        win := [0x10203040, 0x10203040, 0x10203040, 0x50607080, 0x90a0b0c0]
        sum := lanes 832 688 544 400, sumOut := lanes 192 144 96 48, sumIn := lanes 320 288 256 224 })
      (fun t => t.win = [0x10203040, 0x10203040, 0x50607080, 0x90a0b0c0, 0xd0e0f000] ∧
        t.sum = lanes 960 1072 928 784 ∧ t.sumOut = lanes 256 208 160 112 ∧ t.sumIn = lanes 192 416 384 352 ∧
        t.seq.pos = 1 ∧ t.seq.uop = .emit) = true := by decide +kernel

/-- V2, the last ADVANCE: the line's last pixel is read again. -/
theorem test_advance_rereads_last :
    nextIs (exec .advance { onRow lineV2 2 3 .advance with
        win := [0x50607080, 0x90a0b0c0, 0xd0e0f000, 0x11223344, 0x11223344]
        sum := lanes 716 1337 1190 1043, sumOut := lanes 320 528 480 432, sumIn := lanes 136 102 68 34 })
      (fun t => t.sum = lanes 600 962 812 662 ∧ t.sumOut = lanes 260 467 418 369 ∧ t.sumIn = lanes 136 102 68 34 ∧
        t.accesses = [.read 4]) = true := by decide +kernel

/-! ### Codec: K4, K5, K8 -/

theorem test_extract_each_channel :
    nextIs (step { State.reset with script := [.codecSelect 0x12345678 0] }) (fun t => t.codec.channel = 0x78) = true ∧
    nextIs (step { State.reset with script := [.codecSelect 0x12345678 1] }) (fun t => t.codec.channel = 0x56) = true ∧
    nextIs (step { State.reset with script := [.codecSelect 0x12345678 2] }) (fun t => t.codec.channel = 0x34) = true ∧
    nextIs (step { State.reset with script := [.codecSelect 0x12345678 3] }) (fun t => t.codec.channel = 0x12) = true := by
  decide +kernel

theorem test_unpack_zero_extends :
    nextIs (exec (.unpack 0x80c0ffee) State.reset) (fun t => t.codec.lanes = lanes 238 255 192 128) = true := by
  decide +kernel

theorem test_pack_concatenates :
    nextIs (exec (.pack 0x12 0x34 0x56 0x78) State.reset) (fun t => t.codec.packed = 0x12345678) = true := by
  decide +kernel

/-! ### The register port: G2 to G4, G6, G9, G10, G12, G15, G16; H2, H3, H11, H13 -/

theorem test_radius_clamps :
    (writeRegister 7 300 State.reset).radius = 254 ∧ (writeRegister 7 0xffffffff State.reset).radius = 254 ∧
    (writeRegister 7 0x100 State.reset).radius = 254 ∧ (writeRegister 7 254 State.reset).radius = 254 := by
  decide +kernel

theorem test_register_fields :
    regValue (writeRegister 5 0x00012345 State.reset) 5 = 0x2345 ∧ regValue (writeRegister 2 0xfffffffe State.reset) 2 = 0 ∧
    regValue (writeRegister 3 0xffffffff State.reset) 3 = 6 ∧ writeRegister 12 0xdeadbeef State.reset = State.reset := by
  decide +kernel

/-- G15, G16. -/
theorem test_status_w1c :
    statusWord (writeStatus 2 { State.reset with status := { busy := false, done := true, err := false, drop := true } }).status = 8 ∧
    (fun t : State => statusWord t.status = 8 ∧ t.errcode = .none ∧ t.errinfo = 0)
      (writeStatus 4 { State.reset with
        status := { busy := false, done := false, err := true, drop := true }, errcode := .invalidGeometry, errinfo := 16 }) := by
  decide +kernel

/-- H2, H3: a command or a configuration write while BUSY is lost and sets DROP. -/
theorem test_dropped_while_busy :
    nextIs (step { onRow lineV2 2 0 .seed with script := [.regWrite 0 0x02000000] }) (fun t => statusWord t.status = 9 ∧ t.opc = 0x04) = true ∧
    nextIs (step { onRow lineV2 2 0 .seed with script := [.regWrite 7 9] }) (fun t => statusWord t.status = 9 ∧ t.radius = 2) = true := by
  decide +kernel

/-- H11: irq follows ERR and its enable. -/
theorem test_irq_level :
    irq { State.reset with status := { busy := false, done := false, err := true, drop := false }, inten := { doneIe := false, errIe := true } } = true ∧
    irq { State.reset with status := { busy := false, done := false, err := true, drop := false } } = false := by
  decide +kernel

/-- H13. -/
theorem test_reset_while_busy :
    nextIs (step { onRow lineV2 2 0 .seed with script := [.rst] }) (fun t =>
      statusWord t.status = 0 ∧ regValue t 2 = 1 ∧ regValue t 7 = 0 ∧ t.seq.uop = .idle ∧ pixel t 1 = 0x50607080) = true := by
  decide +kernel

/-- Bytes of a pixel: B, G, R, A from the lowest address (R34). -/
theorem test_bytes_of_pixel :
    (writePixel [] 1 0x11223344 = [(4, 0x44), (5, 0x33), (6, 0x22), (7, 0x11)]) ∧
    writePixel (writePixel [] 1 0x11223344) 1 0x00220000 = [(6, 0x22)] := by
  decide +kernel

/-! ### Witnesses -/

/-- The parts of `Inv` as a check that can be evaluated. -/
def invHolds (s : State) : Bool :=
  decide (Memory.wf s.mem) && decide (s.win.length ≤ Config.winMax) &&
    !(s.status.busy && s.status.done) && !(s.status.busy && s.status.err) && !(s.status.done && s.status.err) &&
    decide (s.status.err = true ↔ s.errcode ≠ .none) && decide (s.status.err = false → s.errinfo = 0) &&
    decide (s.status.busy = false → s.seq.uop = .idle)

/-- The parts of `Running` except the sums. -/
def runningHolds (s : State) : Bool :=
  decide (0 < s.width.toNat) && decide (0 < s.height.toNat) && decide (0 < s.radius.val) &&
    decide (s.width.toNat * s.height.toNat ≤ s.buflen.toNat) && decide (s.width.toNat * s.height.toNat ≤ s.lent) &&
    decide (s.seq.uop ≠ .idle) && decide (s.div.toNat = s.radius.val * (s.radius.val + 2) + 1) &&
    decide (s.opc = 0x04) && decide (s.seq.pass = .h) && decide (s.seq.line.toNat < passLines s) &&
    decide (s.seq.pos.toNat < lineLen s) && decide (s.seq.uop = .advance → s.seq.pos.toNat + 1 < lineLen s)

/-- One channel's three sums, evaluated. -/
def sumsHold (s : State) (c : Channel) : Bool :=
  decide ((s.sum.get c).toNat = windowSum s.radius.val (winAt s) c) &&
    decide ((s.sumOut.get c).toNat = windowSumOut s.radius.val (winAt s) c) &&
    decide ((s.sumIn.get c).toNat = windowSumIn s.radius.val (winAt s) c)

theorem sums_of_check {s : State} {c : Channel} (h : sumsHold s c = true) : SumsHold s c := by
  simp only [sumsHold, Bool.and_eq_true, decide_eq_true_eq] at h
  exact ⟨h.1.1.trans (Laws.windowSum_eq _ _ _), h.1.2.trans (Laws.windowSumOut_eq _ _ _),
    h.2.trans (Laws.windowSumIn_eq _ _ _)⟩

theorem inv_of_check {s : State} (h : invHolds s = true) (hr : s.status.busy = true → Running s) : Inv s := by
  simp only [invHolds, Bool.and_eq_true, decide_eq_true_eq, Bool.not_eq_true'] at h
  obtain ⟨⟨⟨⟨⟨⟨⟨h1, h2⟩, h3⟩, h4⟩, h5⟩, h6⟩, h7⟩, h8⟩ := h
  exact ⟨h1, h2, fun x => by simp [x.1, x.2] at h3, fun x => by simp [x.1, x.2] at h4,
    fun x => by simp [x.1, x.2] at h5, h6, h7, h8, hr⟩

theorem running_of_check {s : State} (h : runningHolds s = true)
    (hs : s.seq.uop ≠ .seed → ∀ c, SumsHold s c) : Running s := by
  simp only [runningHolds, Bool.and_eq_true, decide_eq_true_eq] at h
  obtain ⟨⟨⟨⟨⟨⟨⟨⟨⟨⟨⟨h1, h2⟩, h3⟩, h4⟩, h5⟩, h6⟩, h7⟩, h8⟩, h9⟩, h10⟩, h11⟩, h12⟩ := h
  exact ⟨⟨h1, h2, h3, h4⟩, h5, h6, h7, .inr (.inr (.inr (.inl h8))), fun _ => h9,
    fun h => by rw [h8] at h; exact absurd h (by decide), h10, fun _ => h11, h12, hs⟩

/-- A configured block with two pixels, V3's line; its HLINE 0 at the `k`-th micro-operation: SEED, EMIT, ADVANCE, EMIT
for `k` = 0 to 3, finished for `k` = 4. -/
def v3 : State := pixelsFrom 0 [1, 2] (grid 2 1 1)
def v3At (k : Nat) : State := after (k + 1) (commanded 0x04000000 v3)

theorem v3_uops : (v3At 0).seq.uop = .seed ∧ (v3At 1).seq.uop = .emit ∧ (v3At 2).seq.uop = .advance ∧
    (v3At 3).seq.uop = .emit ∧ (v3At 4).seq.uop = .idle := by decide +kernel

theorem v3_script : (v3At 0).script = [] ∧ (v3At 1).script = [] ∧ (v3At 2).script = [] ∧ (v3At 3).script = [] := by
  decide +kernel

theorem v3_busy : (v3At 0).status.busy = true ∧ (v3At 1).status.busy = true ∧ (v3At 2).status.busy = true ∧
    (v3At 3).status.busy = true ∧ (v3At 4).status.busy = false ∧ (v3At 4).status.done = true := by decide +kernel

theorem v3_inv_seed : Inv (v3At 0) :=
  inv_of_check (by decide +kernel) fun _ => running_of_check (by decide +kernel) fun h => absurd v3_uops.1 h

theorem v3_inv_emit : Inv (v3At 1) :=
  inv_of_check (by decide +kernel) fun _ => running_of_check (by decide +kernel) fun _ c => by
    cases c <;> exact sums_of_check (by decide +kernel)

theorem v3_inv_advance : Inv (v3At 2) :=
  inv_of_check (by decide +kernel) fun _ => running_of_check (by decide +kernel) fun _ c => by
    cases c <;> exact sums_of_check (by decide +kernel)

theorem v3_inv_last : Inv (v3At 3) :=
  inv_of_check (by decide +kernel) fun _ => running_of_check (by decide +kernel) fun _ c => by
    cases c <;> exact sums_of_check (by decide +kernel)

theorem v3_legal : GridLegal v3 := ⟨by decide +kernel, by decide +kernel, by decide +kernel, by decide +kernel⟩

theorem v3_idle_inv (c : Word) : Inv (commanded c v3) := inv_of_check rfl fun h => nomatch h

theorem v3_backed : v3.width.toNat * v3.height.toNat ≤ v3.backed := by decide +kernel

/-- Any command word, about to be written to the configured block. -/
theorem witness_pending (c : Word) : CommandPending c (commanded c v3) :=
  ⟨rfl, rfl, rfl, ⟨v3_legal.width, v3_legal.height, v3_legal.radius, v3_legal.fits⟩, v3_backed, v3_idle_inv c⟩

/-- An answer that is a next state. -/
theorem next_of_nextIs {r : Result} {p : State → Bool} (h : nextIs r p = true) : ∃ t, r = .next t := by
  cases r with
  | next t => exact ⟨t, rfl⟩
  | fault _ => cases h
  | refused _ => cases h

/-- A step that answers a next state. -/
def goes (r : Result) : Prop := ∃ t, r = .next t

theorem goes_of_check {r : Result} (h : nextIs r (fun _ => true) = true) : goes r := next_of_nextIs h

/-- Any state, with `e` pending. -/
def facing (e : Event) (s : State) : State := { s with script := [e] }

/-- BUSY, DONE, ERR and DROP as given. -/
def flagged (busy done err drop : Bool) (s : State) : State :=
  { s with status := { busy := busy, done := done, err := err, drop := drop } }

theorem witness_DecodeOfEncode : (Instr.hline 65535).wf = true ∧ (Instr.vline 0).wf = true ∧ Instr.blur.wf = true ∧
    (Instr.extract .a).wf = true ∧ (Instr.pack 1 2 3 255).wf = true := by decide

theorem witness_EncodeOfDecode : decode .cmd 0x0500FFFF = .ok (.vline 65535) ∧ decode .uop 3 = .ok .advance ∧
    decode .sel 3 = .ok (.extract .a) ∧ decode .pixPack 0x01020304 = .ok (.pack 1 2 3 4) := by decide

theorem witness_IllegalWordRaisesIllegalCmd :
    (facing (.regWrite 0 0x06000000) v3).script = [.regWrite 0 0x06000000] ∧
    (∃ e, decode .cmd 0x06000000 = .error e) ∧ v3.status.busy = false ∧ v3.status.err = false :=
  ⟨rfl, ⟨_, rfl⟩, rfl, rfl⟩

theorem witness_StepRunsDecodedInstruction :
    ((commanded 0x04000000 v3).script = [.regWrite 0 0x04000000] ∧ decode .cmd 0x04000000 = .ok (.hline 0)) ∧
    (EngineNext (v3At 2) ∧ (v3At 2).status.busy = true ∧ decode .uop (zext32 (v3At 2).seq.uop.code) = .ok .advance) ∧
    (EngineNext (facing .engine (v3At 0)) ∧ (facing .engine (v3At 0)).status.busy = true) ∧
    ((facing (.codecSelect 7 2) v3).script = [.codecSelect 7 2] ∧ decode .sel (zext32 (2 : BitVec 2)) = .ok (.extract .r)) ∧
    ((facing (.codecUnpack 7) v3).script = [.codecUnpack 7] ∧ decode .pixUnpack 7 = .ok (.unpack 7)) ∧
    ((facing (.codecPack 7) v3).script = [.codecPack 7] ∧ decode .pixPack 7 = .ok (.pack 0 0 0 7)) :=
  ⟨⟨rfl, by decide⟩, ⟨.inl v3_script.2.2.1, v3_busy.2.2.1, by rw [v3_uops.2.2.1]; decide⟩,
    ⟨.inr rfl, v3_busy.1⟩, ⟨rfl, by decide⟩, ⟨rfl, by decide⟩, ⟨rfl, by decide⟩⟩

theorem witness_CodecFunctionsAreInverse :
    goes (exec (.pack 1 2 3 4) v3) ∧ goes (exec (.extract .a) v3) ∧ goes (exec (.extract .r) v3) ∧
    goes (exec (.extract .g) v3) ∧ goes (exec (.extract .b) v3) :=
  ⟨⟨_, rfl⟩, ⟨_, rfl⟩, ⟨_, rfl⟩, ⟨_, rfl⟩, ⟨_, rfl⟩⟩

/-- A row and a column of a grid two by two, the last of each kind. -/
def lastRow : State := { grid 2 2 1 with seq := { pass := .h, line := 1, pos := 0, uop := .seed } }
def lastColumn : State := { grid 2 2 1 with seq := { pass := .v, line := 1, pos := 0, uop := .seed } }
def firstRow : State := { grid 2 2 1 with seq := { pass := .h, line := 0, pos := 0, uop := .seed } }

/-- Both passes, and a line at the edge of the largest grid, read at its last position. -/
theorem witness_LineGeometry : lastRow.seq.pass = .h ∧ lastColumn.seq.pass = .v ∧
    65534 < lineLen { grid 65535 65535 1 with seq := { pass := .v, line := 65534, pos := 0, uop := .seed } } := by
  decide +kernel

theorem witness_LinesPartitionTheGrid :
    (firstRow.width = lastRow.width ∧ firstRow.seq.pass = lastRow.seq.pass ∧ lastRow.seq.line.toNat < passLines lastRow ∧
      firstRow.seq.line.toNat < passLines firstRow ∧ 1 < lineLen lastRow ∧ lineIndex lastRow 1 = 3) ∧
    (lastColumn.width = lastRow.width ∧ lastRow.seq.pass = .h ∧ lastColumn.seq.pass = .v ∧
      lastColumn.seq.line.toNat < passLines lastColumn ∧ lineIndex lastRow 1 = lineIndex lastColumn 1) := by
  decide +kernel

theorem witness_SeedFillsWindowAndSums : 0 < lineLen (v3At 0) ∧ (v3At 0).radius.val = 1 ∧
    ∀ k, k ≤ min (v3At 0).radius.val (lineLen (v3At 0) - 1) → lineIndex (v3At 0) k < (v3At 0).backed := by
  have hr : (v3At 0).radius.val = 1 := by decide +kernel
  have hn : lineLen (v3At 0) = 2 := by decide +kernel
  refine ⟨by omega, hr, fun k hk => ?_⟩
  have h0 : lineIndex (v3At 0) 0 < (v3At 0).backed := by decide +kernel
  have h1 : lineIndex (v3At 0) 1 < (v3At 0).backed := by decide +kernel
  obtain rfl | rfl : k = 0 ∨ k = 1 := by omega
  · exact h0
  · exact h1

theorem witness_EmitWritesCurrentOutput : lineIndex (v3At 3) (v3At 3).seq.pos.toNat < (v3At 3).backed ∧
    Memory.wf (v3At 3).mem ∧ (v3At 3).div ≠ 0 ∧ (v3At 3).blurAlpha = true := by decide +kernel

theorem witness_AdvanceSlidesWindow : (v3At 2).seq.pos.toNat + 1 < lineLen (v3At 2) ∧
    lineIndex (v3At 2) (min ((v3At 2).seq.pos.toNat + (v3At 2).radius.val + 1) (lineLen (v3At 2) - 1)) <
      (v3At 2).backed := by decide +kernel

/-- The four ends of an EMIT: the line goes on; a line command is done; a next row follows; BLUR turns to columns; the
last column is done. -/
theorem witness_EmitSequencing :
    ((v3At 1).seq.pos.toNat + 1 < lineLen (v3At 1) ∧ goes (exec .emit (v3At 1))) ∧
    (lineLen (v3At 3) ≤ (v3At 3).seq.pos.toNat + 1 ∧ (v3At 3).opc = 0x04 ∧ goes (exec .emit (v3At 3))) ∧
    (fun s : State => lineLen s ≤ s.seq.pos.toNat + 1 ∧ s.seq.line.toNat + 1 < passLines s ∧ goes (exec .emit s))
      { firstRow with opc := 0x01, seq := { firstRow.seq with pos := 1, uop := .emit } , div := 4 } ∧
    (fun s : State => lineLen s ≤ s.seq.pos.toNat + 1 ∧ passLines s ≤ s.seq.line.toNat + 1 ∧ s.seq.pass = .h ∧
      goes (exec .emit s)) { lastRow with opc := 0x01, seq := { lastRow.seq with pos := 1, uop := .emit }, div := 4 } ∧
    (fun s : State => lineLen s ≤ s.seq.pos.toNat + 1 ∧ passLines s ≤ s.seq.line.toNat + 1 ∧ s.seq.pass = .v ∧
      goes (exec .emit s)) { lastColumn with opc := 0x01, seq := { lastColumn.seq with pos := 1, uop := .emit }, div := 4 } := by
  refine ⟨⟨by decide +kernel, goes_of_check (by decide +kernel)⟩,
    ⟨by decide +kernel, by decide +kernel, goes_of_check (by decide +kernel)⟩,
    ⟨by decide +kernel, by decide +kernel, goes_of_check (by decide +kernel)⟩,
    ⟨by decide +kernel, by decide +kernel, rfl, goes_of_check (by decide +kernel)⟩,
    ⟨by decide +kernel, by decide +kernel, rfl, goes_of_check (by decide +kernel)⟩⟩

/-- A platform that backs one pixel of a line of two. -/
theorem witness_UnbackedPixelStopsEngine :
    (1 ≤ min (v3At 0).radius.val (lineLen (v3At 0) - 1) ∧ { v3At 0 with backed := 1 }.backed ≤ lineIndex (v3At 0) 1) ∧
    { v3At 3 with backed := 1 }.backed ≤ lineIndex (v3At 3) (v3At 3).seq.pos.toNat ∧
    { v3At 2 with backed := 1 }.backed ≤ lineIndex (v3At 2)
      (min ((v3At 2).seq.pos.toNat + (v3At 2).radius.val + 1) (lineLen (v3At 2) - 1)) := by decide +kernel

theorem witness_AccumulatorsAndQuotientsBounded :
    Inv (v3At 2) ∧ (v3At 2).status.busy = true ∧ (v3At 2).seq.uop ≠ .seed :=
  ⟨v3_inv_advance, v3_busy.2.2.1, by rw [v3_uops.2.2.1]; decide⟩

/-- Two states that differ in lane R only. -/
def otherRed (s : State) : State := { s with sum := { s.sum with r := 77 }, sumIn := { s.sumIn with r := 3 } }

theorem sameLane_otherRed (s : State) : SameLane .b s (otherRed s) :=
  ⟨rfl, rfl, rfl, fun _ => rfl, fun _ => rfl, rfl, rfl, rfl, ⟨rfl, rfl, rfl, rfl, rfl⟩⟩

theorem witness_LanesAreIndependent :
    SameLane .b (v3At 2) (otherRed (v3At 2)) ∧ (v3At 2).sum ≠ (otherRed (v3At 2)).sum ∧ Memory.wf (v3At 2).mem ∧
    (goes (exec .seed (v3At 2)) ∧ goes (exec .seed (otherRed (v3At 2)))) ∧
    (goes (exec .emit (v3At 2)) ∧ goes (exec .emit (otherRed (v3At 2)))) ∧
    (goes (exec .advance (v3At 2)) ∧ goes (exec .advance (otherRed (v3At 2)))) :=
  ⟨sameLane_otherRed _, by decide +kernel, by decide +kernel,
    ⟨goes_of_check (by decide +kernel), goes_of_check (by decide +kernel)⟩,
    ⟨goes_of_check (by decide +kernel), goes_of_check (by decide +kernel)⟩,
    ⟨goes_of_check (by decide +kernel), goes_of_check (by decide +kernel)⟩⟩

theorem witness_CommandsStart : v3.status.busy = false ∧ v3.status.err = false ∧ GridLegal v3 ∧
    0 < v3.height.toNat ∧ 1 < v3.width.toNat := ⟨rfl, rfl, v3_legal, by decide +kernel, by decide +kernel⟩

theorem witness_CommandWriteDropped :
    ((commanded 0x01000000 (v3At 1)).script = [.regWrite 0 0x01000000] ∧ (commanded 0x01000000 (v3At 1)).status.busy = true) ∧
    ((commanded 0x01000000 (flagged false false true false v3)).status.err = true) :=
  ⟨⟨rfl, v3_busy.2.1⟩, rfl⟩

theorem witness_IllegalConfigurationRaisesError :
    (Instr.hline 3).format = .cmd ∧ v3.status.busy = false ∧ v3.status.err = false ∧
    (grid 0 1 1).width = 0 ∧ (grid 1 0 1).height = 0 ∧
    ((grid 1 1 0).width ≠ 0 ∧ (grid 1 1 0).height ≠ 0 ∧ (grid 1 1 0).radius = 0) ∧
    (fun s : State => s.width ≠ 0 ∧ s.height ≠ 0 ∧ s.radius ≠ 0 ∧ s.buflen.toNat < s.width.toNat * s.height.toNat)
      { grid 4 4 1 with buflen := 15 } := by decide +kernel

/-- Both bounds: the first line outside the grid and the largest index. -/
theorem witness_LineOutsideGridRaisesBadLine : (1 : Nat) < 2 ^ 16 ∧ 65535 < 2 ^ 16 ∧ v3.status.busy = false ∧
    v3.status.err = false ∧ GridLegal v3 ∧ v3.height.toNat ≤ 1 ∧ v3.width.toNat ≤ 2 :=
  ⟨by decide, by decide, rfl, rfl, v3_legal, by decide +kernel, by decide +kernel⟩

theorem witness_GeometryProductExact :
    gridFault { grid 65535 65535 1 with buflen := 0xfffe0000 } = some (.invalidGeometry, 0xfffe0001) := by
  decide +kernel

theorem witness_RegisterReadValues : (facing (.regRead 9) v3).script = [.regRead 9] ∧
    (facing (.regRead 1) v3).script = [.regRead 1] ∧ (facing (.regRead 1) (v3At 1)).status.busy = true ∧
    10 ≤ (10 : BitVec 4).toNat ∧ 10 ≤ (15 : BitVec 4).toNat := ⟨rfl, rfl, v3_busy.2.1, by decide, by decide⟩

theorem witness_RegisterWritesWhenIdle : (facing (.regWrite 7 254) v3).script = [.regWrite 7 254] ∧
    (facing (.regWrite 7 255) v3).status.busy = false ∧ 8 ≤ (8 : BitVec 4).toNat ∧ 8 ≤ (15 : BitVec 4).toNat :=
  ⟨rfl, rfl, by decide, by decide⟩

theorem witness_ConfigurationWritesDroppedWhileBusy :
    (facing (.regWrite 7 9) (v3At 1)).script = [.regWrite 7 9] ∧ (facing (.regWrite 7 9) (v3At 1)).status.busy = true :=
  ⟨rfl, v3_busy.2.1⟩

theorem witness_StatusWriteClearsFlags : (facing (.regWrite 1 0xE) v3).script = [.regWrite 1 0xE] := rfl

theorem witness_ConfigurationConstantWhileBusy : (v3At 1).status.busy = true ∧ (v3At 1).script.head? ≠ some .rst ∧
    goes (step (v3At 1)) ∧ goes (step (facing (.regWrite 7 9) (v3At 1))) :=
  ⟨v3_busy.2.1, by rw [v3_script.2.1]; decide, goes_of_check (by decide +kernel), goes_of_check (by decide +kernel)⟩

theorem witness_ResetEventAbandonsCommand : (facing .rst (v3At 3)).script = [.rst] ∧
    (facing .rst (v3At 3)).status.busy = true := ⟨rfl, v3_busy.2.2.2.1⟩

theorem witness_IdleEngineHasNoStep : EngineNext v3 ∧ EngineNext (facing .engine v3) ∧ v3.status.busy = false :=
  ⟨.inl rfl, .inr rfl, rfl⟩

/-- The last pixel of the running command's region, and the first past it. -/
theorem witness_HostPixelAccesses :
    (fun s : State => (2 : Word).toNat < s.backed ∧ s.lent ≤ (2 : Word).toNat ∧ Memory.wf s.mem ∧
      (1 : Word).toNat < s.lent) (v3At 1) := by decide +kernel

theorem witness_HostCannotDisturbRunningCommand : (v3At 1).status.busy = true ∧
    goes (step (facing (.regRead 1) (v3At 1))) ∧ goes (step (facing (.regWrite 1 0xF) (v3At 1))) ∧
    goes (step (facing (.regWrite 0 0x01000000) (v3At 1))) :=
  ⟨v3_busy.2.1, goes_of_check (by decide +kernel), goes_of_check (by decide +kernel), goes_of_check (by decide +kernel)⟩

/-- The same engine beside a different STATUS.DROP and INTEN. -/
theorem witness_EngineStepIsDetermined :
    (fun s s' : State => SameEngine s s' ∧ SameConfig s s' ∧ s'.backed = s.backed ∧ EngineNext s ∧ EngineNext s' ∧
      s.status.busy = true ∧ s'.status.busy = true ∧ goes (step s))
      (v3At 3) { flagged true false false true (v3At 3) with inten := { doneIe := true, errIe := true } } :=
  ⟨⟨rfl, rfl, rfl, rfl, rfl, rfl, rfl, rfl⟩, ⟨rfl, rfl, rfl, rfl, rfl⟩, rfl, .inl v3_script.2.2.2, .inl v3_script.2.2.2,
    v3_busy.2.2.2.1, rfl, goes_of_check (by decide +kernel)⟩

/-- A step of each kind that answers a next state: for the statements about every step. -/
theorem witness_steps : goes (step (v3At 1)) ∧ goes (step (facing (.pixWrite 5 6) v3)) ∧ goes (step (facing .rst (v3At 1))) ∧
    goes (step (commanded 0x01000000 v3)) ∧ goes (step (facing (.codecPack 5) v3)) :=
  ⟨goes_of_check (by decide +kernel), goes_of_check (by decide +kernel), goes_of_check (by decide +kernel),
    goes_of_check (by decide +kernel), goes_of_check (by decide +kernel)⟩

theorem witness_OnlyEmitAndHostChangePixels : goes (step (v3At 2)) := goes_of_check (by decide +kernel)

/-- Both clauses: BUSY rises, and falls. -/
theorem witness_BusyChangesOnlyByCommandCompletionReset :
    ((commanded 0x01000000 v3).status.busy = false ∧ nextIs (step (commanded 0x01000000 v3)) (fun t => t.status.busy) = true) ∧
    ((v3At 3).status.busy = true ∧ nextIs (step (v3At 3)) (fun t => !t.status.busy) = true) := by decide +kernel

theorem witness_RecordedErrorIsKept : (flagged false false true false v3).status.err = true ∧
    goes (step (commanded 0x01000000 (flagged false false true false v3))) :=
  ⟨rfl, goes_of_check (by decide +kernel)⟩

theorem witness_StepKeepsMemoryCanonical : Memory.wf (v3At 3).mem ∧ goes (step (v3At 3)) :=
  ⟨by decide +kernel, goes_of_check (by decide +kernel)⟩

theorem witness_StepKeepsInv : Inv (v3At 3) ∧ goes (step (v3At 3)) := ⟨v3_inv_last, goes_of_check (by decide +kernel)⟩

theorem v3_windowAhead_advance : WindowAhead (v3At 2) := by
  have hr : (v3At 2).radius.val = 1 := by decide +kernel
  have hw : winAt (v3At 2) 2 =
      pixel (v3At 2) (lineIndex (v3At 2) (clampPos (lineLen (v3At 2)) 1 (v3At 2).seq.pos.toNat 2)) := by decide +kernel
  refine fun _ => ⟨fun h => absurd (v3_uops.2.2.1.symm.trans h) (by decide), fun _ i h1 h2 => ?_⟩
  rw [hr] at h1 h2 ⊢
  obtain rfl : i = 2 := by omega
  exact hw

theorem v3_windowAhead_emit : WindowAhead (v3At 3) := by
  have hr : (v3At 3).radius.val = 1 := by decide +kernel
  have hw : ∀ i ∈ [1, 2], winAt (v3At 3) i =
      pixel (v3At 3) (lineIndex (v3At 3) (clampPos (lineLen (v3At 3)) 1 (v3At 3).seq.pos.toNat i)) := by decide +kernel
  refine fun _ => ⟨fun _ i h1 h2 => ?_, fun h => absurd (v3_uops.2.2.2.1.symm.trans h) (by decide)⟩
  rw [hr] at h1 h2 ⊢
  exact hw i (by simp; omega)

theorem witness_StepKeepsWindowAhead : Inv (v3At 2) ∧ WindowAhead (v3At 2) ∧ goes (step (v3At 2)) ∧
    Inv (v3At 3) ∧ WindowAhead (v3At 3) ∧ goes (step (v3At 3)) :=
  ⟨v3_inv_advance, v3_windowAhead_advance, goes_of_check (by decide +kernel), v3_inv_last, v3_windowAhead_emit,
    goes_of_check (by decide +kernel)⟩

theorem witness_AccessesStayInsideLine : Inv (v3At 0) ∧ goes (step (v3At 0)) ∧ Inv (v3At 2) ∧ goes (step (v3At 2)) :=
  ⟨v3_inv_seed, goes_of_check (by decide +kernel), v3_inv_advance, goes_of_check (by decide +kernel)⟩

theorem witness_AdvanceReadsAheadOfWrites : Inv (v3At 2) ∧ (v3At 2).status.busy = true ∧ (v3At 2).seq.uop = .advance ∧
    goes (exec .advance (v3At 2)) :=
  ⟨v3_inv_advance, v3_busy.2.2.1, v3_uops.2.2.1, goes_of_check (by decide +kernel)⟩

theorem v3_backed_running (k : Nat) (h : (v3At k).width.toNat * (v3At k).height.toNat ≤ (v3At k).backed) :
    Backed (v3At k) := h

theorem witness_RunningEngineAlwaysSteps : Inv (v3At 0) ∧ Backed (v3At 0) ∧ (v3At 0).status.busy = true ∧
    EngineNext (v3At 0) := ⟨v3_inv_seed, v3_backed_running 0 (by decide +kernel), v3_busy.1, .inl v3_script.1⟩

theorem witness_SweepWritesLineOut : Inv (v3At 0) ∧ Backed (v3At 0) ∧ (v3At 0).script = [] ∧
    (v3At 0).status.busy = true ∧ (v3At 0).seq.uop = .seed :=
  ⟨v3_inv_seed, v3_backed_running 0 (by decide +kernel), v3_script.1, v3_busy.1, v3_uops.1⟩

/-- The last row and the last column. -/
theorem witness_LineCommandsBlurOneLine :
    (0 < v3.height.toNat ∧ CommandPending (0x04000000 + BitVec.ofNat 32 0) (commanded (0x04000000 + BitVec.ofNat 32 0) v3)) ∧
    (1 < v3.width.toNat ∧ CommandPending (0x05000000 + BitVec.ofNat 32 1) (commanded (0x05000000 + BitVec.ofNat 32 1) v3)) :=
  ⟨⟨by decide +kernel, witness_pending _⟩, ⟨by decide +kernel, witness_pending _⟩⟩

theorem witness_PassCommandsBlurEveryLine :
    CommandPending 0x02000000 (commanded 0x02000000 v3) ∧ CommandPending 0x03000000 (commanded 0x03000000 v3) :=
  ⟨witness_pending _, witness_pending _⟩

theorem witness_BlurEqualsReference : CommandPending 0x01000000 (commanded 0x01000000 v3) := witness_pending _

/-- A grid of one pixel (R100 (a)). -/
def onePixel : State := pixelsFrom 0 [0x12345678] (grid 1 1 254)

theorem witness_UniformGridUnchangedByBlur :
    CommandPending 0x01000000 (commanded 0x01000000 onePixel) ∧
    ∀ i, i < onePixel.width.toNat * onePixel.height.toNat → pixel onePixel i = 0x12345678 := by
  have hp : pixel onePixel 0 = 0x12345678 := by decide +kernel
  have hg : onePixel.width.toNat * onePixel.height.toNat = 1 := by decide +kernel
  refine ⟨⟨rfl, rfl, rfl, ⟨by decide +kernel, by decide +kernel, by decide +kernel, by decide +kernel⟩, ?_,
    inv_of_check rfl fun h => nomatch h⟩, fun i hi => ?_⟩
  · show onePixel.width.toNat * onePixel.height.toNat ≤ onePixel.backed
    decide +kernel
  · obtain rfl : i = 0 := by omega
    exact hp

/-- V3's sweep with CTRL.BLUR_ALPHA = 0. -/
theorem witness_AlphaPassesThrough : (fun s : State => Inv s ∧ Backed s ∧ s.script = [] ∧ s.status.busy = true ∧
    s.seq.uop = .seed ∧ s.blurAlpha = false) { v3At 0 with blurAlpha := false } :=
  ⟨inv_of_check (by decide +kernel) fun _ => running_of_check (by decide +kernel) fun h => absurd v3_uops.1 h,
    v3_backed_running 0 (by decide +kernel), v3_script.1, v3_busy.1, v3_uops.1, rfl⟩

/-- V3's line, whose blue channel lies between 1 and 2, with either setting of CTRL.BLUR_ALPHA. -/
theorem witness_BlurredChannelStaysWithinLineBounds :
    (Inv (v3At 0) ∧ Backed (v3At 0) ∧ (v3At 0).script = [] ∧ (v3At 0).status.busy = true ∧ (v3At 0).seq.uop = .seed ∧
      (v3At 0).blurAlpha = true ∧ lineLen (v3At 0) = 2 ∧
      ∀ k, k < 2 → 1 ≤ chanVal .b (pixel (v3At 0) (lineIndex (v3At 0) k)) ∧
        chanVal .b (pixel (v3At 0) (lineIndex (v3At 0) k)) ≤ 2) ∧
    (fun s : State => Inv s ∧ Backed s ∧ s.script = [] ∧ s.status.busy = true ∧ s.seq.uop = .seed ∧
      s.blurAlpha = false ∧ lineLen s = 2 ∧ ∀ k, k < 2 → 0 ≤ chanVal .a (pixel s (lineIndex s k)) ∧
        chanVal .a (pixel s (lineIndex s k)) ≤ 0) { v3At 0 with blurAlpha := false } := by
  obtain ⟨h1, h2, h3, h4, h5, h6⟩ := witness_AlphaPassesThrough
  exact ⟨⟨v3_inv_seed, v3_backed_running 0 (by decide +kernel), v3_script.1, v3_busy.1, v3_uops.1, by decide +kernel,
    by decide +kernel, by decide +kernel⟩, h1, h2, h3, h4, h5, h6, by decide +kernel, by decide +kernel⟩

end Sys2Proof.Tests
end

section
/-! SUPPORT. Proofs about the state and STATUS (spec/10_state.md R16, R28): the values of reset, and what moves BUSY. -/

namespace Sys2Proof.Proofs.StateFlags

open Sys2Proof.Machine Sys2Proof.Safety Sys2Proof.Laws

/-! ### The state after reset -/

/-- Settles O32: each value is the one `State.reset` writes for it (R28), and irq is computed from STATUS (R118). -/
theorem resetRegisterValues : Obligations.ResetRegisterValues :=
  ⟨rfl, rfl, rfl, rfl, rfl, rfl, rfl, rfl, rfl, rfl, rfl⟩

/-- Settles O42: the reset block is idle with no error recorded, so what `Inv` asks of a running block or of a recorded
error does not arise. -/
theorem invHoldsAfterReset : Obligations.InvHoldsAfterReset where
  memory := reset_memory_wf
  window := Nat.zero_le _
  busyDone := fun ⟨hb, _⟩ => nomatch hb
  busyErr := fun ⟨hb, _⟩ => nomatch hb
  doneErr := fun ⟨hd, _⟩ => nomatch hd
  errcode := ⟨fun he => (nomatch he), fun hc => absurd rfl hc⟩
  errinfo := fun _ => rfl
  idle := fun _ => rfl
  running := fun hb => nomatch hb

/-! ### What moves BUSY -/

@[simp] theorem popped_status (s : State) : (popped s).status = s.status := rfl

@[simp] theorem seeded_status (s : State) : (seeded s).status = s.status := rfl

@[simp] theorem advanced_status (s : State) : (advanced s).status = s.status := rfl

@[simp] theorem hostRegRead_status (n : BitVec 4) (s : State) : (hostRegRead n s).status = s.status := by
  unfold hostRegRead
  rcases handBack_cases n (logHost (.regRead n (regValue s n)) s) with ⟨-, -, h⟩ | h <;> rw [h] <;> rfl

@[simp] theorem writeRegister_busy (n : BitVec 4) (v : Word) (s : State) :
    (writeRegister n v s).status.busy = s.status.busy := by
  obtain ⟨_, _, _, _, _, _, _, _, _, hw, hbusy, -, -⟩ := writeRegister_frame n v s
  rw [hw]
  exact hbusy

/-- Accepting a command never lowers BUSY (R106, R108). -/
theorem acceptCommand_keeps_busy (c : Word) (f : Option (ErrCode × Word)) (p : Pass) (l : Half) {s : State}
    (hb : s.status.busy = true) : (acceptCommand c f p l s).status.busy = true := by
  rcases acceptCommand_cases c f p l s with ⟨-, h⟩ | ⟨hidle, -⟩ | ⟨hidle, -⟩
  · rw [h]
    exact hb
  · exact nomatch hidle.symm.trans hb
  · exact nomatch hidle.symm.trans hb

/-- BUSY in one turn: as it was, or the turn is a CMD write that does not lower it, an EMIT that completes the command,
or a reset. -/
theorem turn_busy_cases {s t : State} (h : Turn s t) :
    t.status.busy = s.status.busy ∨
    (∃ c, s.script.head? = some (.regWrite 0 c) ∧ (s.status.busy = true → t.status.busy = true)) ∨
    (EngineNext s ∧ s.seq.uop = .emit ∧ t.status.busy = false ∧ t.status.done = true) ∨
    (s.script.head? = some .rst ∧ t.status.busy = false) := by
  cases h with
  | idle => exact .inl rfl
  | seed => exact .inl (by simp)
  | emit hturn hbusy huop =>
    obtain ⟨hsame | ⟨hlow, hdone⟩, -⟩ := emitted_status (popped s)
    · exact .inl (by rw [hsame, popped_status])
    · exact .inr (.inr (.inl ⟨hturn, huop, hlow, hdone⟩))
  | advance => exact .inl (by simp)
  | regRead n => exact .inl (by simp)
  | regWrite n v => exact .inl (by simp)
  | command c f p l hhead => exact .inr (.inl ⟨c, hhead, fun hb => acceptCommand_keeps_busy c f p l (by simpa using hb)⟩)
  | pixRead i => exact .inl rfl
  | pixWrite i v => exact .inl rfl
  | rst hhead => exact .inr (.inr (.inr ⟨hhead, rfl⟩))
  | codec k => exact .inl rfl

/-- Settles O39, from the one list of what a turn does to BUSY. -/
theorem busyChangesOnlyByCommandCompletionReset : Obligations.BusyChangesOnlyByCommandCompletionReset := by
  intro s t hstep
  rcases turn_busy_cases (step_turn hstep) with hsame | ⟨c, hhead, hkeep⟩ | ⟨hturn, huop, hlow, hdone⟩ | ⟨hhead, hlow⟩
  · rw [hsame]
    exact ⟨fun h0 h1 => (nomatch h0.symm.trans h1), fun h1 h0 => nomatch h0.symm.trans h1⟩
  · exact ⟨fun _ _ => ⟨c, hhead⟩, fun h1 h0 => nomatch h0.symm.trans (hkeep h1)⟩
  · exact ⟨fun _ h1 => (nomatch hlow.symm.trans h1), fun _ _ => .inl ⟨hturn, huop, hdone⟩⟩
  · exact ⟨fun _ h1 => (nomatch hlow.symm.trans h1), fun _ _ => .inr hhead⟩

end Sys2Proof.Proofs.StateFlags
end

section
/-! SUPPORT. Proofs about pixel memory (spec/20_memory.md R30, R32, R36, R40, R41): which steps change it, which
accesses the pixel port sees, where the engine stops, and the host's own accesses. -/

namespace Sys2Proof.Proofs.PixelMemory

open Sys2Proof.Machine Sys2Proof.Safety Sys2Proof.Laws

/-! ### What leaves memory and the access list alone -/

@[simp] theorem popped_mem (s : State) : (popped s).mem = s.mem := rfl
@[simp] theorem popped_accesses (s : State) : (popped s).accesses = s.accesses := rfl

@[simp] theorem hostRegRead_mem (n : BitVec 4) (s : State) : (hostRegRead n s).mem = s.mem := by
  unfold hostRegRead
  rcases handBack_cases n (logHost (.regRead n (regValue s n)) s) with ⟨-, -, h⟩ | h <;> rw [h] <;> rfl

@[simp] theorem hostRegRead_accesses (n : BitVec 4) (s : State) : (hostRegRead n s).accesses = s.accesses := by
  unfold hostRegRead
  rcases handBack_cases n (logHost (.regRead n (regValue s n)) s) with ⟨-, -, h⟩ | h <;> rw [h] <;> rfl

@[simp] theorem writeRegister_mem (n : BitVec 4) (v : Word) (s : State) : (writeRegister n v s).mem = s.mem := by
  obtain ⟨_, _, _, _, _, _, _, _, _, hw, -⟩ := writeRegister_frame n v s
  rw [hw]

@[simp] theorem writeRegister_accesses (n : BitVec 4) (v : Word) (s : State) :
    (writeRegister n v s).accesses = s.accesses := by
  obtain ⟨_, _, _, _, _, _, _, _, _, hw, -⟩ := writeRegister_frame n v s
  rw [hw]

section
variable (c : Word) (f : Option (ErrCode × Word)) (p : Pass) (l : Half) (s : State)

@[simp] theorem acceptCommand_mem : (acceptCommand c f p l s).mem = s.mem := by
  rcases acceptCommand_cases c f p l s with ⟨-, h⟩ | ⟨-, -, e, i, -, h⟩ | ⟨-, -, -, h⟩ <;> rw [h] <;> rfl

@[simp] theorem acceptCommand_accesses : (acceptCommand c f p l s).accesses = s.accesses := by
  rcases acceptCommand_cases c f p l s with ⟨-, h⟩ | ⟨-, -, e, i, -, h⟩ | ⟨-, -, -, h⟩ <;> rw [h] <;> rfl

end

/-! ### Which turns change memory -/

/-- Memory after one turn: as it was, or one pixel of the current line written by an EMIT, or one pixel written by the
host. -/
theorem turn_mem_cases {s t : State} (h : Turn s t) :
    t.mem = s.mem ∨
    (s.status.busy = true ∧ s.seq.uop = .emit ∧ EngineNext s ∧
      ∃ v, t.mem = writePixel s.mem (lineIndex s s.seq.pos.toNat) v) ∨
    (∃ i v, s.script.head? = some (.pixWrite i v) ∧ t.mem = writePixel s.mem i.toNat v) := by
  cases h with
  | idle => exact .inl rfl
  | seed => exact .inl rfl
  | emit hturn hbusy huop => exact .inr (.inl ⟨hbusy, huop, hturn, _, emitted_mem (popped s)⟩)
  | advance => exact .inl rfl
  | regRead n => exact .inl (by simp)
  | regWrite n v => exact .inl (by simp)
  | command c f p l => exact .inl (by simp)
  | pixRead i => exact .inl rfl
  | pixWrite i v hhead => exact .inr (.inr ⟨i, v, hhead, rfl⟩)
  | rst => exact .inl rfl
  | codec k => exact .inl rfl

/-- Settles O38: of the three things a turn can do to memory, two are the ones named and the third leaves it alone. -/
theorem onlyEmitAndHostChangePixels : Obligations.OnlyEmitAndHostChangePixels := by
  intro s t hstep
  rcases turn_mem_cases (step_turn hstep) with hsame | ⟨hbusy, huop, hturn, -⟩ | ⟨i, v, hhead, -⟩
  · exact .inr (.inr hsame)
  · exact .inl ⟨hbusy, huop, hturn⟩
  · exact .inr (.inl ⟨i, v, hhead⟩)

/-- Settles O41: a turn writes at most one pixel, and its index lies in the 32-bit pixel space whatever the registers
hold, so the write keeps the canonical form. -/
theorem stepKeepsMemoryCanonical : Obligations.StepKeepsMemoryCanonical := by
  intro s t hwf hstep
  rcases turn_mem_cases (step_turn hstep) with hmem | ⟨-, -, -, v, hmem⟩ | ⟨i, v, -, hmem⟩ <;> rw [hmem]
  · exact hwf
  · exact wf_writePixel hwf (lineIndex_lt s s.seq.pos.isLt) v
  · exact wf_writePixel hwf i.isLt v

/-! ### Which accesses a turn makes -/

/-- The pending micro-operation accesses position `k` of the current line (R72, R75, R77). -/
def UopAccesses (s : State) (k : Nat) : Prop :=
  (s.seq.uop = .seed ∧ k ≤ seedLast s) ∨ (s.seq.uop = .emit ∧ k = s.seq.pos.toNat) ∨
    (s.seq.uop = .advance ∧ k = advancePos s)

/-- An access at the index of a position that the pending micro-operation of a busy block accesses. -/
def EngineAccess (s : State) (a : Access) : Prop :=
  s.status.busy = true ∧ ∃ k, UopAccesses s k ∧ (a = .read (lineIndex s k) ∨ ∃ v, a = .write (lineIndex s k) v)

/-- What one turn adds to the access list is the engine's. -/
theorem turn_accesses {s t : State} (h : Turn s t) :
    ∃ l, t.accesses = s.accesses ++ l ∧ ∀ a ∈ l, EngineAccess s a := by
  have silent (hsame : t.accesses = s.accesses) : ∃ l, t.accesses = s.accesses ++ l ∧ ∀ a ∈ l, EngineAccess s a :=
    ⟨[], by rw [hsame, List.append_nil], fun _ ha => nomatch ha⟩
  cases h with
  | idle => exact silent rfl
  | seed hturn hbusy huop =>
    refine ⟨_, rfl, fun a ha => ⟨hbusy, ?_⟩⟩
    obtain ⟨k, hk, rfl⟩ := List.mem_map.mp ha
    exact ⟨k, .inl ⟨huop, Nat.lt_succ_iff.mp (List.mem_range.mp hk)⟩, .inl rfl⟩
  | emit hturn hbusy huop =>
    refine ⟨_, emitted_accesses (popped s), fun a ha => ⟨hbusy, ?_⟩⟩
    exact ⟨_, .inr (.inl ⟨huop, rfl⟩), .inr ⟨_, List.mem_singleton.mp ha⟩⟩
  | advance hturn hbusy huop =>
    refine ⟨_, rfl, fun a ha => ⟨hbusy, ?_⟩⟩
    exact ⟨_, .inr (.inr ⟨huop, rfl⟩), .inl (List.mem_singleton.mp ha)⟩
  | regRead n => exact silent (by simp)
  | regWrite n v => exact silent (by simp)
  | command c f p l => exact silent (by simp)
  | pixRead i => exact silent rfl
  | pixWrite i v => exact silent rfl
  | rst => exact silent rfl
  | codec k => exact silent rfl

/-- A legal grid has no empty line. -/
theorem lineLen_pos {s : State} (h : GridLegal s) : 0 < lineLen s := by
  cases hp : s.seq.pass with
  | h => rw [lineLen_row hp]; exact h.width
  | v => rw [lineLen_column hp]; exact h.height

/-- While a command runs every micro-operation stays on its line: SEED and ADVANCE clamp their positions to the last
one (R72, R77), and SEQ.POS of an EMIT is on the line by R17. -/
theorem UopAccesses.lt_lineLen {s : State} {k : Nat} (h : UopAccesses s k) (hr : Running s) : k < lineLen s := by
  have hlen := lineLen_pos hr.legal
  rcases h with ⟨-, hk⟩ | ⟨huop, rfl⟩ | ⟨-, rfl⟩
  · unfold seedLast at hk
    omega
  · exact hr.pos (by rw [huop]; decide)
  · unfold advancePos
    omega

/-- Settles O45: an accessed position is on the current line, a line of the grid lies inside the grid, and a legal grid
lies inside the declared buffer (R32, R120). -/
theorem accessesStayInsideLine : Obligations.AccessesStayInsideLine := by
  intro s t hinv hstep
  obtain ⟨l, hl, hacc⟩ := turn_accesses (step_turn hstep)
  refine ⟨l, hl, fun a ha => ?_⟩
  obtain ⟨hbusy, k, huop, hat⟩ := hacc a ha
  have hrun := hinv.running hbusy
  have hk := huop.lt_lineLen hrun
  have hgrid : lineIndex s k < s.width.toNat * s.height.toNat := lineIndex_lt_grid hrun.line hk
  exact ⟨hbusy, k, hk, hat, hgrid, Nat.lt_of_lt_of_le hgrid hrun.legal.fits⟩

/-! ### Where the engine stops -/

theorem positionsBacked_eq_false {s : State} {ks : List Nat} {k : Nat} (hk : k ∈ ks) (h : s.backed ≤ lineIndex s k) :
    positionsBacked s ks = false :=
  Bool.eq_false_iff.mpr fun hb => Nat.not_lt.mpr h ((positionsBacked_iff s ks).mp hb k hk)

theorem execSeed_of_unbacked {s : State} {k : Nat} (hk : k ≤ seedLast s) (h : s.backed ≤ lineIndex s k) :
    execSeed s = .fault .unbackedPixel := by
  have hmem : k ∈ List.range (seedLast s + 1) := List.mem_range.mpr (Nat.lt_succ_of_le hk)
  simp [execSeed, positionsBacked_eq_false hmem h]

theorem execEmit_of_unbacked {s : State} (h : s.backed ≤ lineIndex s s.seq.pos.toNat) :
    execEmit s = .fault .unbackedPixel := by
  simp [execEmit, positionsBacked_eq_false (List.mem_singleton_self _) h]

theorem execAdvance_of_unbacked {s : State} (h : s.backed ≤ lineIndex s (advancePos s)) :
    execAdvance s = .fault .unbackedPixel := by
  simp [execAdvance, positionsBacked_eq_false (List.mem_singleton_self _) h]

/-- Settles O18: one unbacked position fails the micro-operation's check of its whole list (R36). -/
theorem unbackedPixelStopsEngine : Obligations.UnbackedPixelStopsEngine := fun _ =>
  ⟨fun _ hk h => execSeed_of_unbacked hk h, execEmit_of_unbacked, execAdvance_of_unbacked⟩

/-! ### The host's own accesses -/

/-- A step serves the oldest pending event. -/
theorem step_of_script {s : State} {e : Event} {rest : List Event} (h : s.script = e :: rest) :
    step s = serve e { s with script := rest } := by
  unfold step takeTurn
  rw [h]

section
variable {i : Word} {s : State} (k : State → State) (v : Word) (hb : i.toNat < s.backed)
include hb

theorem hostPixel_of_free (hl : s.lent ≤ i.toNat) : hostPixel i s k = .next (k s) := by
  rw [hostPixel, if_neg (Nat.not_le.mpr hb), if_neg (Nat.not_lt.mpr hl)]

theorem hostPixel_of_lent (hl : i.toNat < s.lent) : hostPixel i s k = .fault .bufferRace := by
  rw [hostPixel, if_neg (Nat.not_le.mpr hb), if_pos hl]

theorem hostPixRead_of_free (hl : s.lent ≤ i.toNat) :
    hostPixRead i s = .next (logHost (.pixRead i (readPixel s.mem i.toNat)) s) :=
  hostPixel_of_free _ hb hl

theorem hostPixWrite_of_free (hl : s.lent ≤ i.toNat) :
    hostPixWrite i v s = .next (logHost (.pixWrite i v) { s with mem := writePixel s.mem i.toNat v }) :=
  hostPixel_of_free _ hb hl

theorem hostPixRead_of_lent (hl : i.toNat < s.lent) : hostPixRead i s = .fault .bufferRace :=
  hostPixel_of_lent _ hb hl

theorem hostPixWrite_of_lent (hl : i.toNat < s.lent) : hostPixWrite i v s = .fault .bufferRace :=
  hostPixel_of_lent _ hb hl

end

/-- Settles O35: the step serves the pixel access, which is free or a race; a free write is one `writePixel`, read back
and framed by the rules of Laws/Memory. -/
theorem hostPixelAccesses : Obligations.HostPixelAccesses := by
  refine ⟨fun s i rest hs hb hl => ?read, fun s i v rest hs hb hl hwf => ?write, fun s i rest hs hb hl => ?readRace,
    fun s i v rest hs hb hl => ?writeRace⟩ <;> rw [step_of_script hs]
  case read => exact hostPixRead_of_free hb hl
  case write =>
    exact ⟨_, hostPixWrite_of_free v hb hl, readPixel_writePixel_same hwf i.isLt v,
      fun _ ha => readByte_writePixel_other s.mem ha v, rfl⟩
  case readRace => exact hostPixRead_of_lent hb hl
  case writeRace => exact hostPixWrite_of_lent v hb hl

end Sys2Proof.Proofs.PixelMemory
end

section
/-! SUPPORT. Proofs about the encodings (spec/30_encoding.md R45 to R53): the decoder and the encoder are inverse to
each other, which words select which row of the command table, and what an illegal command word does. -/

namespace Sys2Proof.Proofs.Encoding

open Sys2Proof.Machine Sys2Proof.Laws

/-! ### The two-bit formats and the pixel formats -/

theorem toNat_zext32_code (u : BitVec 2) : (zext32 u).toNat = u.toNat :=
  BitVec.toNat_setWidth_of_le (by decide)

/-- A two-bit code, widened to a word, is read back whole (R47). -/
@[simp] theorem decodeNarrow_zext32 (f : BitVec 2 → Except DecodeError Instr) (u : BitVec 2) :
    decodeNarrow f (zext32 u) = f u := by
  have hlt : (zext32 u).toNat < 4 := by rw [toNat_zext32_code]; exact u.isLt
  rw [decodeNarrow, if_pos hlt, zext32, BitVec.setWidth_setWidth_of_le u (by decide), BitVec.setWidth_eq]

/-- A word that a two-bit format accepts holds nothing above its code (R47). -/
theorem decodeNarrow_ok {f : BitVec 2 → Except DecodeError Instr} {w : Word} {i : Instr}
    (h : decodeNarrow f w = .ok i) : ∃ u, w = zext32 u ∧ f u = .ok i := by
  unfold decodeNarrow at h
  split at h
  case isTrue hlt =>
    refine ⟨w.setWidth 2, BitVec.eq_of_toNat_eq ?_, h⟩
    rw [toNat_zext32_code, BitVec.toNat_setWidth, Nat.mod_eq_of_lt hlt]
  case isFalse => cases h

/-- The micro-operation codes are the encodings of the micro-operations (R51). -/
theorem decodeUop_ok {u : BitVec 2} {i : Instr} (h : decodeUop u = .ok i) :
    i.wf = true ∧ i.format = .uop ∧ encode i = zext32 u := by
  unfold decodeUop at h
  split at h
  · subst u; cases h; decide
  · split at h
    · subst u; cases h; decide
    · split at h
      · subst u; cases h; decide
      · cases h

@[simp] theorem ofCode_code (c : Channel) : Channel.ofCode c.code = c := by cases c <;> rfl

@[simp] theorem code_ofCode (u : BitVec 2) : (Channel.ofCode u).code = u := by
  revert u
  decide

/-- PACK's operands are the channels of its PIX word (R45, R60, R62). -/
theorem decodePack_eq (w : Word) :
    decodePack w =
      .pack (extractChannel w .a) (extractChannel w .r) (extractChannel w .g) (extractChannel w .b) := rfl

@[simp] theorem decodePack_packPixel (a r g b : Byte) : decodePack (packPixel a r g b) = .pack a r g b := by
  rw [decodePack_eq, extract_pack_a, extract_pack_r, extract_pack_g, extract_pack_b]

@[simp] theorem encode_decodePack (w : Word) : encode (decodePack w) = w := pack_extract w

/-! ### Decoding what was encoded -/

theorem lineIndexFits_iff {k : Nat} : lineIndexFits k = true ↔ k < 2 ^ 16 := decide_eq_true_iff

/-- A line index that fits stands in ARG unchanged (R48). -/
theorem toNat_argField_lineWord (o : Byte) {k : Nat} (h : lineIndexFits k = true) :
    (argField (lineWord o k)).toNat = k := by
  rw [argField_lineWord, BitVec.toNat_ofNat, Nat.mod_eq_of_lt (lineIndexFits_iff.mp h)]

theorem decodeCmd_hline {y : Nat} (h : lineIndexFits y = true) : decodeCmd (lineWord 0x04 y) = .ok (.hline y) := by
  simp [decodeCmd, zeroField_lineWord, opcodeField_lineWord, toNat_argField_lineWord _ h]

theorem decodeCmd_vline {x : Nat} (h : lineIndexFits x = true) : decodeCmd (lineWord 0x05 x) = .ok (.vline x) := by
  simp [decodeCmd, zeroField_lineWord, opcodeField_lineWord, toNat_argField_lineWord _ h]

/-- Settles O2, one case per instruction: fixed words are evaluated, a line index comes back out of ARG, and a codec
word's operands out of their bits. -/
theorem decodeOfEncode : Obligations.DecodeOfEncode := by
  intro i hwf
  cases i with
  | blur => rfl
  | hpass => rfl
  | vpass => rfl
  | hline y => exact decodeCmd_hline hwf
  | vline x => exact decodeCmd_vline hwf
  | seed => rfl
  | emit => rfl
  | advance => rfl
  | extract c => simp [decode, encode, Instr.format]
  | unpack p => rfl
  | pack a r g b => exact congrArg Except.ok (decodePack_packPixel a r g b)

/-! ### Encoding what was decoded -/

/-- A command word with ZERO and ARG both 0 is its opcode alone (R48). -/
theorem lineWord_of_opcode {c : Word} {o : Byte} (hz : zeroField c = 0) (ho : opcodeField c = o)
    (ha : argField c = 0) : lineWord o 0 = c := by
  have h := lineWord_of_fields hz ho
  rwa [ha] at h

theorem lineIndexFits_toNat (a : Half) : lineIndexFits a.toNat = true := lineIndexFits_iff.mpr a.isLt

/-- A command word that decodes is the encoding of its command (R48, R49). -/
theorem encode_of_decodeCmd {c : Word} {i : Instr} (h : decodeCmd c = .ok i) :
    i.wf = true ∧ i.format = .cmd ∧ encode i = c := by
  obtain ⟨hz, ⟨rfl, ho, ha⟩ | ⟨rfl, ho, ha⟩ | ⟨rfl, ho, ha⟩ | ⟨rfl, ho⟩ | ⟨rfl, ho⟩⟩ := decodeCmd_ok h
  · exact ⟨rfl, rfl, lineWord_of_opcode hz ho ha⟩
  · exact ⟨rfl, rfl, lineWord_of_opcode hz ho ha⟩
  · exact ⟨rfl, rfl, lineWord_of_opcode hz ho ha⟩
  · exact ⟨lineIndexFits_toNat _, rfl, lineWord_of_fields hz ho⟩
  · exact ⟨lineIndexFits_toNat _, rfl, lineWord_of_fields hz ho⟩

/-- Settles O3, one case per format: each decoder accepts only words its instruction encodes to. -/
theorem encodeOfDecode : Obligations.EncodeOfDecode := by
  intro f w i h
  cases f with
  | cmd => exact encode_of_decodeCmd h
  | uop =>
    obtain ⟨u, rfl, hu⟩ := decodeNarrow_ok h
    exact decodeUop_ok hu
  | sel =>
    obtain ⟨u, rfl, hu⟩ := decodeNarrow_ok (f := fun u => .ok (.extract (Channel.ofCode u))) h
    cases hu
    exact ⟨rfl, rfl, congrArg zext32 (code_ofCode u)⟩
  | pixUnpack =>
    cases h
    exact ⟨rfl, rfl, rfl⟩
  | pixPack =>
    cases h
    exact ⟨rfl, rfl, encode_decodePack w⟩

/-- The decoder answers exactly the well-formed instructions of its format, each for its one word. -/
theorem decode_ok_iff {f : Format} {w : Word} {i : Instr} :
    decode f w = .ok i ↔ i.wf = true ∧ i.format = f ∧ encode i = w :=
  ⟨encodeOfDecode f w i, fun ⟨hwf, hf, hw⟩ => hf ▸ hw ▸ decodeOfEncode i hwf⟩

/-! ### The rows of the command table -/

theorem and_fullMask (c : Word) : c &&& 0xFFFFFFFF = c := BitVec.and_allOnes

/-- The mask of the line commands keeps OPCODE and ZERO (R49). -/
theorem toNat_and_highMask (c : Word) : (c &&& 0xFFFF0000).toNat = c.toNat / 2 ^ 16 * 2 ^ 16 := by
  have hmask : (0xFFFF0000 : Word) = BitVec.allOnes 32 <<< 16 := by decide
  have hc := c.isLt
  rw [hmask, ← BitVec.shiftLeft_ushiftRight, BitVec.toNat_shiftLeft, BitVec.toNat_ushiftRight,
    Nat.shiftRight_eq_div_pow, Nat.shiftLeft_eq]
  omega

/-- The low 16 bits are ARG (R48). -/
theorem toNat_and_lowMask (c : Word) : (c &&& 0xFFFF).toNat = c.toNat % 2 ^ 16 := by
  rw [BitVec.toNat_and]
  exact Nat.and_two_pow_sub_one_eq_mod c.toNat 16

theorem toNat_lineWord (o : Byte) {k : Nat} (hk : k < 2 ^ 16) :
    (lineWord o k).toNat = o.toNat * 2 ^ 24 + k := by
  have harg : (BitVec.ofNat 16 k).toNat = k := by rw [BitVec.toNat_ofNat, Nat.mod_eq_of_lt hk]
  have hzero : (0 : Byte).toNat = 0 := rfl
  rw [lineWord, BitVec.toNat_append, BitVec.toNat_append, harg, hzero, Nat.or_zero,
    ← Nat.shiftLeft_add_eq_or_of_lt hk, Nat.shiftLeft_eq, Nat.shiftLeft_eq, Nat.mul_assoc, ← Nat.pow_add]

/-- A line command's word by its row's mask and match, with the line index its low 16 bits (R49, R50). -/
theorem lineWord_eq_iff_mask (o : Byte) (k : Nat) (c : Word) :
    lineIndexFits k = true ∧ lineWord o k = c ↔ c &&& 0xFFFF0000 = lineWord o 0 ∧ k = (c &&& 0xFFFF).toNat := by
  rw [lineIndexFits_iff, toNat_and_lowMask, ← BitVec.toNat_inj (x := c &&& _), toNat_and_highMask,
    toNat_lineWord o (by decide : 0 < 2 ^ 16), Nat.add_zero]
  constructor
  · rintro ⟨hk, rfl⟩
    rw [toNat_lineWord o hk]
    omega
  · rintro ⟨hhigh, rfl⟩
    have hk : c.toNat % 2 ^ 16 < 2 ^ 16 := Nat.mod_lt _ (by decide)
    refine ⟨hk, BitVec.eq_of_toNat_eq ?_⟩
    rw [toNat_lineWord o hk, ← hhigh, Nat.div_add_mod']

/-- Under a mask of all ones a row selects the one word of its command (R49). -/
theorem decode_cmd_iff_fullMask {i : Instr} {c : Word} (hwf : i.wf = true) (hf : i.format = .cmd) :
    decode .cmd c = .ok i ↔ c &&& 0xFFFFFFFF = encode i := by
  rw [decode_ok_iff, and_fullMask]
  exact ⟨fun ⟨_, _, hw⟩ => hw.symm, fun hw => ⟨hwf, hf, hw.symm⟩⟩

theorem decode_hline_iff (c : Word) (y : Nat) :
    decode .cmd c = .ok (.hline y) ↔ c &&& 0xFFFF0000 = 0x04000000 ∧ y = (c &&& 0xFFFF).toNat := by
  rw [decode_ok_iff]
  exact (and_congr_right fun _ => and_iff_right rfl).trans (lineWord_eq_iff_mask 0x04 y c)

theorem decode_vline_iff (c : Word) (x : Nat) :
    decode .cmd c = .ok (.vline x) ↔ c &&& 0xFFFF0000 = 0x05000000 ∧ x = (c &&& 0xFFFF).toNat := by
  rw [decode_ok_iff]
  exact (and_congr_right fun _ => and_iff_right rfl).trans (lineWord_eq_iff_mask 0x05 x c)

theorem decode_error_iff {f : Format} {w : Word} : (∃ e, decode f w = .error e) ↔ ∀ i, decode f w ≠ .ok i := by
  cases decode f w <;> simp

/-- A command word is illegal exactly when it meets no row's condition: an instruction of format CMD is one of the five
rows (R49, R53). -/
theorem decode_cmd_error_iff (c : Word) :
    (∃ e, decode .cmd c = .error e) ↔
      c &&& 0xFFFFFFFF ≠ 0x01000000 ∧ c &&& 0xFFFFFFFF ≠ 0x02000000 ∧ c &&& 0xFFFFFFFF ≠ 0x03000000 ∧
      c &&& 0xFFFF0000 ≠ 0x04000000 ∧ c &&& 0xFFFF0000 ≠ 0x05000000 := by
  rw [decode_error_iff]
  constructor
  · intro hnone
    exact ⟨fun h => hnone .blur ((decode_cmd_iff_fullMask rfl rfl).mpr h),
      fun h => hnone .hpass ((decode_cmd_iff_fullMask rfl rfl).mpr h),
      fun h => hnone .vpass ((decode_cmd_iff_fullMask rfl rfl).mpr h),
      fun h => hnone _ ((decode_hline_iff c _).mpr ⟨h, rfl⟩),
      fun h => hnone _ ((decode_vline_iff c _).mpr ⟨h, rfl⟩)⟩
  · rintro ⟨hblur, hhpass, hvpass, hhline, hvline⟩ i hi
    have hformat : i.format = .cmd := (encodeOfDecode _ _ _ hi).2.1
    cases i with
    | blur => exact hblur ((decode_cmd_iff_fullMask rfl rfl).mp hi)
    | hpass => exact hhpass ((decode_cmd_iff_fullMask rfl rfl).mp hi)
    | vpass => exact hvpass ((decode_cmd_iff_fullMask rfl rfl).mp hi)
    | hline y => exact hhline ((decode_hline_iff c y).mp hi).1
    | vline x => exact hvline ((decode_vline_iff c x).mp hi).1
    | seed | emit | advance | extract | unpack | pack => cases hformat

/-- Settles O4, row by row. -/
theorem commandRowsSelectByMask : Obligations.CommandRowsSelectByMask := fun c =>
  ⟨decode_cmd_iff_fullMask rfl rfl, decode_cmd_iff_fullMask rfl rfl, decode_cmd_iff_fullMask rfl rfl,
    decode_hline_iff c, decode_vline_iff c, decode_cmd_error_iff c⟩

/-! ### Illegal command words -/

/-- R53's list of the illegal words: those that no row of the table selects. -/
theorem decode_cmd_error_iff_reserved (c : Word) :
    (∃ e, decode .cmd c = .error e) ↔
      ((c >>> 24).toNat = 0 ∨ 6 ≤ (c >>> 24).toNat ∨ (c >>> 16).toNat % 256 ≠ 0 ∨
        (((c >>> 24).toNat = 1 ∨ (c >>> 24).toNat = 2 ∨ (c >>> 24).toNat = 3) ∧ c.toNat % 65536 ≠ 0)) := by
  have hc := c.isLt
  simp only [decode_cmd_error_iff, and_fullMask, ← BitVec.toNat_inj, ne_eq, toNat_and_highMask]
  simp only [BitVec.ofNat_eq_ofNat, BitVec.toNat_ofNat, BitVec.toNat_ushiftRight, Nat.shiftRight_eq_div_pow]
  omega

/-- A word that is no instruction of its format is answered by `otherwise`. -/
theorem runWord_of_error {f : Format} {w : Word} {e : DecodeError} (h : decode f w = .error e)
    (otherwise : State → Result) (s : State) : runWord f w otherwise s = otherwise s := by
  rw [runWord, h]

/-- A command is taken and fails: its error is recorded (R106, R123). -/
theorem acceptCommand_of_fault {s : State} (hb : s.status.busy = false) (he : s.status.err = false) (c : Word)
    (e : ErrCode) (info : Word) (p : Pass) (l : Half) :
    acceptCommand c (some (e, info)) p l s = raiseError e info (takeCommand s) := by
  simp [acceptCommand, hb, he]

/-- An illegal word written to CMD of an idle block with no error recorded (R53, R106). -/
theorem hostRegWrite_of_illegalWord {s : State} {c : Word} (hc : ∃ e, decode .cmd c = .error e)
    (hb : s.status.busy = false) (he : s.status.err = false) :
    hostRegWrite 0 c s = .next (raiseError .illegalCmd c (takeCommand (logHost (.regWrite 0 c) s))) := by
  obtain ⟨e, hdec⟩ := hc
  rw [hostRegWrite, if_pos rfl, runWord_of_error hdec, acceptIllegal]
  exact congrArg Host.Outcome.next (acceptCommand_of_fault (s := logHost _ s) hb he c _ _ _ _)

/-- Settles O5: the reserved words are those no row selects, and acceptance of one is an error entry. -/
theorem illegalWordRaisesIllegalCmd : Obligations.IllegalWordRaisesIllegalCmd :=
  ⟨decode_cmd_error_iff_reserved, ⟨_, rfl⟩, ⟨_, rfl⟩, fun _ _ _ hs hc hb he =>
    (PixelMemory.step_of_script hs).trans (hostRegWrite_of_illegalWord hc hb he)⟩

/-! ### The spec's own words -/

/-- Settles O1: each word is fixed, so each clause is an evaluation of the decoder. -/
theorem specWordsDecode : Obligations.SpecWordsDecode := by
  unfold Obligations.SpecWordsDecode
  decide

end Sys2Proof.Proofs.Encoding
end

section
/-! SUPPORT. Proofs about the channel codec (spec/40_codec.md R60 to R63, R66): what its three instructions answer, that
they are inverse to each other, and that no micro-operation mixes the lanes of two channels. -/

namespace Sys2Proof.Proofs.Codec

open Sys2Proof.Machine Sys2Proof.Safety Sys2Proof.Laws

/-! ### What the codec's instructions answer -/

/-- Settles O7: `extractChannel` at each of the four selector codes (R46, R60). -/
theorem extractSelectsChannelBits : Obligations.ExtractSelectsChannelBits := fun _ => ⟨rfl, rfl, rfl, rfl⟩

/-- A zero-extended byte field is the word shifted down and masked (R60, R61). -/
theorem zext32_extractLsb' (p : Word) (n : Nat) : zext32 (p.extractLsb' n 8) = (p >>> n) &&& 0xFF := by
  refine BitVec.eq_of_toNat_eq ?_
  have hlt : (p.extractLsb' n 8).toNat < 2 ^ 8 := (p.extractLsb' n 8).isLt
  have hmask : (0xFF : Word).toNat = 2 ^ 8 - 1 := rfl
  rw [BitVec.toNat_and, hmask, Nat.and_two_pow_sub_one_eq_mod, BitVec.toNat_ushiftRight,
    BitVec.toNat_setWidth_of_le (by decide), BitVec.extractLsb'_toNat]

/-- UNPACK's lanes, written out by shift and mask (R61). -/
theorem unpackPixel_eq (p : Word) :
    unpackPixel p =
      { a := (p >>> 24) &&& 0xFF, r := (p >>> 16) &&& 0xFF, g := (p >>> 8) &&& 0xFF, b := p &&& 0xFF } := by
  refine lanes_ext fun c => ?_
  rw [get_unpackPixel]
  cases c with
  | b => exact (zext32_extractLsb' p 0).trans (by rw [BitVec.ushiftRight_zero]; rfl)
  | g => exact zext32_extractLsb' p 8
  | r => exact zext32_extractLsb' p 16
  | a => exact zext32_extractLsb' p 24

/-- Settles O8: UNPACK changes the lanes' wires alone, to `unpackPixel_eq`'s lanes. -/
theorem unpackZeroExtendsChannels : Obligations.UnpackZeroExtendsChannels := fun p s => by
  rw [← unpackPixel_eq]
  rfl

/-- A byte that is shifted to a place within the word loses no bit. -/
theorem toNat_zext32_shiftLeft (v : Byte) {n : Nat} (hn : n ≤ 24) : (zext32 v <<< n).toNat = v.toNat <<< n := by
  have hfits : v.toNat * 2 ^ n < 2 ^ 32 :=
    calc v.toNat * 2 ^ n < 2 ^ 8 * 2 ^ n := Nat.mul_lt_mul_of_pos_right v.isLt (Nat.two_pow_pos n)
      _ ≤ 2 ^ 8 * 2 ^ 24 := Nat.mul_le_mul_left _ (Nat.pow_le_pow_right (by decide) hn)
      _ = 2 ^ 32 := by decide
  rw [BitVec.toNat_shiftLeft, BitVec.toNat_setWidth_of_le (by decide), Nat.shiftLeft_eq, Nat.mod_eq_of_lt hfits]

theorem toNat_packPixel (a r g b : Byte) :
    (packPixel a r g b).toNat = a.toNat <<< 24 ||| r.toNat <<< 16 ||| g.toNat <<< 8 ||| b.toNat :=
  calc (packPixel a r g b).toNat
      = ((a.toNat <<< 8 ||| r.toNat) <<< 8 ||| g.toNat) <<< 8 ||| b.toNat := by
        rw [← BitVec.toNat_append, ← BitVec.toNat_append, ← BitVec.toNat_append]; rfl
    _ = _ := by simp only [Nat.shiftLeft_or_distrib, ← Nat.shiftLeft_add, Nat.reduceAdd]

/-- PACK's pixel, written out by shift and or (R62). -/
theorem packPixel_eq (a r g b : Byte) :
    packPixel a r g b = (zext32 a <<< 24) ||| (zext32 r <<< 16) ||| (zext32 g <<< 8) ||| zext32 b := by
  refine BitVec.eq_of_toNat_eq ?_
  rw [toNat_packPixel, BitVec.toNat_or, BitVec.toNat_or, BitVec.toNat_or, toNat_zext32_shiftLeft a (by decide),
    toNat_zext32_shiftLeft r (by decide), toNat_zext32_shiftLeft g (by decide), BitVec.toNat_setWidth_of_le (by decide)]

/-- Settles O9: PACK changes the pixel output's wires alone, to `packPixel_eq`'s word. -/
theorem packConcatenatesChannels : Obligations.PackConcatenatesChannels := fun a r g b s => by
  rw [← packPixel_eq]
  rfl

/-! ### EXTRACT and PACK are inverse -/

theorem exec_extract_channel {c : Channel} {s t : State} (h : exec (.extract c) s = .next t) :
    t.codec.channel = extractChannel s.codec.pixel c := by
  cases h
  rfl

theorem exec_pack_packed {a r g b : Byte} {s t : State} (h : exec (.pack a r g b) s = .next t) :
    t.codec.packed = packPixel a r g b := by
  cases h
  rfl

/-- Settles O10: on the instructions' results the two laws are those of `extractChannel` and `packPixel`. -/
theorem codecFunctionsAreInverse : Obligations.CodecFunctionsAreInverse := by
  refine ⟨fun a r g b s t hpack u hu => ?extractOfPack, fun s ta tr tg tb t ha hr hg hb hpack => ?packOfExtract⟩
  case extractOfPack =>
    have hpixel : u.codec.pixel = packPixel a r g b := hu.trans (exec_pack_packed hpack)
    refine ⟨fun v hv => ?_, fun v hv => ?_, fun v hv => ?_, fun v hv => ?_⟩ <;>
      rw [exec_extract_channel hv, hpixel]
    · exact extract_pack_a a r g b
    · exact extract_pack_r a r g b
    · exact extract_pack_g a r g b
    · exact extract_pack_b a r g b
  case packOfExtract =>
    rw [exec_pack_packed hpack, exec_extract_channel ha, exec_extract_channel hr, exec_extract_channel hg,
      exec_extract_channel hb]
    exact pack_extract s.codec.pixel

/-! ### What a lane determines

`s` and `t` agree on the lane of channel `c`; so do the values the micro-operations compute from them. -/

/-- EMIT's pixel by channel: the lane's own quotient, or for A the centre sample's A (R75, R76). -/
theorem extractChannel_emitPixel (s : State) (c : Channel) :
    extractChannel (emitPixel s) c =
      if c = .a ∧ s.blurAlpha = false then extractChannel (winAt s s.radius.val) c else quotientByte s c := by
  unfold emitPixel
  cases c with
  | b => exact extract_pack_b _ _ _ _
  | g => exact extract_pack_g _ _ _ _
  | r => exact extract_pack_r _ _ _ _
  | a =>
    rw [extract_pack_a, emitAlpha]
    cases s.blurAlpha <;> rfl

/-- SEQ's update after an EMIT reads SEQ, OPC and the dimensions alone (R88). -/
theorem afterEmit_seq_congr {s t : State} (hq : t.seq = s.seq) (ho : t.opc = s.opc) (hw : t.width = s.width)
    (hh : t.height = s.height) : (afterEmit t).seq = (afterEmit s).seq := by
  obtain ⟨-, hlen, hlines⟩ := lineGeometry_congr (s := s) (t := t) (by rw [hq]; exact ⟨rfl, rfl⟩) hw hh
  simp only [afterEmit, lineEnd, apply_ite State.seq, setUop_seq, complete_seq, nextLine_seq, nextPass_seq, hlen,
    hlines, hq, ho]

section

variable {c : Channel} {s t : State} (h : SameLane c s t)
include h

theorem sameLane_geometry :
    lineIndex t = lineIndex s ∧ lineLen t = lineLen s ∧ passLines t = passLines s :=
  lineGeometry_congr (by rw [h.seq]; exact ⟨rfl, rfl⟩) h.config.width h.config.height

theorem sameLane_winAt (i : Nat) : extractChannel (winAt t i) c = extractChannel (winAt s i) c :=
  BitVec.eq_of_toNat_eq (h.win i)

theorem sameLane_linePixel (k : Nat) : extractChannel (linePixel t k) c = extractChannel (linePixel s k) c := by
  rw [linePixel, linePixel, (sameLane_geometry h).1]
  exact BitVec.eq_of_toNat_eq (h.mem _)

theorem sameLane_chanVal_seedWindow (i : Nat) : chanVal c (seedWindow t i) = chanVal c (seedWindow s i) := by
  obtain ⟨-, hlen, -⟩ := sameLane_geometry h
  rw [seedWindow, seedWindow, seedLast, seedLast, hlen, h.config.radius, chanVal, sameLane_linePixel h]

theorem sameLane_advancePos : advancePos t = advancePos s := by
  obtain ⟨-, hlen, -⟩ := sameLane_geometry h
  rw [advancePos, advancePos, hlen, h.config.radius, h.seq]

/-- The pixel ADVANCE reads. -/
theorem sameLane_incoming :
    extractChannel (linePixel t (advancePos t)) c = extractChannel (linePixel s (advancePos s)) c := by
  rw [sameLane_advancePos h, sameLane_linePixel h]

theorem sameLane_shiftedWindow (i : Nat) :
    extractChannel (shiftedWindow t (linePixel t (advancePos t)) i) c =
      extractChannel (shiftedWindow s (linePixel s (advancePos s)) i) c := by
  rw [shiftedWindow, shiftedWindow, h.config.radius]
  split
  · exact sameLane_winAt h _
  · exact sameLane_incoming h

theorem sameLane_emitPixel : extractChannel (emitPixel t) c = extractChannel (emitPixel s) c := by
  have hq : quotientByte t c = quotientByte s c := by
    rw [quotientByte, quotientByte, quotient, quotient, h.div, h.sum]
  rw [extractChannel_emitPixel, extractChannel_emitPixel, h.config.blurAlpha, h.config.radius, hq, sameLane_winAt h]

/-! ### The micro-operations keep lanes apart -/

theorem sameLane_seeded : SameLane c (seeded s) (seeded t) where
  sum := by simp only [seeded, get_ofFn, windowSum_eq, tentSum, h.config.radius, sameLane_chanVal_seedWindow h]
  sumOut := by simp only [seeded, get_ofFn, windowSumOut_eq, h.config.radius, sameLane_chanVal_seedWindow h]
  sumIn := by simp only [seeded, get_ofFn, windowSumIn_eq, h.config.radius, sameLane_chanVal_seedWindow h]
  win := fun i => by
    rw [winAt_seeded, winAt_seeded, h.config.radius]
    split
    · exact sameLane_chanVal_seedWindow h i
    · exact h.win i
  mem := h.mem
  div := h.div
  seq := by simp only [seeded, h.seq]
  opc := h.opc
  config := ⟨h.config.blurAlpha, h.config.buflen, h.config.width, h.config.height, h.config.radius⟩

theorem sameLane_advanced : SameLane c (advanced s) (advanced t) where
  sum := by simp only [advanced, get_ofFn, get_unpackPixel, h.sum, h.sumOut, h.sumIn, sameLane_incoming h]
  sumOut := by simp only [advanced, get_ofFn, get_unpackPixel, h.sumOut, h.config.radius, sameLane_winAt h]
  sumIn := by
    simp only [advanced, get_ofFn, get_unpackPixel, h.sumIn, h.config.radius, sameLane_winAt h, sameLane_incoming h]
  win := fun i => by
    rw [winAt_advanced, winAt_advanced, h.config.radius]
    split
    · exact congrArg BitVec.toNat (sameLane_shiftedWindow h i)
    · exact h.win i
  mem := h.mem
  div := h.div
  seq := by simp only [advanced, h.seq]
  opc := h.opc
  config := ⟨h.config.blurAlpha, h.config.buflen, h.config.width, h.config.height, h.config.radius⟩

/-- The written pixel agrees in channel `c` and stands at one index in both states. -/
theorem sameLane_emitted_mem (hs : Memory.wf s.mem) (ht : Memory.wf t.mem) (i : Nat) :
    chanVal c (pixel (emitted t) i) = chanVal c (pixel (emitted s) i) := by
  obtain ⟨hidx, -, -⟩ := sameLane_geometry h
  have hlt : lineIndex s s.seq.pos.toNat < 2 ^ 32 := lineIndex_lt s s.seq.pos.isLt
  rw [pixel, pixel, emitted_mem, emitted_mem, hidx, h.seq]
  by_cases hi : i = lineIndex s s.seq.pos.toNat
  · subst i
    rw [readPixel_writePixel_same hs hlt, readPixel_writePixel_same ht hlt]
    exact congrArg BitVec.toNat (sameLane_emitPixel h)
  · rw [readPixel_writePixel_other _ hi, readPixel_writePixel_other _ hi]
    exact h.mem i

theorem sameLane_emitted (hs : Memory.wf s.mem) (ht : Memory.wf t.mem) : SameLane c (emitted s) (emitted t) := by
  have hmem := sameLane_emitted_mem h hs ht
  have hseq : (emitted t).seq = (emitted s).seq := afterEmit_seq_congr h.seq h.opc h.config.width h.config.height
  rw [emitted_frame s, emitted_frame t]
  exact ⟨h.sum, h.sumOut, h.sumIn, h.win, hmem, h.div, hseq, h.opc, h.config.blurAlpha, h.config.buflen,
    h.config.width, h.config.height, h.config.radius⟩

end

/-- Settles O20: each micro-operation answers a state that is a function of the lane's own values. -/
theorem lanesAreIndependent : Obligations.LanesAreIndependent := by
  rintro c s s' h hs hs' u (rfl | rfl | rfl) t t' ht ht'
  · obtain ⟨-, rfl⟩ := execSeed_next ht
    obtain ⟨-, rfl⟩ := execSeed_next ht'
    exact sameLane_seeded h
  · obtain ⟨-, rfl⟩ := execEmit_next ht
    obtain ⟨-, rfl⟩ := execEmit_next ht'
    exact sameLane_emitted h hs hs'
  · obtain ⟨-, rfl⟩ := execAdvance_next ht
    obtain ⟨-, rfl⟩ := execAdvance_next ht'
    exact sameLane_advanced h

end Sys2Proof.Proofs.Codec
end

section
/-! SUPPORT. Proofs about the invariant of a running block (spec/41_window_engine.md R79, R84; spec/10_state.md R16,
R17, R24, R25): each thing a turn can do keeps it. -/

namespace Sys2Proof.Proofs.Invariant

open Sys2Proof.Machine Sys2Proof.Safety Sys2Proof.Laws

/-! ### Two ways to carry the invariant over -/

section
variable {s t : State} (h : Inv s) (hcode : t.errcode = s.errcode) (hinfo : t.errinfo = s.errinfo)
  (hstatus : t.status = s.status)
include h hcode hinfo hstatus

/-- A running block stays in the invariant when memory, the window's length and `Running` do. -/
theorem inv_of_running (hbusy : s.status.busy = true) (hmem : Memory.wf t.mem) (hwin : t.win.length ≤ Config.winMax)
    (hrun : Running t) : Inv t where
  memory := hmem
  window := hwin
  busyDone := by rw [hstatus]; exact h.busyDone
  busyErr := by rw [hstatus]; exact h.busyErr
  doneErr := by rw [hstatus]; exact h.doneErr
  errcode := by rw [hstatus, hcode]; exact h.errcode
  errinfo := by rw [hstatus, hinfo]; exact h.errinfo
  idle := fun hidle => nomatch (hstatus ▸ hidle : s.status.busy = false).symm.trans hbusy
  running := fun _ => hrun

/-- In an idle block whatever only a running command reads may change freely. -/
theorem inv_of_idle (hidle : s.status.busy = false) (hmem : Memory.wf t.mem) (hwin : t.win = s.win)
    (hseq : t.seq = s.seq) : Inv t :=
  inv_congr h hmem (by rw [hstatus]) (by rw [hstatus]; exact id) (by rw [hstatus]) hcode hinfo hwin hseq
    fun hbusy => nomatch hidle.symm.trans hbusy

end

/-- The invariant reads nothing of DROP, INTEN and the model's own records, and of memory only that it is canonical. -/
theorem inv_of_frame {s : State} {m : List Host.Cell} {drop : Bool} {inten : Inten} {script : List Event}
    {log : List Transaction} {accesses : List Access} {k : Codec} (h : Inv s) (hmem : Memory.wf m) :
    Inv { s with mem := m, status.drop := drop, inten := inten, script := script, hostLog := log,
                 accesses := accesses, codec := k } :=
  inv_congr h hmem rfl id rfl rfl rfl rfl rfl
    fun _ hrun => running_congr hrun rfl rfl rfl rfl rfl rfl rfl rfl rfl rfl rfl rfl

theorem inv_popped {s : State} (h : Inv s) : Inv (popped s) := inv_of_frame h h.memory

theorem inv_logHost {s : State} (x : Transaction) (h : Inv s) : Inv (logHost x s) := inv_of_frame h h.memory

theorem inv_dropWrite {s : State} (h : Inv s) : Inv (dropWrite s) := inv_of_frame h h.memory

/-! ### The micro-operations -/

/-- SEED puts the sequencer on position 0, which every line of a legal grid has, and forms the sums (R72). -/
theorem running_seeded {s : State} (h : Running s) : Running (seeded s) :=
  have hlegal : GridLegal (seeded s) := gridLegal_congr h.legal rfl rfl rfl rfl
  { h with
    legal := hlegal
    uop := nofun
    pos := fun _ => PixelMemory.lineLen_pos hlegal
    more := nofun
    sums := fun _ => sumsHold_seeded s }

/-- A position or line that is not the last of at most 65535 does not wrap when it moves on. -/
theorem toNat_add_one_of_lt {k : Half} {n : Nat} (hk : k.toNat + 1 < n) (hn : n < 2 ^ 16) :
    (k + 1).toNat = k.toNat + 1 :=
  BitVec.toNat_add_of_lt (y := 1) (show k.toNat + 1 < 2 ^ 16 by omega)

theorem advanced_pos {s : State} (h : s.seq.pos.toNat + 1 < lineLen s) :
    (advanced s).seq.pos.toNat = s.seq.pos.toNat + 1 :=
  toNat_add_one_of_lt h (lineLen_lt s)

/-- ADVANCE is issued only where the line goes on, so the position it moves to is on the line (R77, R88). -/
theorem running_advanced {s : State} (h : Running s) (huop : s.seq.uop = .advance) : Running (advanced s) :=
  have hmore := h.more huop
  { h with
    legal := gridLegal_congr h.legal rfl rfl rfl rfl
    uop := nofun
    pos := fun _ => by rw [advanced_pos hmore]; exact hmore
    more := nofun
    sums := fun _ c => sumsHold_advanced h.legal.radius (h.sums (by rw [huop]; nofun) c) }

/-- Before an ADVANCE the line goes on (R88). -/
theorem running_setUop_advance {s : State} (h : Running s) (huop : s.seq.uop = .emit)
    (hmore : s.seq.pos.toNat + 1 < lineLen s) : Running (setUop .advance s) :=
  have hseed : s.seq.uop ≠ .seed := by rw [huop]; nofun
  { h with
    legal := gridLegal_congr h.legal rfl rfl rfl rfl
    uop := nofun
    pos := fun _ => h.pos hseed
    more := fun _ => hmore
    sums := fun _ c => sumsHold_congr (h.sums hseed c) rfl rfl rfl rfl rfl }

theorem passLines_lt (s : State) : passLines s < 2 ^ 16 := by
  unfold passLines
  split
  · exact s.height.isLt
  · exact s.width.isLt

theorem running_nextLine {s : State} (h : Running s) (hline : s.seq.line.toNat + 1 < passLines s) :
    Running (nextLine s) :=
  { h with
    legal := gridLegal_congr h.legal rfl rfl rfl rfl
    uop := nofun
    line := by rw [nextLine_seq, toNat_add_one_of_lt hline (passLines_lt s)]; exact hline
    pos := fun hseed => absurd rfl hseed
    more := nofun
    sums := fun hseed => absurd rfl hseed }

/-- BLUR's vertical pass starts on column 0 (R88, R95). -/
theorem running_nextPass {s : State} (h : Running s) (hopc : s.opc = opcBlur) : Running (nextPass s) :=
  { h with
    legal := gridLegal_congr h.legal rfl rfl rfl rfl
    uop := nofun
    rows := fun hrows => by rw [nextPass_opc, hopc] at hrows; exact absurd hrows (by decide)
    columns := fun _ => rfl
    line := h.legal.width
    pos := fun hseed => absurd rfl hseed
    more := nofun
    sums := fun hseed => absurd rfl hseed }

/-- COMPLETE ends the command with DONE and no error (R110). -/
theorem inv_complete {s : State} (h : Inv s) (hbusy : s.status.busy = true) : Inv (complete s) where
  memory := h.memory
  window := h.window
  busyDone := nofun
  busyErr := nofun
  doneErr := fun ⟨_, herr⟩ => h.busyErr ⟨hbusy, herr⟩
  errcode := h.errcode
  errinfo := h.errinfo
  idle := fun _ => rfl
  running := nofun

theorem inv_lineEnd {s : State} (h : Inv s) (hbusy : s.status.busy = true) : Inv (lineEnd s) := by
  have hrun := h.running hbusy
  rcases lineEnd_cases s with heq | ⟨heq, -, -, hline⟩ | ⟨heq, hopc, -, -⟩ <;> rw [heq]
  · exact inv_complete h hbusy
  · exact inv_of_running h rfl rfl rfl hbusy h.memory h.window (running_nextLine hrun hline)
  · exact inv_of_running h rfl rfl rfl hbusy h.memory h.window (running_nextPass hrun hopc)

theorem inv_afterEmit {s : State} (h : Inv s) (hbusy : s.status.busy = true) (huop : s.seq.uop = .emit) :
    Inv (afterEmit s) := by
  rcases afterEmit_cases s with ⟨heq, hmore⟩ | ⟨heq, -⟩ <;> rw [heq]
  · exact inv_of_running h rfl rfl rfl hbusy h.memory h.window
      (running_setUop_advance (h.running hbusy) huop hmore)
  · exact inv_lineEnd h hbusy

section
variable {s : State} (h : Inv s) (hbusy : s.status.busy = true)
include h hbusy

theorem inv_seeded : Inv (seeded s) :=
  inv_of_running h rfl rfl rfl hbusy h.memory (length_writeWindow_le s _ h.window)
    (running_seeded (h.running hbusy))

theorem inv_advanced (huop : s.seq.uop = .advance) : Inv (advanced s) :=
  inv_of_running h rfl rfl rfl hbusy h.memory (length_writeWindow_le s _ h.window)
    (running_advanced (h.running hbusy) huop)

theorem inv_emitted (huop : s.seq.uop = .emit) : Inv (emitted s) :=
  have hwrite : Inv (enginePixelWrite s.seq.pos.toNat (emitPixel s) s) :=
    inv_of_frame h (wf_writePixel h.memory (lineIndex_lt s s.seq.pos.isLt) _)
  inv_afterEmit hwrite hbusy huop

end

/-! ### The host's turns -/

theorem inv_hostRegRead {s : State} (n : BitVec 4) (h : Inv s) : Inv (hostRegRead n s) := by
  have hlog := inv_logHost (.regRead n (regValue s n)) h
  unfold hostRegRead
  rcases handBack_cases n (logHost (.regRead n (regValue s n)) s) with ⟨-, hidle, heq⟩ | heq <;> rw [heq]
  · exact inv_of_idle hlog rfl rfl rfl hidle hlog.memory rfl rfl
  · exact hlog

/-- W1C only lowers flags, and it clears the error record with ERR (R105). -/
theorem inv_writeStatus {s : State} (v : Word) (h : Inv s) : Inv (writeStatus v s) := by
  rw [writeStatus_eq]
  refine ⟨h.memory, h.window, fun ⟨hb, hd⟩ => h.busyDone ⟨hb, (Bool.and_eq_true_iff.mp hd).1⟩,
    fun ⟨hb, he⟩ => h.busyErr ⟨hb, (Bool.and_eq_true_iff.mp he).1⟩,
    fun ⟨hd, he⟩ => h.doneErr ⟨(Bool.and_eq_true_iff.mp hd).1, (Bool.and_eq_true_iff.mp he).1⟩,
    ?errcode, ?errinfo, h.idle, fun hb => ?running⟩
  case errcode =>
    cases v.getLsbD 2
    · simp [h.errcode]
    · simp
  case errinfo =>
    cases v.getLsbD 2
    · simpa using h.errinfo
    · simp
  case running => exact running_congr (h.running hb) rfl rfl rfl rfl rfl rfl rfl rfl rfl rfl rfl rfl

theorem inv_writeConfig {s : State} {f : State → State} (h : Inv s)
    (hf : s.status.busy = false → Inv (f s)) : Inv (writeConfig f s) := by
  rcases writeConfig_cases f s with ⟨-, heq⟩ | ⟨hidle, heq⟩ <;> rw [heq]
  · exact inv_dropWrite h
  · exact hf hidle

theorem inv_configured {s : State} {alpha : Bool} {len : Word} {w h : Half} {r : Fin 255} (hinv : Inv s)
    (hidle : s.status.busy = false) :
    Inv { s with blurAlpha := alpha, buflen := len, width := w, height := h, radius := r } :=
  inv_of_idle hinv rfl rfl rfl hidle hinv.memory rfl rfl

theorem inv_writeRegister {s : State} (n : BitVec 4) (v : Word) (h : Inv s) : Inv (writeRegister n v s) := by
  unfold writeRegister
  split
  · exact inv_writeStatus v h
  · exact inv_writeConfig h (inv_configured h)
  · exact inv_of_frame h h.memory
  · exact inv_writeConfig h (inv_configured h)
  · exact inv_writeConfig h (inv_configured h)
  · exact inv_writeConfig h (inv_configured h)
  · exact inv_writeConfig h (inv_configured h)
  · exact h

/-- The divisor of every radius fits DIV (R13, R70). -/
theorem toNat_divisor {r : Nat} (hr : r < 255) : (BitVec.ofNat 16 (divisor r)).toNat = r * (r + 2) + 1 := by
  have hmul : r * (r + 2) ≤ 254 * 256 := Nat.mul_le_mul (by omega) (by omega)
  rw [BitVec.toNat_ofNat, divisor]
  exact Nat.mod_eq_of_lt (by omega)

/-- What the start checks passed is what a running command needs (R108, R120). -/
theorem running_startCommand {s : State} {c : Word} {p : Pass} {l : Half} (hform : CommandForm c none p l s) :
    Running (startCommand c p l s) where
  legal := gridLegal_congr (hform.legal rfl) rfl rfl rfl rfl
  lent := Nat.le_max_right ..
  uop := nofun
  div := toNat_divisor s.radius.isLt
  opc := hform.opcode rfl
  rows := hform.rows rfl
  columns := hform.columns rfl
  line := hform.line rfl
  pos := fun hseed => absurd rfl hseed
  more := nofun
  sums := fun hseed => absurd rfl hseed

theorem inv_raiseError {s : State} {e : ErrCode} (info : Word) (h : Inv s) (hidle : s.status.busy = false)
    (he : e ≠ .none) : Inv (raiseError e info (takeCommand s)) where
  memory := h.memory
  window := h.window
  busyDone := nofun
  busyErr := fun ⟨hbusy, _⟩ => nomatch hidle.symm.trans hbusy
  doneErr := nofun
  errcode := ⟨fun _ => he, fun _ => rfl⟩
  errinfo := nofun
  idle := h.idle
  running := fun hbusy => nomatch hidle.symm.trans hbusy

theorem inv_startCommand {s : State} {c : Word} {p : Pass} {l : Half} (h : Inv s) (herr : s.status.err = false)
    (hform : CommandForm c none p l s) : Inv (startCommand c p l (takeCommand s)) where
  memory := h.memory
  window := h.window
  busyDone := nofun
  busyErr := fun ⟨_, hraised⟩ => nomatch herr.symm.trans hraised
  doneErr := nofun
  errcode := h.errcode
  errinfo := h.errinfo
  idle := nofun
  running := fun _ => running_startCommand (hform.congr rfl rfl rfl rfl)

theorem inv_acceptCommand {s : State} {c : Word} {f : Option (ErrCode × Word)} {p : Pass} {l : Half} (h : Inv s)
    (hform : CommandForm c f p l s) : Inv (acceptCommand c f p l s) := by
  rcases acceptCommand_cases c f p l s with ⟨-, heq⟩ | ⟨hidle, -, e, info, rfl, heq⟩ | ⟨-, herr, rfl, heq⟩ <;> rw [heq]
  · exact inv_dropWrite h
  · exact inv_raiseError info h hidle (hform.recorded e info rfl)
  · exact inv_startCommand h herr hform

/-- A reset block is in the invariant whatever its memory holds. -/
theorem inv_resetBlock {s : State} (h : Inv s) : Inv (resetBlock s) :=
  inv_of_idle StateFlags.invHoldsAfterReset rfl rfl rfl rfl h.memory rfl rfl

/-! ### Every turn -/

theorem inv_turn {s t : State} (h : Inv s) (hturn : Turn s t) : Inv t := by
  have hpop := inv_popped h
  cases hturn with
  | idle => exact hpop
  | seed _ hbusy => exact inv_seeded hpop hbusy
  | emit _ hbusy huop => exact inv_emitted hpop hbusy huop
  | advance _ hbusy huop => exact inv_advanced hpop hbusy huop
  | regRead n => exact inv_hostRegRead n hpop
  | regWrite n v => exact inv_writeRegister n v (inv_logHost _ hpop)
  | command c f p l _ hform => exact inv_acceptCommand (inv_logHost _ hpop) (hform.congr rfl rfl rfl rfl)
  | pixRead i => exact inv_logHost _ hpop
  | pixWrite i v => exact inv_of_frame (s := popped s) hpop (wf_writePixel hpop.memory i.isLt v)
  | rst => exact inv_resetBlock hpop
  | codec k => exact inv_of_frame hpop hpop.memory

/-- Settles O43: by cases on what a turn can do. -/
theorem stepKeepsInv : Obligations.StepKeepsInv := fun _ _ h hstep => inv_turn h (step_turn hstep)

end Sys2Proof.Proofs.Invariant
end

section
/-! SUPPORT. Proofs about the leading part of the window (spec/41_window_engine.md R71, R76, R79 (a), R90): it equals
the part of the line the sweep has still to overwrite. -/

namespace Sys2Proof.Proofs.WindowAhead

open Sys2Proof.Machine Sys2Proof.Safety Sys2Proof.Laws

/-! ### What the claim reads -/

/-- Both states hold the same window over the same line, and the line's pixels are the same in memory. -/
structure SameLine (s t : State) : Prop where
  win : t.win = s.win
  seq : t.seq = s.seq
  radius : t.radius = s.radius
  width : t.width = s.width
  height : t.height = s.height
  pixels : ∀ k < lineLen s, pixel t (lineIndex s k) = pixel s (lineIndex s k)

theorem clampPos_lt {n : Nat} (hn : 0 < n) (r j i : Nat) : clampPos n r j i < n := by
  unfold clampPos
  omega

/-- The claim carries over to a state that is busy only where the old one is, and then has the same line. -/
theorem windowAhead_congr {s t : State} (hinv : Inv s) (h : WindowAhead s)
    (hsame : t.status.busy = true → s.status.busy = true ∧ SameLine s t) : WindowAhead t := by
  intro hbusy
  obtain ⟨hbusy, hwin, hseq, hradius, hwidth, hheight, hpixels⟩ := hsame hbusy
  obtain ⟨hidx, hlen, -⟩ := lineGeometry_congr (s := s) (t := t) (by rw [hseq]; exact ⟨rfl, rfl⟩) hwidth hheight
  have hclamp := clampPos_lt (PixelMemory.lineLen_pos (hinv.running hbusy).legal)
  obtain ⟨hemit, hadvance⟩ := h hbusy
  rw [hseq, hradius, hidx, hlen]
  refine ⟨fun huop i hlo hhi => ?_, fun huop i hlo hhi => ?_⟩ <;>
    rw [winAt_of_win hwin, hpixels _ (hclamp _ _ _)]
  · exact hemit huop i hlo hhi
  · exact hadvance huop i hlo hhi

/-- The claim reads no flag but BUSY, and nothing of INTEN, `lent` and the model's own records. -/
theorem windowAhead_of_frame {s : State} {drop : Bool} {inten : Inten} {lent : Nat} {script : List Event}
    {log : List Transaction} {accesses : List Access} {k : Codec} (hinv : Inv s) (h : WindowAhead s) :
    WindowAhead { s with status.drop := drop, inten := inten, lent := lent, script := script, hostLog := log,
                         accesses := accesses, codec := k } :=
  windowAhead_congr hinv h fun hbusy => ⟨hbusy, rfl, rfl, rfl, rfl, rfl, fun _ _ => rfl⟩

theorem windowAhead_of_idle {t : State} (hidle : t.status.busy = false) : WindowAhead t :=
  fun hbusy => nomatch hidle.symm.trans hbusy

/-- Between two lines nothing is claimed. -/
theorem windowAhead_of_uop {t : State} (hemit : t.seq.uop ≠ .emit) (hadvance : t.seq.uop ≠ .advance) :
    WindowAhead t :=
  fun _ => ⟨fun huop => absurd huop hemit, fun huop => absurd huop hadvance⟩

/-! ### The micro-operations -/

/-- SEED's window, from the centre on, is the line from position 0 on (R72). -/
theorem windowAhead_seeded (s : State) : WindowAhead (seeded s) := by
  refine fun _ => ⟨fun _ i hlo hhi => ?_, nofun⟩
  rw [seeded_radius] at hlo hhi
  rw [winAt_seeded_le hhi]
  refine congrArg (linePixel s) (?_ : _ = clampPos (lineLen s) s.radius.val 0 i)
  unfold seedLast clampPos
  omega

/-- ADVANCE moves the window's registers down by one and the position up by one; the pixel it reads is the one the last
register stands for (R77). -/
theorem windowAhead_advanced {s : State} (h : WindowAhead s) (hbusy : s.status.busy = true)
    (huop : s.seq.uop = .advance) (hmore : s.seq.pos.toNat + 1 < lineLen s) : WindowAhead (advanced s) := by
  refine fun _ => ⟨fun _ i hlo hhi => ?_, nofun⟩
  rw [advanced_radius] at hlo hhi
  rw [winAt_advanced_le hhi, Invariant.advanced_pos hmore]
  have hpos : clampPos (lineLen s) s.radius.val s.seq.pos.toNat (i + 1) =
      clampPos (lineLen s) s.radius.val (s.seq.pos.toNat + 1) i := by
    unfold clampPos
    omega
  rcases Nat.lt_or_eq_of_le hhi with hlt | rfl
  · rw [shiftedWindow_lt hlt, (h hbusy).2 huop (i + 1) (by omega) (by omega), hpos]
    rfl
  · rw [shiftedWindow_last]
    refine congrArg (linePixel s) (?_ : _ = clampPos (lineLen s) s.radius.val (s.seq.pos.toNat + 1) _)
    unfold advancePos clampPos
    omega

/-- LINE_END leaves the line (R88). -/
theorem lineEnd_uop (s : State) : (lineEnd s).seq.uop = .idle ∨ (lineEnd s).seq.uop = .seed := by
  rcases lineEnd_cases s with heq | ⟨heq, -⟩ | ⟨heq, -⟩ <;> rw [heq]
  · exact .inl rfl
  · exact .inr rfl
  · exact .inr rfl

/-- EMIT overwrites the position the centre register stands for, and no position a later register stands for (R90). -/
theorem windowAhead_emitted {s : State} (hinv : Inv s) (h : WindowAhead s) (hbusy : s.status.busy = true)
    (huop : s.seq.uop = .emit) : WindowAhead (emitted s) := by
  have hwidth := (hinv.running hbusy).legal.width
  unfold emitted
  rcases afterEmit_cases (enginePixelWrite s.seq.pos.toNat (emitPixel s) s) with ⟨heq, hmore⟩ | ⟨heq, -⟩ <;> rw [heq]
  · refine fun _ => ⟨nofun, fun _ i hlo hhi => ?_⟩
    change s.seq.pos.toNat + 1 < lineLen s at hmore
    change s.radius.val < i at hlo
    have hne : lineIndex s (clampPos (lineLen s) s.radius.val s.seq.pos.toNat i) ≠ lineIndex s s.seq.pos.toNat := by
      intro hidx
      have hpos := lineIndex_inj hwidth hidx
      unfold clampPos at hpos
      omega
    exact ((h hbusy).1 huop i hlo.le hhi).trans (readPixel_writePixel_other s.mem hne _).symm
  · rcases lineEnd_uop (enginePixelWrite s.seq.pos.toNat (emitPixel s) s) with hend | hend
    · exact windowAhead_of_uop (by rw [hend]; nofun) (by rw [hend]; nofun)
    · exact windowAhead_of_uop (by rw [hend]; nofun) (by rw [hend]; nofun)

/-! ### The host's turns -/

section
variable {s : State} (hinv : Inv s) (h : WindowAhead s)
include hinv h

theorem windowAhead_hostRegRead (n : BitVec 4) : WindowAhead (hostRegRead n s) := by
  have hlog : WindowAhead (logHost (.regRead n (regValue s n)) s) := windowAhead_of_frame hinv h
  unfold hostRegRead
  rcases handBack_cases n (logHost (.regRead n (regValue s n)) s) with ⟨-, -, heq⟩ | heq <;> rw [heq]
  · exact windowAhead_of_frame (Invariant.inv_logHost _ hinv) hlog
  · exact hlog

/-- A configuration register keeps its value while a command runs (R104). -/
theorem windowAhead_writeRegister (n : BitVec 4) (v : Word) : WindowAhead (writeRegister n v s) := by
  refine windowAhead_congr hinv h fun hbusy => ?_
  rw [StateFlags.writeRegister_busy] at hbusy
  obtain ⟨_, _, _, _, _, _, _, _, _, heq, -, hconfig, -⟩ := writeRegister_frame n v s
  obtain ⟨-, -, hwidth, hheight, hradius⟩ := hconfig hbusy
  rw [heq]
  exact ⟨hbusy, rfl, rfl, hradius, hwidth, hheight, fun _ _ => rfl⟩

theorem windowAhead_acceptCommand (c : Word) (f : Option (ErrCode × Word)) (p : Pass) (l : Half) :
    WindowAhead (acceptCommand c f p l s) := by
  rcases acceptCommand_cases c f p l s with ⟨-, heq⟩ | ⟨hidle, -, e, info, -, heq⟩ | ⟨-, -, -, heq⟩ <;> rw [heq]
  · exact windowAhead_of_frame hinv h
  · exact windowAhead_of_idle hidle
  · exact windowAhead_of_uop nofun nofun

/-- The host writes no pixel of a running command's grid (R41 (c)). -/
theorem windowAhead_hostWrite {i : Nat} (hlent : s.lent ≤ i) (v : Word) :
    WindowAhead { s with mem := writePixel s.mem i v } := by
  refine windowAhead_congr hinv h fun hbusy => ⟨hbusy, rfl, rfl, rfl, rfl, rfl, fun k hk => ?_⟩
  have hrun := hinv.running hbusy
  have hlt : lineIndex s k < i :=
    calc lineIndex s k < gridSize s := lineIndex_lt_grid hrun.line hk
      _ ≤ s.lent := hrun.lent
      _ ≤ i := hlent
  exact readPixel_writePixel_other s.mem hlt.ne v

end

/-! ### Every turn -/

theorem windowAhead_turn {s t : State} (hinv : Inv s) (h : WindowAhead s) (hturn : Turn s t) : WindowAhead t := by
  have hpop := Invariant.inv_popped hinv
  have hahead : WindowAhead (popped s) := windowAhead_of_frame hinv h
  cases hturn with
  | idle => exact hahead
  | seed => exact windowAhead_seeded _
  | emit _ hbusy huop => exact windowAhead_emitted hpop hahead hbusy huop
  | advance _ hbusy huop => exact windowAhead_advanced hahead hbusy huop ((hpop.running hbusy).more huop)
  | regRead n => exact windowAhead_hostRegRead hpop hahead n
  | regWrite n v =>
    exact windowAhead_writeRegister (Invariant.inv_logHost _ hpop) (windowAhead_of_frame hpop hahead) n v
  | command c f p l =>
    exact windowAhead_acceptCommand (Invariant.inv_logHost _ hpop) (windowAhead_of_frame hpop hahead) c f p l
  | pixRead i => exact windowAhead_of_frame hpop hahead
  | pixWrite i v _ _ hlent =>
    have hwrite := windowAhead_hostWrite hpop hahead hlent v
    exact windowAhead_of_frame (Invariant.inv_of_frame hpop (wf_writePixel hpop.memory i.isLt v)) hwrite
  | rst => exact windowAhead_of_idle rfl
  | codec k => exact windowAhead_of_frame hpop hahead

/-- Settles O44: by cases on what a turn can do. -/
theorem stepKeepsWindowAhead : Obligations.StepKeepsWindowAhead := fun _ _ hinv h hstep =>
  windowAhead_turn hinv h (step_turn hstep)

end Sys2Proof.Proofs.WindowAhead
end

section
/-! SUPPORT. Proofs about the window engine's arithmetic and its three micro-operations (spec/41_window_engine.md R65 to
R82): the weights, what SEED, EMIT and ADVANCE answer, and why nothing wraps. -/

namespace Sys2Proof.Proofs.WindowEngine

open Sys2Proof.Machine Sys2Proof.Safety Sys2Proof.Laws Finset

/-! ### The weights -/

theorem sum_rising (r : Nat) : ∑ i ∈ range (r + 1), (i + 1) + ∑ i ∈ range r, (i + 1) = (r + 1) ^ 2 := by
  induction r with
  | zero => rfl
  | succ r ih =>
    have hlast := sum_range_succ (fun i => i + 1) r
    rw [sum_range_succ]
    linarith

/-- The weights up to the centre rise from 1, those after it fall back to 1 (R68). -/
theorem sum_tent (r : Nat) : ∑ i ∈ range (2 * r + 1), tent r i = (r + 1) ^ 2 := by
  have hleft : ∑ i ∈ range (r + 1), tent r i = ∑ i ∈ range (r + 1), (i + 1) :=
    sum_congr rfl fun i hi => tent_rising (Nat.lt_succ_iff.mp (mem_range.mp hi))
  have hright : ∑ i ∈ range r, tent r (r + 1 + i) = ∑ i ∈ range r, (i + 1) := by
    rw [← sum_range_reflect]
    refine sum_congr rfl fun i hi => ?_
    have := mem_range.mp hi
    unfold tent
    omega
  rw [sum_window_split, hleft, hright, sum_rising]

theorem divisor_eq_sq (r : Nat) : divisor r = (r + 1) ^ 2 := by
  unfold divisor
  ring

/-- Settles O11: each weight by the branch of `min` its position lies in, the sum by `sum_tent`. -/
theorem weightsFormTentAndSumToDivisor : Obligations.WeightsFormTentAndSumToDivisor := by
  intro r
  refine ⟨fun i hi => ?tent, fun i hlo hi => ?rises, fun i hlo hi => ?falls, ?first, ?last,
    (sum_tent r).trans (divisor_eq_sq r).symm, divisor_eq_sq r, rfl, fun hr => ?least, fun hr => ?window⟩
  case least =>
    rw [divisor_eq_sq]
    nlinarith
  case window => omega
  all_goals
    unfold weight
    omega

/-! ### The micro-operations -/

/-- Settles O14: SEED answers `seeded`, whose window and sums the laws give. -/
theorem seedFillsWindowAndSums : Obligations.SeedFillsWindowAndSums := fun s _ hbacked =>
  ⟨seeded s, execSeed_of_backed hbacked, fun _ hi => winAt_seeded_le hi,
    fun i hi => (winAt_seeded s i).trans (if_neg (Nat.not_le.mpr hi)), sumsHold_seeded s, rfl, rfl, rfl⟩

/-- A quotient by a divisor that is not 0 is that of the numbers (R74). -/
theorem toNat_quotient {s : State} (hdiv : s.div ≠ 0) (c : Channel) :
    (quotient s c).toNat = (s.sum.get c).toNat / s.div.toNat := by
  rw [quotient, if_neg hdiv, BitVec.toNat_udiv, BitVec.toNat_setWidth_of_le (by decide)]

theorem quotientByte_eq {s : State} (hdiv : s.div ≠ 0) (c : Channel) :
    quotientByte s c = BitVec.ofNat 8 ((s.sum.get c).toNat / s.div.toNat) := by
  rw [← toNat_quotient hdiv]
  refine BitVec.eq_of_toNat_eq ?_
  rw [quotientByte, BitVec.extractLsb'_toNat, BitVec.toNat_ofNat, Nat.shiftRight_zero]

/-- EMIT's pixel, written out (R75, R76). -/
theorem emitPixel_eq {s : State} (hdiv : s.div ≠ 0) :
    emitPixel s = packPixel
      (if s.blurAlpha then BitVec.ofNat 8 ((s.sum.get .a).toNat / s.div.toNat)
        else extractChannel (winAt s s.radius.val) .a)
      (BitVec.ofNat 8 ((s.sum.get .r).toNat / s.div.toNat))
      (BitVec.ofNat 8 ((s.sum.get .g).toNat / s.div.toNat))
      (BitVec.ofNat 8 ((s.sum.get .b).toNat / s.div.toNat)) := by
  simp only [emitPixel, emitAlpha, quotientByte_eq hdiv]

/-- EMIT's pixel is what memory holds afterwards (R36). -/
theorem pixel_emitted_pos {s : State} (hmem : Memory.wf s.mem) :
    pixel (emitted s) (lineIndex s s.seq.pos.toNat) = emitPixel s := by
  rw [pixel, emitted_mem]
  exact readPixel_writePixel_same hmem (lineIndex_lt s s.seq.pos.isLt) _

/-- Settles O15: EMIT answers `emitted`, which writes the one pixel `emitPixel`. -/
theorem emitWritesCurrentOutput : Obligations.EmitWritesCurrentOutput := fun s hbacked =>
  ⟨emitted s, execEmit_of_backed hbacked,
    fun a ha => by rw [emitted_mem]; exact readByte_writePixel_other s.mem ha _,
    fun hmem hdiv => (pixel_emitted_pos hmem).trans (emitPixel_eq hdiv),
    fun hmem => by rw [pixel_emitted_pos hmem]; exact emitted_accesses s,
    emitted_frame s⟩

/-- Settles O16: ADVANCE answers `advanced`, whose lanes and window are the three equations and the shift. -/
theorem advanceSlidesWindow : Obligations.AdvanceSlidesWindow := fun s hmore hbacked =>
  ⟨advanced s, execAdvance_of_backed hbacked,
    fun c => by simp only [advanced, get_ofFn, get_unpackPixel]; rfl,
    fun c => by simp only [advanced, get_ofFn, get_unpackPixel],
    fun c => by simp only [advanced, get_ofFn, get_unpackPixel]; rfl,
    fun i hi => (winAt_advanced_le hi.le).trans (shiftedWindow_lt hi),
    (winAt_advanced_le le_rfl).trans (shiftedWindow_last s _),
    fun i hi => (winAt_advanced s i).trans (if_neg (Nat.not_le.mpr hi)),
    Invariant.advanced_pos hmore, rfl, rfl, rfl⟩

/-! ### Nothing wraps -/

theorem chanVal_first_le {n : Nat} (hn : 0 < n) (x : Nat → Word) (c : Channel) :
    chanVal c (x 0) ≤ ∑ i ∈ range n, chanVal c (x i) :=
  single_le_sum (f := fun i => chanVal c (x i)) (fun _ _ => Nat.zero_le _) (mem_range.mpr hn)

/-- Settles O19: each accumulator is its defining sum, a sum of channel values of at most 255 with the weights of
`sum_tent` or with weight 1 (R82). -/
theorem accumulatorsAndQuotientsBounded : Obligations.AccumulatorsAndQuotientsBounded := by
  intro s hinv hbusy huop c
  have hrun := hinv.running hbusy
  obtain ⟨hsum, hout, hin⟩ := hrun.sums huop c
  have hpos := hrun.legal.radius
  have hr := s.radius.isLt
  have hdiv : s.div.toNat = (s.radius.val + 1) ^ 2 := hrun.div.trans (divisor_eq_sq _)
  have hle : (s.sum.get c).toNat ≤ 255 * s.div.toNat := by
    rw [hsum, hdiv, ← sum_tent]
    exact tentSum_le ..
  have hdiv4 : 4 ≤ s.div.toNat := by rw [hdiv]; nlinarith
  have hdivMax : s.div.toNat ≤ 255 ^ 2 := by rw [hdiv]; exact Nat.pow_le_pow_left (by omega) 2
  have hdiv0 : s.div ≠ 0 := by intro h0; rw [h0] at hdiv4; exact absurd hdiv4 (by decide)
  have hquot : (s.sum.get c).toNat / s.div.toNat ≤ 255 := Nat.div_le_of_le_mul (by rwa [Nat.mul_comm] at hle)
  refine ⟨hle, by omega, ?trailing, ?leading, ?difference, ?first, ?middle, hdiv4, ?quotient, ?byte⟩
  case trailing => rw [hout]; exact plainSum_le ..
  case leading => rw [hin]; exact plainSum_le _ (fun i => winAt s (s.radius.val + 1 + i)) c
  case difference => rw [hout, hsum]; exact sumOut_le_tentSum ..
  case first => rw [hout]; exact chanVal_first_le (Nat.succ_pos _) (winAt s) c
  case middle => rw [hin]; exact chanVal_first_le hpos (fun i => winAt s (s.radius.val + 1 + i)) c
  case quotient => rw [toNat_quotient hdiv0]; exact hquot
  case byte =>
    rw [quotientByte_eq hdiv0, BitVec.toNat_ofNat]
    exact Nat.mod_eq_of_lt (by omega)

end Sys2Proof.Proofs.WindowEngine
end

section
/-! SUPPORT. Proofs about the engine's steps when nothing else is pending (spec/43_host_interface.md R109), and that
with BLUR_ALPHA = 0 they leave every A field alone (spec/41_window_engine.md R76). -/

namespace Sys2Proof.Proofs.EngineSteps

open Sys2Proof.Machine Sys2Proof.Safety Sys2Proof.Laws

/-! ### One step -/

theorem step_of_noScript {s : State} (hs : s.script = []) : step s = engineTurn s := by
  unfold step takeTurn
  rw [hs]

theorem step_of_idle {s : State} (hs : s.script = []) (hidle : s.status.busy = false) : step s = .next s := by
  simp [step_of_noScript hs, engineTurn, hidle]

/-- A running command's line lies inside the grid, so the platform backs it (R36). -/
theorem lineIndex_lt_backed {s : State} (hrun : Running s) (hbacked : Backed s) {k : Nat} (hk : k < lineLen s) :
    lineIndex s k < s.backed :=
  Nat.lt_of_lt_of_le (lineIndex_lt_grid hrun.line hk) hbacked

/-- On a platform that backs the grid a running command's step is its pending micro-operation (R109, R145). -/
theorem step_of_running {s : State} (hs : s.script = []) (hbusy : s.status.busy = true) (hrun : Running s)
    (hbacked : Backed s) :
    (s.seq.uop = .seed ∧ step s = .next (seeded s)) ∨ (s.seq.uop = .emit ∧ step s = .next (emitted s)) ∨
      (s.seq.uop = .advance ∧ step s = .next (advanced s)) := by
  have hon {k : Nat} (hk : PixelMemory.UopAccesses s k) : lineIndex s k < s.backed :=
    lineIndex_lt_backed hrun hbacked (hk.lt_lineLen hrun)
  have hword (u : Uop) (huop : s.seq.uop = u) : step s = runWord .uop (zext32 u.code) .next s := by
    rw [step_of_noScript hs, engineTurn, if_pos hbusy, huop]
  cases huop : s.seq.uop with
  | idle => exact absurd huop hrun.uop
  | seed => exact .inl ⟨rfl, (hword _ huop).trans (execSeed_of_backed fun k hk => hon (.inl ⟨huop, hk⟩))⟩
  | emit => exact .inr (.inl ⟨rfl, (hword _ huop).trans (execEmit_of_backed (hon (.inr (.inl ⟨huop, rfl⟩))))⟩)
  | advance => exact .inr (.inr ⟨rfl, (hword _ huop).trans (execAdvance_of_backed (hon (.inr (.inr ⟨huop, rfl⟩))))⟩)

/-- A run begins with its first step. -/
theorem run_succ {M : Host.Core} {s u : M.State} (h : M.step s = .next u) (k : Nat) : M.run (k + 1) s = M.run k u := by
  rw [Host.Core.run, h]

theorem runFor_succ {s u : State} (h : step s = .next u) (k : Nat) : runFor (k + 1) s = runFor k u :=
  run_succ (M := Sys2Proof.core) h k

/-! ### The A field passes through -/

/-- A block that blurs no A field, with nothing pending and its grid backed. -/
structure AlphaOff (s : State) : Prop where
  inv : Inv s
  ahead : WindowAhead s
  backed : Backed s
  script : s.script = []
  alpha : s.blurAlpha = false

/-- Before an EMIT the centre register is the pixel the EMIT writes over (R71, R90). -/
theorem winAt_centre {s : State} (hrun : Running s) (h : WindowAhead s) (hbusy : s.status.busy = true)
    (huop : s.seq.uop = .emit) : winAt s s.radius.val = pixel s (lineIndex s s.seq.pos.toNat) := by
  have hpos := hrun.pos (by rw [huop]; nofun)
  have hclamp : clampPos (lineLen s) s.radius.val s.seq.pos.toNat s.radius.val = s.seq.pos.toNat := by
    unfold clampPos
    omega
  rw [(h hbusy).1 huop s.radius.val le_rfl (by omega), hclamp]

/-- EMIT writes the A field of the centre sample, which is the one that stood there (R76). -/
theorem alpha_emitted {s : State} (h : AlphaOff s) (hbusy : s.status.busy = true) (huop : s.seq.uop = .emit) (i : Nat) :
    chanVal .a (pixel (emitted s) i) = chanVal .a (pixel s i) := by
  by_cases hi : i = lineIndex s s.seq.pos.toNat
  · subst i
    rw [WindowEngine.pixel_emitted_pos h.inv.memory, ← winAt_centre (h.inv.running hbusy) h.ahead hbusy huop, chanVal,
      Codec.extractChannel_emitPixel, if_pos ⟨rfl, h.alpha⟩]
  · rw [pixel, emitted_mem, readPixel_writePixel_other s.mem hi]

/-- Every step of such a block is answered, leads to such a block and keeps every A field. -/
theorem step_of_alphaOff {s : State} (h : AlphaOff s) :
    ∃ t, step s = .next t ∧ AlphaOff t ∧ ∀ i, chanVal .a (pixel t i) = chanVal .a (pixel s i) := by
  have next {t : State} (hstep : step s = .next t) (hbacked : Backed t) (hs : t.script = [])
      (ha : t.blurAlpha = false) : AlphaOff t :=
    ⟨Invariant.stepKeepsInv s t h.inv hstep, WindowAhead.stepKeepsWindowAhead s t h.inv h.ahead hstep, hbacked, hs, ha⟩
  cases hbusy : s.status.busy with
  | false => exact ⟨s, step_of_idle h.script hbusy, h, fun _ => rfl⟩
  | true =>
    rcases step_of_running h.script hbusy (h.inv.running hbusy) h.backed with ⟨-, hstep⟩ | ⟨huop, hstep⟩ | ⟨-, hstep⟩
    · exact ⟨_, hstep, next hstep h.backed h.script h.alpha, fun _ => rfl⟩
    · have hframe := emitted_frame s
      refine ⟨_, hstep, next hstep ?_ ?_ ?_, alpha_emitted h hbusy huop⟩ <;> rw [hframe]
      · exact h.backed
      · exact h.script
      · exact h.alpha
    · exact ⟨_, hstep, next hstep h.backed h.script h.alpha, fun _ => rfl⟩

theorem run_of_alphaOff (k : Nat) {s : State} (h : AlphaOff s) :
    ∃ t, runFor k s = .next t ∧ ∀ i, chanVal .a (pixel t i) = chanVal .a (pixel s i) := by
  induction k generalizing s with
  | zero => exact ⟨s, rfl, fun _ => rfl⟩
  | succ k ih =>
    obtain ⟨u, hstep, hu, hkeep⟩ := step_of_alphaOff h
    obtain ⟨t, hrun, hkeep'⟩ := ih hu
    exact ⟨t, (runFor_succ hstep k).trans hrun, fun i => (hkeep' i).trans (hkeep i)⟩

/-- Settles O54: the sweep's steps are a run of steps that keep every A field. -/
theorem alphaPassesThrough : Obligations.AlphaPassesThrough := fun s hinv hbacked hs _ huop halpha =>
  run_of_alphaOff (2 * lineLen s)
    ⟨hinv, WindowAhead.windowAhead_of_uop (by rw [huop]; nofun) (by rw [huop]; nofun), hbacked, hs, halpha⟩

end Sys2Proof.Proofs.EngineSteps
end

section
/-! SUPPORT. Proofs about line addressing (spec/42_pass_drivers.md R85, R86): the index of a position, divided by the
grid's width, gives its row and its column. -/

namespace Sys2Proof.Proofs.LineAddressing

open Sys2Proof.Machine Sys2Proof.Safety Sys2Proof.Laws

/-! ### One line -/

/-- Settles O12: the operand functions by their cases of SEQ.PASS, and a position of a line has 16 bits (R31). -/
theorem lineGeometry : Obligations.LineGeometry := fun s =>
  ⟨fun hp => ⟨by rw [lineBase, hp], by rw [lineStride, hp], lineLen_row hp⟩,
    fun hp => ⟨by rw [lineBase, hp], by rw [lineStride, hp], lineLen_column hp⟩,
    fun _ => rfl, fun _ hk => lineIndex_lt s (hk.trans (lineLen_lt s))⟩

theorem passLines_row {s : State} (hp : s.seq.pass = .h) : passLines s = s.height.toNat := by
  rw [passLines, hp]

theorem passLines_column {s : State} (hp : s.seq.pass = .v) : passLines s = s.width.toNat := by
  rw [passLines, hp]

/-- Index `l * w + k` stands in row `l`, column `k`. -/
theorem rowIndex_coords {w k : Nat} (hk : k < w) (l : Nat) : (l * w + k) / w = l ∧ (l * w + k) % w = k := by
  have hw : 0 < w := Nat.zero_lt_of_lt hk
  rw [Nat.mul_comm, Nat.mul_add_div hw, Nat.div_eq_of_lt hk, Nat.mul_add_mod, Nat.mod_eq_of_lt hk]
  exact ⟨rfl, rfl⟩

/-- Index `l + w * k` stands in row `k`, column `l`. -/
theorem columnIndex_coords {w l : Nat} (hl : l < w) (k : Nat) : (l + w * k) / w = k ∧ (l + w * k) % w = l := by
  rw [Nat.add_comm, Nat.mul_comm]
  exact rowIndex_coords hl k

/-- Position `k` of a row stands in that row, column `k`. -/
theorem lineIndex_row_coords {s : State} (hp : s.seq.pass = .h) {k : Nat} (hk : k < lineLen s) :
    lineIndex s k / s.width.toNat = s.seq.line.toNat ∧ lineIndex s k % s.width.toNat = k := by
  rw [lineIndex_row hp]
  exact rowIndex_coords (lineLen_row hp ▸ hk) _

/-- Position `k` of a column stands in that column, row `k`. -/
theorem lineIndex_column_coords {s : State} (hp : s.seq.pass = .v) (hl : s.seq.line.toNat < passLines s) (k : Nat) :
    lineIndex s k / s.width.toNat = k ∧ lineIndex s k % s.width.toNat = s.seq.line.toNat := by
  rw [lineIndex_column hp]
  exact columnIndex_coords (passLines_column hp ▸ hl) k

/-! ### The lines of a pass partition the grid -/

/-- Two lines of one pass that share an index are the same line at the same position. -/
theorem sameLine_of_lineIndex_eq {s t : State} (hw : t.width = s.width) (hp : t.seq.pass = s.seq.pass)
    (hs : s.seq.line.toNat < passLines s) (ht : t.seq.line.toNat < passLines t) {j k : Nat} (hj : j < lineLen s)
    (hk : k < lineLen t) (h : lineIndex s j = lineIndex t k) : s.seq.line = t.seq.line ∧ j = k := by
  rw [← BitVec.toNat_inj]
  cases hps : s.seq.pass with
  | h =>
    obtain ⟨hrow, hcol⟩ := lineIndex_row_coords hps hj
    obtain ⟨hrow', hcol'⟩ := lineIndex_row_coords (hp.trans hps) hk
    rw [hw, ← h] at hrow' hcol'
    exact ⟨hrow.symm.trans hrow', hcol.symm.trans hcol'⟩
  | v =>
    obtain ⟨hrow, hcol⟩ := lineIndex_column_coords hps hs j
    obtain ⟨hrow', hcol'⟩ := lineIndex_column_coords (hp.trans hps) ht k
    rw [hw, ← h] at hrow' hcol'
    exact ⟨hcol.symm.trans hcol', hrow.symm.trans hrow'⟩

/-- A row and a column meet where the row's position is the column and the column's position the row. -/
theorem row_meets_column {s t : State} (hw : t.width = s.width) (hps : s.seq.pass = .h) (hpt : t.seq.pass = .v)
    (ht : t.seq.line.toNat < passLines t) {j k : Nat} (hj : j < lineLen s) :
    lineIndex s j = lineIndex t k ↔ j = t.seq.line.toNat ∧ k = s.seq.line.toNat := by
  constructor
  · intro h
    obtain ⟨hrow, hcol⟩ := lineIndex_row_coords hps hj
    obtain ⟨hrow', hcol'⟩ := lineIndex_column_coords hpt ht k
    rw [hw, ← h] at hrow' hcol'
    exact ⟨hcol.symm.trans hcol', hrow'.symm.trans hrow⟩
  · rintro ⟨rfl, rfl⟩
    rw [lineIndex_row hps, lineIndex_column hpt, hw, Nat.mul_comm, Nat.add_comm]

/-- `s` with another pass and line selected. -/
def onLine (s : State) (p : Pass) (l : Half) : State := { s with seq := { s.seq with pass := p, line := l } }

/-- Every index of the grid is on a line of either pass: its row, or its column. -/
theorem exists_line_of_lt {s : State} (p : Pass) {i : Nat} (hi : i < s.width.toNat * s.height.toNat) :
    ∃ (l : Half) (k : Nat), l.toNat < passLines (onLine s p l) ∧ k < lineLen (onLine s p l) ∧
      lineIndex (onLine s p l) k = i := by
  have hrow : i / s.width.toNat < s.height.toNat := Nat.div_lt_of_lt_mul hi
  have hcol : i % s.width.toNat < s.width.toNat := Nat.mod_lt _ (Nat.pos_of_mul_pos_right (Nat.zero_lt_of_lt hi))
  have toNat_ofNat {l : Nat} {n : Half} (hl : l < n.toNat) : (BitVec.ofNat 16 l).toNat = l :=
    Nat.mod_eq_of_lt (hl.trans n.isLt)
  cases p with
  | h =>
    refine ⟨BitVec.ofNat 16 (i / s.width.toNat), i % s.width.toNat, ?_, hcol, ?_⟩
    · rw [toNat_ofNat hrow]
      exact hrow
    · rw [lineIndex_row rfl]
      show (BitVec.ofNat 16 (i / s.width.toNat)).toNat * s.width.toNat + _ = i
      rw [toNat_ofNat hrow]
      exact Nat.div_add_mod' i s.width.toNat
  | v =>
    refine ⟨BitVec.ofNat 16 (i % s.width.toNat), i / s.width.toNat, ?_, hrow, ?_⟩
    · rw [toNat_ofNat hcol]
      exact hcol
    · rw [lineIndex_column rfl]
      show (BitVec.ofNat 16 (i % s.width.toNat)).toNat + s.width.toNat * _ = i
      rw [toNat_ofNat hcol]
      exact Nat.mod_add_div i s.width.toNat

/-- Settles O13: an index of the grid is its row and its column. -/
theorem linesPartitionTheGrid : Obligations.LinesPartitionTheGrid :=
  ⟨fun _ _ hw _ hp hs ht _ _ hj hk h => sameLine_of_lineIndex_eq hw hp hs ht hj hk h,
    fun _ _ hw _ hps hpt _ ht _ _ hj _ => row_meets_column hw hps hpt ht hj,
    fun s p _ => ⟨fun hi => exists_line_of_lt p hi,
      fun ⟨l, _, hl, hk, hidx⟩ => hidx ▸ lineIndex_lt_grid (s := onLine s p l) hl hk⟩⟩

end Sys2Proof.Proofs.LineAddressing
end

section
/-! SUPPORT. Proofs about the sequencer (spec/42_pass_drivers.md R88, R90; spec/43_host_interface.md R110): what follows
an EMIT, and what an ADVANCE reads. -/

namespace Sys2Proof.Proofs.Sequencer

open Sys2Proof.Machine Sys2Proof.Safety Sys2Proof.Laws

/-! ### LINE_END, by the condition of each of its cases (R88) -/

/-- The command of `s` is HLINE or VLINE, which ends with its one line (R91, R92). -/
abbrev LineCommand (s : State) : Prop := s.opc = opcHline ∨ s.opc = opcVline

theorem lineCommand_congr {s t : State} (h : t.opc = s.opc) : LineCommand t ↔ LineCommand s := by
  rw [LineCommand, h]

theorem not_lineCommand_of_blur {s : State} (h : s.opc = opcBlur) : ¬ LineCommand s := by
  rw [LineCommand, h]
  decide

section
variable {s : State}

theorem lineEnd_of_lineCommand (h : LineCommand s) : lineEnd s = complete s :=
  if_pos h

theorem lineEnd_of_more (h : ¬ LineCommand s) (hmore : s.seq.line.toNat + 1 < passLines s) :
    lineEnd s = nextLine s := by
  rw [lineEnd, if_neg h, if_pos hmore]

theorem lineEnd_of_rowsDone (hopc : s.opc = opcBlur) (hp : s.seq.pass = .h)
    (hlast : passLines s ≤ s.seq.line.toNat + 1) : lineEnd s = nextPass s := by
  rw [lineEnd, if_neg (not_lineCommand_of_blur hopc), if_neg (Nat.not_lt.mpr hlast), if_pos ⟨hopc, hp⟩]

theorem lineEnd_of_passDone (h : ¬ LineCommand s) (hblur : ¬ (s.opc = opcBlur ∧ s.seq.pass = .h))
    (hlast : passLines s ≤ s.seq.line.toNat + 1) : lineEnd s = complete s := by
  rw [lineEnd, if_neg h, if_neg (Nat.not_lt.mpr hlast), if_neg hblur]

end

/-! ### What follows an EMIT -/

/-- `s` after EMIT's write and before SEQ's update. -/
def written (s : State) : State := enginePixelWrite s.seq.pos.toNat (emitPixel s) s

theorem emitted_of_more {s : State} (h : s.seq.pos.toNat + 1 < lineLen s) :
    emitted s = setUop .advance (written s) :=
  if_pos h

theorem emitted_of_last {s : State} (h : lineLen s ≤ s.seq.pos.toNat + 1) : emitted s = lineEnd (written s) :=
  if_neg (Nat.not_lt.mpr h)

/-- Settles O17: the write reads and leaves alone everything the sequencer decides by, so each clause is one case of
LINE_END. -/
theorem emitSequencing : Obligations.EmitSequencing := by
  intro s t hexec
  obtain ⟨-, rfl⟩ := execEmit_next hexec
  refine ⟨fun hmore => ?within, fun hlast => ?_⟩
  case within => rw [emitted_of_more hmore]; exact ⟨rfl, rfl⟩
  rw [emitted_of_last hlast]
  refine ⟨fun hline => ?lineCommand, fun hline hmore => ?nextLine, fun hopc hp hend => ?nextPass,
    fun hline hblur hend => ?complete⟩
  case lineCommand => rw [lineEnd_of_lineCommand (s := written s) hline]; exact ⟨rfl, rfl⟩
  case nextLine => rw [lineEnd_of_more (s := written s) hline hmore]; exact ⟨rfl, rfl⟩
  case nextPass => rw [lineEnd_of_rowsDone (s := written s) hopc hp hend]; exact ⟨rfl, rfl⟩
  case complete => rw [lineEnd_of_passDone (s := written s) hline hblur hend]; exact ⟨rfl, rfl⟩

/-! ### What an ADVANCE reads -/

/-- The line goes on before an ADVANCE, so the position it reads is on the line and ahead of SEQ.POS (R77, R90). -/
theorem advancePos_ahead {s : State} (hmore : s.seq.pos.toNat + 1 < lineLen s) :
    s.seq.pos.toNat < advancePos s ∧ advancePos s < lineLen s := by
  unfold advancePos
  omega

/-- Settles O46: ADVANCE reads ahead of SEQ.POS, and the positions of a line have different indices. -/
theorem advanceReadsAheadOfWrites : Obligations.AdvanceReadsAheadOfWrites := by
  intro s hinv hbusy huop t hexec
  have hrun := hinv.running hbusy
  obtain ⟨-, rfl⟩ := execAdvance_next hexec
  obtain ⟨hahead, hon⟩ := advancePos_ahead (hrun.more huop)
  exact ⟨advancePos s, hahead, hon, rfl, fun j hj hidx =>
    absurd (lineIndex_inj hrun.legal.width hidx) (Nat.lt_of_le_of_lt hj hahead).ne⟩

end Sys2Proof.Proofs.Sequencer
end

section
/-! SUPPORT. Proofs about LINEOUT (spec/42_pass_drivers.md R87): its channels, and the bounds they keep (R100). -/

namespace Sys2Proof.Proofs.LineOut

open Sys2Proof.Machine Sys2Proof.Safety Sys2Proof.Laws

/-- Two pixels with the same four channels are the same (R63). -/
theorem word_ext {p q : Word} (h : ∀ c, chanVal c p = chanVal c q) : p = q := by
  have hext (c : Channel) : extractChannel p c = extractChannel q c := BitVec.eq_of_toNat_eq (h c)
  rw [← pack_extract p, ← pack_extract q, hext, hext, hext, hext]

section
variable {x : Nat → Word} {n r j : Nat} {c : Channel}

/-- A blurred channel is an average of the line's, so it keeps their bounds (R70, R74). -/
theorem lineOutChannel_bounds {lo hi : Nat} (hn : 0 < n)
    (h : ∀ k < n, lo ≤ chanVal c (x k) ∧ chanVal c (x k) ≤ hi) :
    lo ≤ lineOutChannel x n r j c ∧ lineOutChannel x n r j c ≤ hi := by
  obtain ⟨hlo, hhi⟩ := tentSum_bounds fun i (_ : i ≤ 2 * r) => h _ (WindowAhead.clampPos_lt hn r j i)
  rw [WindowEngine.sum_tent, ← WindowEngine.divisor_eq_sq] at hlo hhi
  have hdiv : 0 < divisor r := Nat.succ_pos _
  exact ⟨(Nat.le_div_iff_mul_le hdiv).mpr hlo, Nat.div_le_of_le_mul (Nat.mul_comm hi _ ▸ hhi)⟩

/-- A blurred channel fits 8 bits (R65). -/
theorem lineOutChannel_lt (hn : 0 < n) : lineOutChannel x n r j c < 2 ^ 8 :=
  Nat.lt_succ_of_le (lineOutChannel_bounds (lo := 0) hn fun _ _ => ⟨Nat.zero_le _, chanVal_le c _⟩).2

/-- LINEOUT by channel: the blurred channel, or for an A that is not blurred the pixel's own (R76). -/
theorem chanVal_lineOut (alpha : Bool) (hn : 0 < n) :
    chanVal c (lineOut alpha x n r j) =
      if c = .a ∧ alpha = false then chanVal c (x j) else lineOutChannel x n r j c := by
  have hbyte (d : Channel) : (BitVec.ofNat 8 (lineOutChannel x n r j d)).toNat = lineOutChannel x n r j d :=
    Nat.mod_eq_of_lt (lineOutChannel_lt hn)
  unfold chanVal lineOut
  cases c with
  | b => rw [extract_pack_b, hbyte]; rfl
  | g => rw [extract_pack_g, hbyte]; rfl
  | r => rw [extract_pack_r, hbyte]; rfl
  | a =>
    rw [extract_pack_a]
    cases alpha
    · rfl
    · exact hbyte .a

/-- LINEOUT keeps every bound a channel has on the line (R100 (e)). -/
theorem chanVal_lineOut_bounds (alpha : Bool) {lo hi : Nat} (hj : j < n)
    (h : ∀ k < n, lo ≤ chanVal c (x k) ∧ chanVal c (x k) ≤ hi) :
    lo ≤ chanVal c (lineOut alpha x n r j) ∧ chanVal c (lineOut alpha x n r j) ≤ hi := by
  have hn : 0 < n := Nat.zero_lt_of_lt hj
  rw [chanVal_lineOut alpha hn]
  split
  · exact h j hj
  · exact lineOutChannel_bounds hn h

/-- A line of equal pixels is its own LINEOUT: each channel's bounds coincide (R100 (a)). -/
theorem lineOut_of_uniform (alpha : Bool) {p : Word} (hj : j < n) (h : ∀ k < n, x k = p) :
    lineOut alpha x n r j = p := by
  refine word_ext fun d => ?_
  obtain ⟨hlo, hhi⟩ := chanVal_lineOut_bounds (r := r) alpha hj fun k hk =>
    ⟨(congrArg (chanVal d) (h k hk)).ge, (congrArg (chanVal d) (h k hk)).le⟩
  exact Nat.le_antisymm hhi hlo

end

end Sys2Proof.Proofs.LineOut
end

section
/-! SUPPORT. Proofs about one sweep (spec/42_pass_drivers.md R87, R89, R90): the window holds the line as it was before
the sweep, so each EMIT writes LINEOUT of it. -/

namespace Sys2Proof.Proofs.Sweep

open Sys2Proof.Machine Sys2Proof.Safety Sys2Proof.Laws Sys2Proof.Proofs.Sequencer

/-! ### Runs of a busy block -/

/-- `k` steps lead from `s` to `t`, and BUSY is 1 before each. -/
inductive BusyRun : Nat → State → State → Prop where
  | zero (s : State) : BusyRun 0 s s
  | succ {k : Nat} {s u t : State} : s.status.busy = true → step s = .next u → BusyRun k u t → BusyRun (k + 1) s t

namespace BusyRun

variable {k l : Nat} {s u t : State}

theorem single (hbusy : s.status.busy = true) (hstep : step s = .next u) : BusyRun 1 s u :=
  .succ hbusy hstep (.zero u)

theorem runFor_eq (h : BusyRun k s t) : runFor k s = .next t := by
  induction h with
  | zero s => rfl
  | succ _ hstep _ ih => exact (EngineSteps.runFor_succ hstep _).trans ih

theorem busy (h : BusyRun k s t) {j : Nat} (hj : j < k) : ∃ u, runFor j s = .next u ∧ u.status.busy = true := by
  induction h generalizing j with
  | zero s => exact absurd hj (Nat.not_lt_zero j)
  | succ hbusy hstep _ ih =>
    cases j with
    | zero => exact ⟨_, rfl, hbusy⟩
    | succ j =>
      rw [EngineSteps.runFor_succ hstep]
      exact ih (Nat.lt_of_succ_lt_succ hj)

theorem trans (h : BusyRun k s u) (h' : BusyRun l u t) : BusyRun (k + l) s t := by
  induction h with
  | zero s => rwa [Nat.zero_add]
  | succ hbusy hstep _ ih =>
    rw [Nat.succ_add]
    exact .succ hbusy hstep (ih h')

theorem inv (h : BusyRun k s t) (hinv : Inv s) : Inv t := by
  induction h with
  | zero s => exact hinv
  | succ _ hstep _ ih => exact ih (Invariant.stepKeepsInv _ _ hinv hstep)

end BusyRun

/-! ### A running command with nothing else pending -/

/-- A running command on a platform that backs its grid, with no event pending. -/
structure Ready (s : State) : Prop where
  inv : Inv s
  backed : Backed s
  script : s.script = []
  busy : s.status.busy = true

/-- What stays the same from one line of a command to the next. -/
structure SameCommand (s t : State) : Prop where
  config : SameConfig s t
  opc : t.opc = s.opc
  status : t.status = s.status
  script : t.script = s.script
  backed : t.backed = s.backed

theorem sameConfig_trans {s u t : State} (h : SameConfig s u) (h' : SameConfig u t) : SameConfig s t :=
  ⟨h'.blurAlpha.trans h.blurAlpha, h'.buflen.trans h.buflen, h'.width.trans h.width, h'.height.trans h.height,
    h'.radius.trans h.radius⟩

theorem SameCommand.trans {s u t : State} (h : SameCommand s u) (h' : SameCommand u t) : SameCommand s t :=
  ⟨sameConfig_trans h.config h'.config, h'.opc.trans h.opc, h'.status.trans h.status,
    h'.script.trans h.script, h'.backed.trans h.backed⟩

theorem SameCommand.ready {s t : State} (h : SameCommand s t) (hs : Ready s) (hinv : Inv t) : Ready t where
  inv := hinv
  backed := by
    unfold Backed
    rw [h.config.width, h.config.height, h.backed]
    exact hs.backed
  script := h.script.trans hs.script
  busy := by rw [h.status]; exact hs.busy

namespace Ready

variable {s : State} (h : Ready s)
include h

theorem running : Running s := h.inv.running h.busy

theorem step_cases :
    (s.seq.uop = .seed ∧ step s = .next (seeded s)) ∨ (s.seq.uop = .emit ∧ step s = .next (emitted s)) ∨
      (s.seq.uop = .advance ∧ step s = .next (advanced s)) :=
  EngineSteps.step_of_running h.script h.busy h.running h.backed

theorem run_seed (huop : s.seq.uop = .seed) : BusyRun 1 s (seeded s) :=
  .single h.busy (by simpa [huop] using h.step_cases)

theorem run_emit (huop : s.seq.uop = .emit) : BusyRun 1 s (emitted s) :=
  .single h.busy (by simpa [huop] using h.step_cases)

theorem run_advance (huop : s.seq.uop = .advance) : BusyRun 1 s (advanced s) :=
  .single h.busy (by simpa [huop] using h.step_cases)

end Ready

/-! ### What a sweep has done so far -/

/-- The contents of the current line. -/
def lineContents (s : State) (k : Nat) : Word := pixel s (lineIndex s k)

/-- What the sweep that begins at `s` writes to position `j`. -/
def blurred (s : State) (j : Nat) : Word := lineOut s.blurAlpha (lineContents s) (lineLen s) s.radius.val j

/-- The line of `s`, still under way in `t`, is blurred at its first `m` positions, and no other pixel has changed. -/
structure LineWritten (s : State) (m : Nat) (t : State) : Prop where
  same : SameCommand s t
  pass : t.seq.pass = s.seq.pass
  line : t.seq.line = s.seq.line
  done : ∀ k < m, pixel t (lineIndex s k) = blurred s k
  kept : ∀ i, (∀ k < m, i ≠ lineIndex s k) → pixel t i = pixel s i

/-- What the sweep that begins at `s` accesses from its EMIT of position `j` on, up to its next EMIT (R89). -/
def emitAccesses (s : State) (j : Nat) : List Access :=
  .write (lineIndex s j) (blurred s j) ::
    (if j + 1 < lineLen s then [.read (lineIndex s (min (j + s.radius.val + 1) (lineLen s - 1)))] else [])

/-- What the sweep that begins at `s` accesses before its EMIT of position `j` (R89). -/
def accessesBefore (s : State) (j : Nat) : List Access :=
  ((List.range (min s.radius.val (lineLen s - 1) + 1)).map fun k => .read (lineIndex s k)) ++
    (List.range j).flatMap (emitAccesses s)

theorem accessesBefore_succ (s : State) (j : Nat) :
    accessesBefore s (j + 1) = accessesBefore s j ++ emitAccesses s j := by
  simp [accessesBefore, List.range_succ]

/-- Part of the way through the sweep that begins at `s`, SEQ.POS is `j` and the window is the one that position has on
the line as it was at `s` (R71, R79 (a), R90). -/
structure OnPosition (s : State) (j : Nat) (t : State) : Prop where
  pos : t.seq.pos.toNat = j
  window : ∀ i ≤ 2 * s.radius.val, winAt t i = lineContents s (clampPos (lineLen s) s.radius.val j i)

/-- `t` is where the sweep that begins at `s` stands before its EMIT of position `j`. -/
structure BeforeEmit (s : State) (j : Nat) (t : State) : Prop extends LineWritten s j t, OnPosition s j t where
  uop : t.seq.uop = .emit
  accesses : t.accesses = s.accesses ++ accessesBefore s j

/-- `t` is where the sweep that begins at `s` stands before its ADVANCE from position `j`. -/
structure BeforeAdvance (s : State) (j : Nat) (t : State) : Prop extends LineWritten s (j + 1) t, OnPosition s j t where
  uop : t.seq.uop = .advance
  accesses : t.accesses = s.accesses ++ accessesBefore s j ++ [.write (lineIndex s j) (blurred s j)]
  more : j + 1 < lineLen s

section
variable {s t : State} {m : Nat}

theorem LineWritten.geometry (h : LineWritten s m t) :
    lineIndex t = lineIndex s ∧ lineLen t = lineLen s ∧ passLines t = passLines s :=
  lineGeometry_congr ⟨h.pass, h.line⟩ h.same.config.width h.same.config.height

theorem LineWritten.radius (h : LineWritten s m t) : t.radius.val = s.radius.val :=
  congrArg Fin.val h.same.config.radius

/-- A state that differs from one of the sweep in the window, the sums, the position, the micro-operation and the
access list alone. -/
theorem LineWritten.of_sameMem {u : State} (h : LineWritten s m t) (hsame : SameCommand t u)
    (hpass : u.seq.pass = t.seq.pass) (hline : u.seq.line = t.seq.line) (hmem : u.mem = t.mem) : LineWritten s m u where
  same := h.same.trans hsame
  pass := hpass.trans h.pass
  line := hline.trans h.line
  done := by unfold pixel; rw [hmem]; exact h.done
  kept := by unfold pixel; rw [hmem]; exact h.kept

theorem lineWritten_zero (s : State) : LineWritten s 0 s where
  same := ⟨⟨rfl, rfl, rfl, rfl, rfl⟩, rfl, rfl, rfl, rfl⟩
  pass := rfl
  line := rfl
  done := fun k hk => absurd hk (Nat.not_lt_zero k)
  kept := fun _ _ => rfl

/-- SEED fills the window from the line and writes no pixel (R72). -/
theorem beforeEmit_seeded (s : State) : BeforeEmit s 0 (seeded s) where
  toLineWritten := (lineWritten_zero s).of_sameMem ⟨⟨rfl, rfl, rfl, rfl, rfl⟩, rfl, rfl, rfl, rfl⟩ rfl rfl rfl
  uop := rfl
  pos := rfl
  window := fun i hi => by
    rw [winAt_seeded_le hi]
    refine congrArg (lineContents s) (?_ : _ = clampPos (lineLen s) s.radius.val 0 i)
    unfold seedLast clampPos
    omega
  accesses := congrArg (s.accesses ++ ·) (List.append_nil _).symm

end

section
variable {s t : State} {j : Nat} (h : BeforeEmit s j t) (hready : Ready t)
include h hready

theorem BeforeEmit.lt_lineLen : j < lineLen s := by
  obtain ⟨-, hlen, -⟩ := h.geometry
  have hpos := hready.running.pos (by rw [h.uop]; nofun)
  rwa [h.pos, hlen] at hpos

/-- EMIT's pixel is LINEOUT of the line: the sums are those of the window, and the window is that of the line (R74,
R79). -/
theorem BeforeEmit.emitPixel_eq : emitPixel t = blurred s j := by
  have hrun := hready.running
  have hdiv : t.div ≠ 0 := fun h0 => nomatch (congrArg BitVec.toNat h0).symm.trans hrun.div
  have hsum (c : Channel) : (t.sum.get c).toNat / t.div.toNat =
      lineOutChannel (lineContents s) (lineLen s) s.radius.val j c := by
    rw [(hrun.sums (by rw [h.uop]; nofun) c).sum, hrun.div, h.radius, lineOutChannel]
    congr 1
    refine Finset.sum_congr rfl fun i hi => ?_
    rw [h.window i (Nat.lt_succ_iff.mp (Finset.mem_range.mp hi))]
  have hcentre : winAt t t.radius.val = lineContents s j := by
    have hj := h.lt_lineLen hready
    rw [h.radius, h.window _ (by omega)]
    refine congrArg (lineContents s) ?_
    unfold clampPos
    omega
  rw [WindowEngine.emitPixel_eq hdiv, hsum, hsum, hsum, hsum, hcentre, h.same.config.blurAlpha]
  rfl

theorem BeforeEmit.written_mem : (written t).mem = writePixel t.mem (lineIndex s j) (blurred s j) := by
  obtain ⟨hidx, -, -⟩ := h.geometry
  rw [written, enginePixelWrite_mem, h.emitPixel_eq hready, hidx, h.pos]

theorem BeforeEmit.written_accesses :
    (written t).accesses = s.accesses ++ accessesBefore s j ++ [.write (lineIndex s j) (blurred s j)] := by
  obtain ⟨hidx, -, -⟩ := h.geometry
  rw [written, enginePixelWrite_accesses, h.emitPixel_eq hready, hidx, h.pos, h.accesses]

/-- EMIT blurs position `j` and leaves every other pixel alone (R75). -/
theorem BeforeEmit.lineWritten_written : LineWritten s (j + 1) (written t) where
  same := h.same.trans ⟨⟨rfl, rfl, rfl, rfl, rfl⟩, rfl, rfl, rfl, rfl⟩
  pass := h.pass
  line := h.line
  done := fun k hk => by
    rw [pixel, h.written_mem hready]
    rcases Nat.lt_succ_iff_lt_or_eq.mp hk with hlt | rfl
    · have hwidth : 0 < s.width.toNat := h.same.config.width ▸ hready.running.legal.width
      rw [readPixel_writePixel_other _ fun hidx => hlt.ne (lineIndex_inj hwidth hidx)]
      exact h.done k hlt
    · exact readPixel_writePixel_same hready.inv.memory (h.pos ▸ lineIndex_lt s t.seq.pos.isLt) _
  kept := fun i hi => by
    rw [pixel, h.written_mem hready, readPixel_writePixel_other _ (hi j (Nat.lt_succ_self j))]
    exact h.kept i fun k hk => hi k (Nat.lt_succ_of_lt hk)

theorem BeforeEmit.beforeAdvance (hmore : j + 1 < lineLen s) : BeforeAdvance s j (setUop .advance (written t)) where
  toLineWritten := (h.lineWritten_written hready).of_sameMem
    ⟨⟨rfl, rfl, rfl, rfl, rfl⟩, rfl, rfl, rfl, rfl⟩ rfl rfl rfl
  pos := h.pos
  window := h.window
  uop := rfl
  accesses := h.written_accesses hready
  more := hmore

end

section
variable {s t : State} {j : Nat} (h : BeforeAdvance s j t)
include h

theorem BeforeAdvance.advancePos_eq : advancePos t = min (j + s.radius.val + 1) (lineLen s - 1) := by
  obtain ⟨-, hlen, -⟩ := h.geometry
  rw [advancePos, h.pos, h.radius, hlen]

/-- ADVANCE reads a position the sweep has not written (R90). -/
theorem BeforeAdvance.incoming_eq (hwidth : 0 < s.width.toNat) :
    linePixel t (advancePos t) = lineContents s (min (j + s.radius.val + 1) (lineLen s - 1)) := by
  have hmore := h.more
  obtain ⟨hidx, -, -⟩ := h.geometry
  rw [linePixel, h.advancePos_eq, hidx]
  refine h.kept _ fun k hk hsame => ?_
  have hpos := lineIndex_inj hwidth hsame
  omega

/-- ADVANCE makes the window that of the next position (R77). -/
theorem BeforeAdvance.window_advanced (hwidth : 0 < s.width.toNat) {i : Nat} (hi : i ≤ 2 * s.radius.val) :
    winAt (advanced t) i = lineContents s (clampPos (lineLen s) s.radius.val (j + 1) i) := by
  have hr := h.radius
  rw [winAt_advanced_le (hr ▸ hi), h.incoming_eq hwidth]
  rcases Nat.lt_or_eq_of_le hi with hlt | rfl
  · rw [shiftedWindow_lt (hr ▸ hlt), h.window (i + 1) hlt]
    refine congrArg (lineContents s) ?_
    unfold clampPos
    omega
  · rw [← hr, shiftedWindow_last]
    refine congrArg (lineContents s) ?_
    unfold clampPos
    omega

theorem BeforeAdvance.beforeEmit (hwidth : 0 < s.width.toNat) : BeforeEmit s (j + 1) (advanced t) where
  toLineWritten := h.of_sameMem ⟨⟨rfl, rfl, rfl, rfl, rfl⟩, rfl, rfl, rfl, rfl⟩ rfl rfl rfl
  pos := by
    obtain ⟨-, hlen, -⟩ := h.geometry
    rw [Invariant.advanced_pos (by rw [h.pos, hlen]; exact h.more), h.pos]
  window := fun _ hi => h.window_advanced hwidth hi
  uop := rfl
  accesses := by
    obtain ⟨hidx, -, -⟩ := h.geometry
    show t.accesses ++ [.read (lineIndex t (advancePos t))] = _
    rw [h.accesses, hidx, h.advancePos_eq, accessesBefore_succ, emitAccesses, if_pos h.more]
    simp

end

/-! ### The sweep -/

section
variable {s : State} (h : Ready s) (huop : s.seq.uop = .seed)
include h huop

/-- The sweep reaches its EMIT of every position of the line. -/
theorem sweep_reaches {j : Nat} (hj : j < lineLen s) : ∃ t, BusyRun (1 + 2 * j) s t ∧ BeforeEmit s j t := by
  induction j with
  | zero => exact ⟨_, h.run_seed huop, beforeEmit_seeded s⟩
  | succ j ih =>
    obtain ⟨t, hrun, hat⟩ := ih (Nat.lt_of_succ_lt hj)
    have hready := hat.same.ready h (hrun.inv h.inv)
    obtain ⟨-, hlen, -⟩ := hat.geometry
    have hemit : BusyRun 1 t (setUop .advance (written t)) := by
      rw [← emitted_of_more (by rw [hat.pos, hlen]; exact hj)]
      exact hready.run_emit hat.uop
    have hnext := hat.beforeAdvance hready hj
    have hready' := hnext.same.ready h (hemit.inv hready.inv)
    exact ⟨_, (hrun.trans hemit).trans (hready'.run_advance rfl), hnext.beforeEmit h.running.legal.width⟩

/-- The sweep of a line: after its last EMIT's write, at which LINE_END applies, the whole line is blurred. -/
theorem sweep : ∃ t, BusyRun (2 * lineLen s) s (lineEnd t) ∧ LineWritten s (lineLen s) t ∧
    t.accesses = s.accesses ++ accessesBefore s (lineLen s) := by
  have hpos := PixelMemory.lineLen_pos h.running.legal
  obtain ⟨n, hn⟩ : ∃ n, lineLen s = n + 1 := ⟨lineLen s - 1, by omega⟩
  obtain ⟨t, hrun, hat⟩ := sweep_reaches h huop (show n < lineLen s by omega)
  have hready := hat.same.ready h (hrun.inv h.inv)
  obtain ⟨-, hlen, -⟩ := hat.geometry
  have hemit : BusyRun 1 t (lineEnd (written t)) := by
    rw [← emitted_of_last (by rw [hat.pos, hlen, hn])]
    exact hready.run_emit hat.uop
  refine ⟨written t, ?_, ?_, ?_⟩
  · rw [hn, show 2 * (n + 1) = 1 + 2 * n + 1 by omega]
    exact hrun.trans hemit
  · rw [hn]
    exact hat.lineWritten_written hready
  · rw [hat.written_accesses hready, hn, accessesBefore_succ, List.append_assoc, emitAccesses, hn,
      if_neg (Nat.lt_irrefl _)]

end

/-- LINE_END changes SEQ and STATUS alone (R88). -/
theorem lineEnd_frame (s : State) : lineEnd s = { s with seq := (lineEnd s).seq, status := (lineEnd s).status } := by
  rcases lineEnd_cases s with h | ⟨h, -⟩ | ⟨h, -⟩ <;> rw [h] <;> rfl

theorem pixel_lineEnd (s : State) (i : Nat) : pixel (lineEnd s) i = pixel s i := by
  rw [lineEnd_frame]

theorem accesses_lineEnd (s : State) : (lineEnd s).accesses = s.accesses := by
  rw [lineEnd_frame]

theorem sameConfig_lineEnd {s t : State} (h : SameConfig s t) : SameConfig s (lineEnd t) := by
  rw [lineEnd_frame]
  exact ⟨h.blurAlpha, h.buflen, h.width, h.height, h.radius⟩

/-- Settles O48: LINE_END moves no pixel and makes no access. -/
theorem sweepWritesLineOut : Obligations.SweepWritesLineOut := by
  intro s hinv hbacked hs hbusy huop
  obtain ⟨t, hrun, hwritten, hacc⟩ := sweep ⟨hinv, hbacked, hs, hbusy⟩ huop
  exact ⟨lineEnd t, hrun.runFor_eq, sameConfig_lineEnd hwritten.same.config,
    fun j hj => (pixel_lineEnd t _).trans (hwritten.done j hj),
    fun i hi => (pixel_lineEnd t i).trans (hwritten.kept i hi), (accesses_lineEnd t).trans hacc⟩

/-- Settles O53: LINEOUT keeps the bounds. -/
theorem blurredChannelStaysWithinLineBounds : Obligations.BlurredChannelStaysWithinLineBounds := by
  intro s hinv hbacked hs hbusy huop
  obtain ⟨t, hrun, -, hline, -⟩ := sweepWritesLineOut s hinv hbacked hs hbusy huop
  refine ⟨t, hrun, fun c lo hi hbounds j hj => ?_⟩
  rw [hline j hj]
  exact LineOut.chanVal_lineOut_bounds s.blurAlpha hj hbounds

end Sys2Proof.Proofs.Sweep
end

section
/-! SUPPORT. Proofs about the reference grids (spec/42_pass_drivers.md R87, R96): a pass built up line by line, and the
grids that blurring leaves alone. -/

namespace Sys2Proof.Proofs.PassGrids

open Sys2Proof.Machine Sys2Proof.Safety Sys2Proof.Laws

/-- The columns of `g` before column `x` blurred, every other index as before. -/
def blurColumnsBelow (alpha : Bool) (w h r x : Nat) (g : Grid) : Grid := fun i =>
  if i % w < x ∧ i / w < h then lineOut alpha (fun k => g (i % w + w * k)) h r (i / w) else g i

/-- An index is in one of the first `y` rows exactly when its row is. -/
theorem lt_mul_iff_row_lt {w : Nat} (hw : 0 < w) (i y : Nat) : i < w * y ↔ i / w < y := by
  rw [Nat.div_lt_iff_lt_mul hw, Nat.mul_comm]

section
variable {alpha : Bool} {w h r : Nat} {g : Grid}

/-- Blurring row `y` after the rows before it blurs the rows up to it. -/
theorem blurRow_blurRows (hw : 0 < w) (y : Nat) :
    blurRow alpha w r y (blurRows alpha w y r g) = blurRows alpha w (y + 1) r g := by
  funext i
  simp only [blurRow, blurRows, lt_mul_iff_row_lt hw]
  have hrow (k : Nat) : ¬ (y * w + k) / w < y := by
    rw [Nat.not_lt, Nat.le_div_iff_mul_le hw]
    exact Nat.le_add_right _ _
  by_cases hi : i / w = y
  · simp [hi, hrow]
  · rw [if_neg hi]
    exact if_congr (by omega) rfl rfl

/-- Blurring column `x` after the columns before it blurs the columns up to it. -/
theorem blurColumn_blurColumnsBelow {x : Nat} (hx : x < w) :
    blurColumn alpha w h r x (blurColumnsBelow alpha w h r x g) = blurColumnsBelow alpha w h r (x + 1) g := by
  funext i
  unfold blurColumn blurColumnsBelow
  have hcol (k : Nat) : (x + w * k) % w = x := (LineAddressing.columnIndex_coords hx k).2
  by_cases hi : i % w = x ∧ i / w < h
  · obtain ⟨hi, hrow⟩ := hi
    simp [hi, hrow, hcol]
  · rw [if_neg hi]
    exact if_congr (by omega) rfl rfl

/-- The columns below the width are all columns. -/
theorem blurColumnsBelow_width (hw : 0 < w) : blurColumnsBelow alpha w h r w g = blurColumns alpha w h r g := by
  funext i
  exact if_congr ((and_iff_right (Nat.mod_lt i hw)).trans (lt_mul_iff_row_lt hw i h).symm) rfl rfl

/-- Rows of equal pixels stay as they were (R100 (a)). -/
theorem blurRows_of_uniform {p : Word} (hw : 0 < w) (hg : ∀ i < w * h, g i = p) : blurRows alpha w h r g = g := by
  funext i
  unfold blurRows
  split
  case isTrue hi =>
    rw [hg i hi]
    refine LineOut.lineOut_of_uniform alpha (Nat.mod_lt i hw) fun k hk => hg _ ?_
    rw [lt_mul_iff_row_lt hw, (LineAddressing.rowIndex_coords hk _).1]
    exact (lt_mul_iff_row_lt hw i h).mp hi
  case isFalse => rfl

/-- Columns of equal pixels stay as they were (R100 (a)). -/
theorem blurColumns_of_uniform {p : Word} (hw : 0 < w) (hg : ∀ i < w * h, g i = p) :
    blurColumns alpha w h r g = g := by
  funext i
  unfold blurColumns
  split
  case isTrue hi =>
    rw [hg i hi]
    refine LineOut.lineOut_of_uniform alpha ((lt_mul_iff_row_lt hw i h).mp hi) fun k hk => hg _ ?_
    rw [lt_mul_iff_row_lt hw, (LineAddressing.columnIndex_coords (Nat.mod_lt i hw) k).1]
    exact hk
  case isFalse => rfl

end

/-! ### The lines of the current pass -/

/-- Line `l` of the current pass of `s` blurred in `g`. -/
def blurLine (s : State) (l : Nat) (g : Grid) : Grid :=
  match s.seq.pass with
  | .h => blurRow s.blurAlpha s.width.toNat s.radius.val l g
  | .v => blurColumn s.blurAlpha s.width.toNat s.height.toNat s.radius.val l g

/-- The lines of the current pass of `s` before line `l` blurred in `g`. -/
def blurLinesBelow (s : State) (l : Nat) (g : Grid) : Grid :=
  match s.seq.pass with
  | .h => blurRows s.blurAlpha s.width.toNat l s.radius.val g
  | .v => blurColumnsBelow s.blurAlpha s.width.toNat s.height.toNat s.radius.val l g

section
variable {s : State} {g : Grid}

theorem blurLine_row (hp : s.seq.pass = .h) (l : Nat) :
    blurLine s l g = blurRow s.blurAlpha s.width.toNat s.radius.val l g := by
  rw [blurLine, hp]

theorem blurLine_column (hp : s.seq.pass = .v) (l : Nat) :
    blurLine s l g = blurColumn s.blurAlpha s.width.toNat s.height.toNat s.radius.val l g := by
  rw [blurLine, hp]

theorem blurLinesBelow_row (hp : s.seq.pass = .h) (l : Nat) :
    blurLinesBelow s l g = blurRows s.blurAlpha s.width.toNat l s.radius.val g := by
  rw [blurLinesBelow, hp]

theorem blurLinesBelow_column (hp : s.seq.pass = .v) (l : Nat) :
    blurLinesBelow s l g = blurColumnsBelow s.blurAlpha s.width.toNat s.height.toNat s.radius.val l g := by
  rw [blurLinesBelow, hp]

theorem blurLinesBelow_zero : blurLinesBelow s 0 g = g := by
  funext i
  cases hp : s.seq.pass with
  | h => rw [blurLinesBelow_row hp]; exact if_neg (Nat.not_lt_zero i)
  | v => rw [blurLinesBelow_column hp]; exact if_neg fun ⟨hlt, _⟩ => Nat.not_lt_zero _ hlt

theorem blurLine_blurLinesBelow (hw : 0 < s.width.toNat) {l : Nat} (hl : l < passLines s) :
    blurLine s l (blurLinesBelow s l g) = blurLinesBelow s (l + 1) g := by
  cases hp : s.seq.pass with
  | h => rw [blurLine_row hp, blurLinesBelow_row hp, blurLinesBelow_row hp, blurRow_blurRows hw]
  | v =>
    rw [LineAddressing.passLines_column hp] at hl
    rw [blurLine_column hp, blurLinesBelow_column hp, blurLinesBelow_column hp, blurColumn_blurColumnsBelow hl]

theorem blurLinesBelow_congr {t : State} (hsame : SameConfig s t) (hp : t.seq.pass = s.seq.pass) (l : Nat) :
    blurLinesBelow t l g = blurLinesBelow s l g := by
  unfold blurLinesBelow
  rw [hp, hsame.blurAlpha, hsame.width, hsame.height, hsame.radius]

end

section
variable {s : State}

/-- On the current line its blur is LINEOUT of its contents. -/
theorem blurLine_on (hline : s.seq.line.toNat < passLines s) {k : Nat} (hk : k < lineLen s) :
    blurLine s s.seq.line.toNat (pixel s) (lineIndex s k) = Sweep.blurred s k := by
  cases hp : s.seq.pass with
  | h =>
    obtain ⟨hrow, hcol⟩ := LineAddressing.lineIndex_row_coords hp hk
    have hcontents : Sweep.lineContents s = fun k => pixel s (s.seq.line.toNat * s.width.toNat + k) :=
      funext fun k => congrArg (pixel s) (lineIndex_row hp k)
    rw [blurLine_row hp, blurRow, if_pos hrow, hcol, Sweep.blurred, hcontents, lineLen_row hp]
  | v =>
    obtain ⟨hrow, hcol⟩ := LineAddressing.lineIndex_column_coords hp hline k
    have hcontents : Sweep.lineContents s = fun k => pixel s (s.seq.line.toNat + s.width.toNat * k) :=
      funext fun k => congrArg (pixel s) (lineIndex_column hp k)
    have hheight : k < s.height.toNat := lineLen_column hp ▸ hk
    rw [blurLine_column hp, blurColumn, hrow, hcol, if_pos ⟨rfl, hheight⟩, Sweep.blurred, hcontents,
      lineLen_column hp]

/-- The blur of the current line leaves every other index alone. -/
theorem blurLine_off (hw : 0 < s.width.toNat) {i : Nat} (hi : ∀ k < lineLen s, i ≠ lineIndex s k) :
    blurLine s s.seq.line.toNat (pixel s) i = pixel s i := by
  cases hp : s.seq.pass with
  | h =>
    rw [blurLine_row hp, blurRow, if_neg]
    intro hrow
    refine hi (i % s.width.toNat) (by rw [lineLen_row hp]; exact Nat.mod_lt i hw) ?_
    rw [lineIndex_row hp, ← hrow, Nat.div_add_mod']
  | v =>
    rw [blurLine_column hp, blurColumn, if_neg]
    rintro ⟨hcol, hheight⟩
    refine hi (i / s.width.toNat) (by rw [lineLen_column hp]; exact hheight) ?_
    rw [lineIndex_column hp, ← hcol, Nat.mod_add_div]

/-- A finished sweep has blurred its line and nothing else. -/
theorem pixel_of_lineWritten {t : State} (hw : 0 < s.width.toNat) (hline : s.seq.line.toNat < passLines s)
    (h : Sweep.LineWritten s (lineLen s) t) : pixel t = blurLine s s.seq.line.toNat (pixel s) := by
  funext i
  by_cases hi : ∃ k < lineLen s, i = lineIndex s k
  · obtain ⟨k, hk, rfl⟩ := hi
    rw [blurLine_on hline hk]
    exact h.done k hk
  · have hoff : ∀ k < lineLen s, i ≠ lineIndex s k := fun k hk heq => hi ⟨k, hk, heq⟩
    rw [blurLine_off hw hoff]
    exact h.kept i hoff

end

end Sys2Proof.Proofs.PassGrids
end

section
/-! SUPPORT. Proofs about whole commands (spec/42_pass_drivers.md R91 to R97, R99, R100): the command write, then one
sweep per line in the order of LINE_END. -/

namespace Sys2Proof.Proofs.PassDrivers

open Sys2Proof.Machine Sys2Proof.Safety Sys2Proof.Laws Sys2Proof.Proofs.Sequencer Sys2Proof.Proofs.Sweep
  Sys2Proof.Proofs.PassGrids

/-! ### The lines of a pass -/

theorem lineLen_congr {s t : State} (hsame : SameConfig s t) (hp : t.seq.pass = s.seq.pass) :
    lineLen t = lineLen s := by
  unfold lineLen
  rw [hp, hsame.width, hsame.height]

theorem passLines_congr {s t : State} (hsame : SameConfig s t) (hp : t.seq.pass = s.seq.pass) :
    passLines t = passLines s := by
  unfold passLines
  rw [hp, hsame.width, hsame.height]

/-- `t` is where the last line of the pass of `s` ends, and the pass has made the grid `g`. -/
structure PassDone (s : State) (g : Grid) (t : State) : Prop where
  same : SameCommand s t
  pass : t.seq.pass = s.seq.pass
  last : passLines t ≤ t.seq.line.toNat + 1
  grid : pixel t = g

/-- The sweep of a line, in terms of grids. -/
theorem sweep_grid {s : State} (h : Ready s) (huop : s.seq.uop = .seed) :
    ∃ t, BusyRun (2 * lineLen s) s (lineEnd t) ∧ SameCommand s t ∧ t.seq.pass = s.seq.pass ∧
      t.seq.line = s.seq.line ∧ pixel t = blurLine s s.seq.line.toNat (pixel s) := by
  obtain ⟨t, hrun, hwritten, -⟩ := sweep h huop
  exact ⟨t, hrun, hwritten.same, hwritten.pass, hwritten.line,
    pixel_of_lineWritten h.running.legal.width h.running.line hwritten⟩

theorem sameCommand_nextLine (s : State) : SameCommand s (nextLine s) :=
  ⟨⟨rfl, rfl, rfl, rfl, rfl⟩, rfl, rfl, rfl, rfl⟩

theorem sameCommand_nextPass (s : State) : SameCommand s (nextPass s) :=
  ⟨⟨rfl, rfl, rfl, rfl, rfl⟩, rfl, rfl, rfl, rfl⟩

/-- From any line of a pass, the lines before it blurred, the sweeps up to the last line blur them all (R88, R93,
R94). -/
theorem pass_from_line {g : Grid} (m : Nat) {s : State} (h : Ready s) (huop : s.seq.uop = .seed)
    (hopc : ¬ LineCommand s) (hm : s.seq.line.toNat + (m + 1) = passLines s)
    (hg : pixel s = blurLinesBelow s s.seq.line.toNat g) :
    ∃ t, BusyRun (2 * lineLen s * (m + 1)) s (lineEnd t) ∧ PassDone s (blurLinesBelow s (passLines s) g) t := by
  induction m generalizing s with
  | zero =>
    obtain ⟨t, hrun, hsame, hpass, hline, hpix⟩ := sweep_grid h huop
    refine ⟨t, by rwa [Nat.zero_add, Nat.mul_one], hsame, hpass, ?_, ?_⟩
    · rw [passLines_congr hsame.config hpass, hline, ← hm]
    · rw [hpix, hg, blurLine_blurLinesBelow h.running.legal.width h.running.line, ← hm]
  | succ m ih =>
    obtain ⟨t, hrun, hsame, hpass, hline, hpix⟩ := sweep_grid h huop
    have hmore : t.seq.line.toNat + 1 < passLines t := by
      rw [passLines_congr hsame.config hpass, hline]
      omega
    rw [lineEnd_of_more (mt (lineCommand_congr hsame.opc).mp hopc) hmore] at hrun
    have hsame' := hsame.trans (sameCommand_nextLine t)
    have hpass' : (nextLine t).seq.pass = s.seq.pass := hpass
    have hnext : (nextLine t).seq.line.toNat = s.seq.line.toNat + 1 := by
      rw [nextLine_seq, Invariant.toNat_add_one_of_lt hmore (Invariant.passLines_lt t), hline]
    have hlines := passLines_congr hsame'.config hpass'
    have hbelow (l : Nat) : blurLinesBelow (nextLine t) l g = blurLinesBelow s l g :=
      blurLinesBelow_congr hsame'.config hpass' l
    have hgrid : pixel (nextLine t) = blurLinesBelow (nextLine t) (nextLine t).seq.line.toNat g := by
      rw [hbelow, hnext, ← blurLine_blurLinesBelow h.running.legal.width h.running.line, ← hg]
      exact hpix
    obtain ⟨t', hrun', hdone⟩ := ih (hsame'.ready h (hrun.inv h.inv)) rfl
      (mt (lineCommand_congr hsame'.opc).mp hopc) (by rw [hnext, hlines]; omega) hgrid
    rw [lineLen_congr hsame'.config hpass'] at hrun'
    rw [hbelow, hlines] at hdone
    refine ⟨t', ?_, hsame'.trans hdone.same, hdone.pass.trans hpass', hdone.last, hdone.grid⟩
    rw [Nat.mul_succ, Nat.add_comm]
    exact hrun.trans hrun'

/-- A pass has as many positions as the grid has pixels. -/
theorem lineLen_mul_passLines (s : State) : lineLen s * passLines s = s.width.toNat * s.height.toNat := by
  unfold lineLen passLines
  cases s.seq.pass
  · rfl
  · exact Nat.mul_comm _ _

/-- A whole pass, from its first line (R93, R94). -/
theorem whole_pass {s : State} (h : Ready s) (huop : s.seq.uop = .seed) (hopc : ¬ LineCommand s)
    (hfirst : s.seq.line = 0) :
    ∃ t, BusyRun (2 * s.width.toNat * s.height.toNat) s (lineEnd t) ∧
      PassDone s (blurLinesBelow s (passLines s) (pixel s)) t := by
  have hline : s.seq.line.toNat = 0 := congrArg BitVec.toNat hfirst
  have hpos : 0 < passLines s := hline ▸ h.running.line
  obtain ⟨m, hm⟩ : ∃ m, passLines s = m + 1 := ⟨passLines s - 1, by omega⟩
  have hsteps : 2 * s.width.toNat * s.height.toNat = 2 * lineLen s * (m + 1) := by
    rw [← hm, Nat.mul_assoc, Nat.mul_assoc, lineLen_mul_passLines]
  rw [hsteps]
  exact pass_from_line m h huop hopc (by rw [hline, hm, Nat.zero_add]) (by rw [hline, blurLinesBelow_zero])

/-- All lines of a horizontal pass are all rows. -/
theorem blurLinesBelow_all_rows {s : State} {g : Grid} (hp : s.seq.pass = .h) :
    blurLinesBelow s (passLines s) g = blurRows s.blurAlpha s.width.toNat s.height.toNat s.radius.val g := by
  rw [blurLinesBelow_row hp, LineAddressing.passLines_row hp]

/-- All lines of a vertical pass are all columns. -/
theorem blurLinesBelow_all_columns {s : State} {g : Grid} (hw : 0 < s.width.toNat) (hp : s.seq.pass = .v) :
    blurLinesBelow s (passLines s) g = blurColumns s.blurAlpha s.width.toNat s.height.toNat s.radius.val g := by
  rw [blurLinesBelow_column hp, LineAddressing.passLines_column hp, blurColumnsBelow_width hw]

/-! ### The command write -/

/-- `s` with the pending command word `c` on the register port. -/
def presented (c : Word) (s : State) : State := logHost (.regWrite 0 c) { s with script := [] }

/-- `s` once the pending command word `c` has started its command on line `l` of pass `p` (R108). -/
def started (c : Word) (p : Pass) (l : Half) (s : State) : State :=
  startCommand c p l (takeCommand (presented c s))

theorem acceptCommand_of_noFault {s : State} (hb : s.status.busy = false) (he : s.status.err = false) (c : Word)
    (p : Pass) (l : Half) : acceptCommand c none p l s = startCommand c p l (takeCommand s) := by
  simp [acceptCommand, hb, he]

section
variable {c : Word} {s : State} (h : CommandPending c s)
include h

theorem gridFault_of_pending : gridFault (presented c s) = none :=
  (gridFault_none_iff _).mpr (gridLegal_congr h.legal rfl rfl rfl rfl)

theorem lineFault_of_pending {k : Nat} {bound : Half} (hk : k < bound.toNat) :
    lineFault c k bound (presented c s) = none :=
  (lineFault_none_iff ..).mpr ⟨gridLegal_congr h.legal rfl rfl rfl rfl, hk⟩

/-- The pending command starts when its acceptance finds no fault (R106). -/
theorem step_of_pending {i : Instr} {p : Pass} {l : Half} {f : State → Option (ErrCode × Word)}
    (hdec : decode .cmd c = .ok i) (hexec : ∀ u, exec i u = .next (acceptCommand c (f u) p l u))
    (hf : f (presented c s) = none) : step s = .next (started c p l s) := by
  have hrun : step s = exec i (presented c s) := by
    rw [PixelMemory.step_of_script h.script, serve, hostRegWrite, if_pos rfl, runWord, hdec]
    rfl
  rw [hrun, hexec, hf, acceptCommand_of_noFault (s := presented c s) h.idle h.clear, started]

section
variable {p : Pass} {l : Half} (hstep : step s = .next (started c p l s))
include hstep

theorem ready_started : Ready (started c p l s) where
  inv := Invariant.stepKeepsInv _ _ h.inv hstep
  backed := h.backed
  script := rfl
  busy := rfl

/-- A command whose engine steps end in COMPLETE completes (R99, R110). -/
theorem completesWith_of_run {k : Nat} {g : Grid} {t : State} (hrun : BusyRun k (started c p l s) (complete t))
    (hsame : SameCommand (started c p l s) t) (hg : pixel t = g) : CompletesWith k g s := by
  refine ⟨fun j hlo hhi => ?_, complete t, ?_, rfl, rfl, ?_, ?_, congrFun hg⟩
  · obtain ⟨j, rfl⟩ : ∃ i, j = i + 1 := ⟨j - 1, by omega⟩
    rw [EngineSteps.runFor_succ hstep]
    exact hrun.busy hhi
  · rw [Nat.add_comm, EngineSteps.runFor_succ hstep]
    exact hrun.runFor_eq
  · exact (congrArg Status.err hsame.status).trans h.clear
  · exact ⟨hsame.config.blurAlpha, hsame.config.buflen, hsame.config.width, hsame.config.height,
      hsame.config.radius⟩

/-- A line command is one sweep (R91, R92). -/
theorem completesWith_of_line (hopc : opcodeField c = opcHline ∨ opcodeField c = opcVline) :
    CompletesWith (2 * lineLen (started c p l s)) (blurLine (started c p l s) l.toNat (pixel s)) s := by
  obtain ⟨t, hrun, hsame, -, -, hpix⟩ := sweep_grid (ready_started h hstep) rfl
  rw [lineEnd_of_lineCommand ((lineCommand_congr hsame.opc).mpr hopc)] at hrun
  exact completesWith_of_run h hstep hrun hsame hpix

end

/-- A pass command is one pass (R93, R94). -/
theorem completesWith_of_pass {p : Pass} (hstep : step s = .next (started c p 0 s))
    (hopc : ¬ (opcodeField c = opcHline ∨ opcodeField c = opcVline)) (hblur : opcodeField c ≠ opcBlur) :
    CompletesWith (2 * s.width.toNat * s.height.toNat)
      (blurLinesBelow (started c p 0 s) (passLines (started c p 0 s)) (pixel s)) s := by
  obtain ⟨t, hrun, hdone⟩ := whole_pass (ready_started h hstep) rfl hopc rfl
  rw [lineEnd_of_passDone (mt (lineCommand_congr hdone.same.opc).mp hopc)
    (fun hand => hblur (hdone.same.opc.symm.trans hand.1)) hdone.last] at hrun
  exact completesWith_of_run h hstep hrun hdone.same hdone.grid

/-- BLUR is a horizontal pass and then a vertical one (R95, R96). -/
theorem completesWith_of_blur (hstep : step s = .next (started c .h 0 s)) (hopc : opcodeField c = opcBlur) :
    CompletesWith (4 * s.width.toNat * s.height.toNat)
      (blurColumns s.blurAlpha s.width.toNat s.height.toNat s.radius.val
        (blurRows s.blurAlpha s.width.toNat s.height.toNat s.radius.val (pixel s))) s := by
  have hready := ready_started h hstep
  obtain ⟨t, hrun, hrows⟩ := whole_pass hready rfl (not_lineCommand_of_blur hopc) rfl
  rw [lineEnd_of_rowsDone (hrows.same.opc.trans hopc) hrows.pass hrows.last] at hrun
  have hsame := hrows.same.trans (sameCommand_nextPass t)
  have hline := not_lineCommand_of_blur (hsame.opc.trans hopc)
  obtain ⟨u, hrun', hcolumns⟩ := whole_pass (hsame.ready hready (hrun.inv hready.inv)) rfl hline rfl
  rw [lineEnd_of_passDone (mt (lineCommand_congr hcolumns.same.opc).mp hline)
    (fun hand => nomatch hand.2.symm.trans hcolumns.pass) hcolumns.last, hsame.config.width,
    hsame.config.height] at hrun'
  have hsteps : 4 * s.width.toNat * s.height.toNat =
      2 * s.width.toNat * s.height.toNat + 2 * s.width.toNat * s.height.toNat := by ring
  have hgrid : pixel u = blurColumns s.blurAlpha s.width.toNat s.height.toNat s.radius.val (pixel t) := by
    have hw : 0 < (nextPass t).width.toNat := hsame.config.width ▸ h.legal.width
    rw [hcolumns.grid, blurLinesBelow_all_columns hw rfl, hsame.config.blurAlpha, hsame.config.width,
      hsame.config.height, hsame.config.radius]
    rfl
  rw [hrows.grid, blurLinesBelow_all_rows rfl] at hgrid
  rw [hsteps]
  exact completesWith_of_run h hstep (hrun.trans hrun') (hsame.trans hcolumns.same) hgrid

end

/-! ### The five commands -/

/-- A line command's word is its opcode's word plus the line index (R48). -/
theorem add_eq_lineWord (o : Byte) {k : Nat} (hk : k < 2 ^ 16) : lineWord o 0 + BitVec.ofNat 32 k = lineWord o k := by
  refine BitVec.eq_of_toNat_eq ?_
  have ho := o.isLt
  rw [BitVec.toNat_add, Encoding.toNat_lineWord o (by decide), Encoding.toNat_lineWord o hk, BitVec.toNat_ofNat]
  omega

/-- HLINE (R91). -/
theorem completesWith_hline {s : State} {y : Nat} (hy : y < s.height.toNat) (h : CommandPending (lineWord 0x04 y) s) :
    CompletesWith (2 * s.width.toNat) (blurRow s.blurAlpha s.width.toNat s.radius.val y (pixel s)) s := by
  have hfits : y < 2 ^ 16 := hy.trans s.height.isLt
  have hstep : step s = .next (started (lineWord 0x04 y) .h (BitVec.ofNat 16 y) s) :=
    step_of_pending h (i := .hline y) (f := fun u => lineFault (lineWord 0x04 y) y u.height u)
      (Encoding.decodeCmd_hline (Encoding.lineIndexFits_iff.mpr hfits)) (fun _ => rfl) (lineFault_of_pending h hy)
  have hdone := completesWith_of_line h hstep (.inl (opcodeField_lineWord 0x04 y))
  rw [lineLen_row rfl, blurLine_row rfl, BitVec.toNat_ofNat, Nat.mod_eq_of_lt hfits] at hdone
  exact hdone

/-- VLINE (R92). -/
theorem completesWith_vline {s : State} {x : Nat} (hx : x < s.width.toNat) (h : CommandPending (lineWord 0x05 x) s) :
    CompletesWith (2 * s.height.toNat)
      (blurColumn s.blurAlpha s.width.toNat s.height.toNat s.radius.val x (pixel s)) s := by
  have hfits : x < 2 ^ 16 := hx.trans s.width.isLt
  have hstep : step s = .next (started (lineWord 0x05 x) .v (BitVec.ofNat 16 x) s) :=
    step_of_pending h (i := .vline x) (f := fun u => lineFault (lineWord 0x05 x) x u.width u)
      (Encoding.decodeCmd_vline (Encoding.lineIndexFits_iff.mpr hfits)) (fun _ => rfl) (lineFault_of_pending h hx)
  have hdone := completesWith_of_line h hstep (.inr (opcodeField_lineWord 0x05 x))
  rw [lineLen_column rfl, blurLine_column rfl, BitVec.toNat_ofNat, Nat.mod_eq_of_lt hfits] at hdone
  exact hdone

/-- Settles O49: a line command's one sweep starts on the line its word names. -/
theorem lineCommandsBlurOneLine : Obligations.LineCommandsBlurOneLine := by
  refine fun s k => ⟨fun hk h => ?row, fun hk h => ?column⟩
  case row => exact completesWith_hline hk (add_eq_lineWord 0x04 (hk.trans s.height.isLt) ▸ h)
  case column => exact completesWith_vline hk (add_eq_lineWord 0x05 (hk.trans s.width.isLt) ▸ h)

/-- Settles O50: a pass command's one pass sweeps every line. -/
theorem passCommandsBlurEveryLine : Obligations.PassCommandsBlurEveryLine := by
  refine fun s => ⟨fun h => ?rows, fun h => ?columns⟩
  case rows =>
    have hstep : step s = .next (started 0x02000000 .h 0 s) :=
      step_of_pending h (i := .hpass) rfl (fun _ => rfl) (gridFault_of_pending h)
    have hdone := completesWith_of_pass h hstep (by decide) (by decide)
    rwa [blurLinesBelow_all_rows rfl] at hdone
  case columns =>
    have hstep : step s = .next (started 0x03000000 .v 0 s) :=
      step_of_pending h (i := .vpass) rfl (fun _ => rfl) (gridFault_of_pending h)
    have hdone := completesWith_of_pass h hstep (by decide) (by decide)
    rwa [blurLinesBelow_all_columns (s := started 0x03000000 .v 0 s) h.legal.width rfl] at hdone

/-- Settles O51: BLUR's two passes. -/
theorem blurEqualsReference : Obligations.BlurEqualsReference := by
  intro s h
  have hstep : step s = .next (started 0x01000000 .h 0 s) :=
    step_of_pending h (i := .blur) rfl (fun _ => rfl) (gridFault_of_pending h)
  exact completesWith_of_blur h hstep rfl

/-- Settles O52: both passes leave equal pixels alone. -/
theorem uniformGridUnchangedByBlur : Obligations.UniformGridUnchangedByBlur := by
  intro s p h huniform
  have hdone := blurEqualsReference s h
  rwa [blurRows_of_uniform h.legal.width huniform, blurColumns_of_uniform h.legal.width huniform] at hdone

end Sys2Proof.Proofs.PassDrivers
end

section
/-! SUPPORT. Proofs about the host interface (spec/43_host_interface.md R102 to R109): a step runs the instruction its
word decodes to, what the register port does, what a command write starts, and that a running command depends on
nothing the host can change. -/

namespace Sys2Proof.Proofs.HostInterface

open Sys2Proof.Machine Sys2Proof.Safety Sys2Proof.Laws Sys2Proof.Proofs.PixelMemory

/-! ### The instruction a step runs -/

/-- A word that decodes is run as its instruction. -/
theorem runWord_of_ok {f : Format} {w : Word} {i : Instr} (h : decode f w = .ok i) (otherwise : State → Result)
    (s : State) : runWord f w otherwise s = exec i s := by
  rw [runWord, h]

theorem popped_of_noScript {s : State} (hs : s.script = []) : popped s = s := by
  rw [popped, hs, List.tail_nil, ← hs]

/-- A step serves the event at the head of the script. -/
theorem step_of_head {s : State} {e : Event} (h : s.script.head? = some e) : step s = serve e (popped s) :=
  step_of_script (List.eq_cons_of_mem_head? h)

/-- The engine comes to its turn by the script or by an empty script (R109). -/
theorem step_of_engineNext {s : State} (h : EngineNext s) : step s = engineTurn (popped s) := by
  rcases h with hs | hhead
  · rw [EngineSteps.step_of_noScript hs, popped_of_noScript hs]
  · exact step_of_head hhead

/-- A busy engine's turn is the micro-operation SEQ.UOP codes for (R109). -/
theorem engineTurn_of_busy {s : State} {i : Instr} (hbusy : s.status.busy = true)
    (h : decode .uop (zext32 s.seq.uop.code) = .ok i) : engineTurn s = exec i s := by
  rw [engineTurn, if_pos hbusy, runWord_of_ok h]

/-- An idle engine's turn changes nothing (R109). -/
theorem engineTurn_of_idle {s : State} (h : s.status.busy = false ∨ s.seq.uop = .idle) : engineTurn s = .next s := by
  rw [engineTurn]
  split
  case isTrue hbusy =>
    rw [h.resolve_left (by rw [hbusy]; decide)]
    rfl
  case isFalse => rfl

/-- The word written to CMD is logged and run (R106, R107). -/
theorem hostRegWrite_of_command {c : Word} {i : Instr} (h : decode .cmd c = .ok i) (s : State) :
    hostRegWrite 0 c s = exec i (logHost (.regWrite 0 c) s) :=
  (if_pos rfl).trans (runWord_of_ok h _ _)

/-- Settles O6: the step serves the event, and each event that carries a word runs it. -/
theorem stepRunsDecodedInstruction : Obligations.StepRunsDecodedInstruction := by
  refine ⟨fun s c rest i hs hdec => ?command, fun s i hnext hbusy hdec => ?uop, fun s p c rest i hs hdec => ?select,
    fun s p rest i hs hdec => ?unpack, fun s w rest i hs hdec => ?pack⟩
  case command => exact (step_of_script hs).trans (hostRegWrite_of_command hdec _)
  case uop => exact (step_of_engineNext hnext).trans (engineTurn_of_busy (s := popped s) hbusy hdec)
  case select => exact (step_of_script hs).trans (runWord_of_ok hdec _ _)
  case unpack => exact (step_of_script hs).trans (runWord_of_ok hdec .next _)
  case pack => exact (step_of_script hs).trans (runWord_of_ok hdec .next _)

/-- Settles O34: BUSY = 0 gives the engine no step to take (R109). -/
theorem idleEngineHasNoStep : Obligations.IdleEngineHasNoStep := fun s hnext hidle =>
  (step_of_engineNext hnext).trans (engineTurn_of_idle (s := popped s) (.inl hidle))

/-! ### Register reads -/

/-- A register read, whole: it is logged, and a STATUS read with BUSY = 0 gives the buffer back (R41 (b), R102). -/
theorem hostRegRead_eq (n : BitVec 4) (s : State) :
    hostRegRead n s = { s with
      hostLog := s.hostLog ++ [.regRead n (regValue s n)]
      lent := if n = 1 ∧ s.status.busy = false then 0 else s.lent } := by
  rw [hostRegRead, handBack, logHost_status]
  split <;> rfl

/-- STATUS, read as a number (R102). -/
theorem toNat_statusWord (t : Status) :
    (statusWord t).toNat = 8 * t.drop.toNat + 4 * t.err.toNat + 2 * t.done.toNat + t.busy.toNat := by
  obtain ⟨busy, done, err, drop⟩ := t
  revert busy done err drop
  decide

/-- INTEN, read as a number (R102). -/
theorem toNat_intenWord (t : Inten) : (intenWord t).toNat = 4 * t.errIe.toNat + 2 * t.doneIe.toNat := by
  obtain ⟨doneIe, errIe⟩ := t
  revert doneIe errIe
  decide

theorem toNat_bitWord (b : Bool) : (bitWord b).toNat = b.toNat := by
  cases b <;> rfl

/-- The reserved registers read 0 (R102). -/
theorem regValue_of_reserved (s : State) {n : BitVec 4} (hn : 10 ≤ n.toNat) : regValue s n = 0 := by
  obtain ⟨k, hk⟩ := Nat.exists_eq_add_of_le' hn
  rw [regValue, hk]
  rfl

/-- Settles O26: the value is `regValue`'s, row by row of the table. -/
theorem registerReadValues : Obligations.RegisterReadValues := by
  intro s n rest hs
  refine ⟨regValue s n, (step_of_script hs).trans (congrArg _ (hostRegRead_eq n _)), ?cmd, ?status, ?ctrl, ?inten,
    ?buflen, ?width, ?height, ?radius, ?errcode, ?errinfo, regValue_of_reserved s⟩ <;> rintro rfl
  case cmd => rfl
  case status => exact toNat_statusWord s.status
  case ctrl => exact toNat_bitWord s.blurAlpha
  case inten => exact toNat_intenWord s.inten
  case buflen => rfl
  case width => exact BitVec.toNat_setWidth_of_le (by decide)
  case height => exact BitVec.toNat_setWidth_of_le (by decide)
  case radius => exact Nat.mod_eq_of_lt (s.radius.isLt.trans (by decide))
  case errcode =>
    change (zext32 s.errcode.code).toNat = _
    cases s.errcode <;> rfl
  case errinfo => rfl

/-! ### Register writes -/

section
variable {s : State} {f : State → State}

theorem writeConfig_of_idle (hidle : s.status.busy = false) : writeConfig f s = f s := by
  simp [writeConfig, hidle]

theorem writeConfig_of_busy (hbusy : s.status.busy = true) : writeConfig f s = dropWrite s :=
  if_pos hbusy

end

section
variable (v : Word) (s : State)

theorem writeRegister_ctrl : writeRegister 2 v s = writeConfig (fun s => { s with blurAlpha := v.getLsbD 0 }) s := rfl

theorem writeRegister_inten :
    writeRegister 3 v s = { s with inten := { doneIe := v.getLsbD 1, errIe := v.getLsbD 2 } } := rfl

theorem writeRegister_buflen : writeRegister 4 v s = writeConfig (fun s => { s with buflen := v }) s := rfl

theorem writeRegister_width : writeRegister 5 v s = writeConfig (fun s => { s with width := v.setWidth 16 }) s := by
  rw [BitVec.setWidth_eq_extractLsb' (by decide)]
  rfl

theorem writeRegister_height : writeRegister 6 v s = writeConfig (fun s => { s with height := v.setWidth 16 }) s := by
  rw [BitVec.setWidth_eq_extractLsb' (by decide)]
  rfl

theorem writeRegister_radius : writeRegister 7 v s = writeConfig (fun s => { s with radius := clampRadius v }) s := rfl

/-- Read-only and reserved registers ignore a write (R103). -/
theorem writeRegister_of_readOnly {n : BitVec 4} (hn : 8 ≤ n.toNat) : writeRegister n v s = s := by
  obtain ⟨k, hk⟩ := Nat.exists_eq_add_of_le' hn
  rw [writeRegister, hk]
  rfl

end

/-- While a command runs the configuration registers drop a write (R104). -/
theorem writeRegister_of_busy {n : BitVec 4} (hn : n = 2 ∨ n = 4 ∨ n = 5 ∨ n = 6 ∨ n = 7) (v : Word) {s : State}
    (hbusy : s.status.busy = true) : writeRegister n v s = dropWrite s := by
  rcases hn with rfl | rfl | rfl | rfl | rfl
  · rw [writeRegister_ctrl, writeConfig_of_busy hbusy]
  · rw [writeRegister_buflen, writeConfig_of_busy hbusy]
  · rw [writeRegister_width, writeConfig_of_busy hbusy]
  · rw [writeRegister_height, writeConfig_of_busy hbusy]
  · rw [writeRegister_radius, writeConfig_of_busy hbusy]

/-- A write to any register but CMD is logged and done (R103). -/
theorem step_of_regWrite {s u : State} {n : BitVec 4} {v : Word} {rest : List Event}
    (hs : s.script = .regWrite n v :: rest) (hn : n ≠ 0)
    (hu : u = { s with script := rest, hostLog := s.hostLog ++ [.regWrite n v] }) :
    step s = .next (writeRegister n v u) := by
  subst hu
  exact (step_of_script hs).trans (if_neg hn)

theorem ne_zero_of_le_toNat {n : BitVec 4} (hn : 8 ≤ n.toNat) : n ≠ 0 := by
  rintro rfl
  exact absurd hn (by decide)

/-- Settles O27: each clause is one row of the table, and an idle block drops no configuration write. -/
theorem registerWritesWhenIdle : Obligations.RegisterWritesWhenIdle := by
  intro s n v rest hs hidle u hu
  have hidle' : u.status.busy = false := by rw [hu]; exact hidle
  have hstep (hn : n ≠ 0) := step_of_regWrite hs hn hu
  refine ⟨?ctrl, ?inten, ?buflen, ?width, ?height, ?radius, fun hn => ?readOnly⟩
  case readOnly => rw [hstep (ne_zero_of_le_toNat hn), writeRegister_of_readOnly v u hn]
  all_goals
    rintro rfl
    rw [hstep (by decide)]
  case ctrl => rw [writeRegister_ctrl, writeConfig_of_idle hidle']
  case inten => rw [writeRegister_inten]
  case buflen => rw [writeRegister_buflen, writeConfig_of_idle hidle']
  case width => rw [writeRegister_width, writeConfig_of_idle hidle']
  case height => rw [writeRegister_height, writeConfig_of_idle hidle']
  case radius => exact ⟨clampRadius v, clampRadius_val v, by rw [writeRegister_radius, writeConfig_of_idle hidle']⟩

/-- Settles O28: of the registers of R103 those that a busy block drops, the one it writes, and those it ignores. -/
theorem configurationWritesDroppedWhileBusy : Obligations.ConfigurationWritesDroppedWhileBusy := by
  intro s n v rest hs hbusy u hu
  have hstep (hn : n ≠ 0) := step_of_regWrite hs hn hu
  refine ⟨fun hn => ?configuration, fun hn => ?inten, fun hn => ?readOnly⟩
  case configuration =>
    have hzero : n ≠ 0 := by rcases hn with rfl | rfl | rfl | rfl | rfl <;> decide
    have hbusy' : u.status.busy = true := by rw [hu]; exact hbusy
    rw [hstep hzero, writeRegister_of_busy hn v hbusy', hu]
    rfl
  case inten =>
    subst hn
    exact hstep (by decide)
  case readOnly => rw [hstep (ne_zero_of_le_toNat hn), writeRegister_of_readOnly v u hn]

/-- Settles O29: register 1 is STATUS, whose write `writeStatus_eq` gives whole. -/
theorem statusWriteClearsFlags : Obligations.StatusWriteClearsFlags := fun _ v _ hs =>
  (step_of_regWrite hs (by decide) rfl).trans (congrArg _ (writeStatus_eq v _))

/-! ### Command writes -/

/-- While BUSY or ERR a command write is dropped, whatever its word (R106 step 1). -/
theorem acceptCommand_of_busyOrErr {s : State} (h : s.status.busy = true ∨ s.status.err = true) (c : Word)
    (f : Option (ErrCode × Word)) (p : Pass) (l : Half) : acceptCommand c f p l s = dropWrite s :=
  if_pos (Bool.or_eq_true_iff.mpr h)

theorem hostRegWrite_of_busyOrErr {s : State} (h : s.status.busy = true ∨ s.status.err = true) (c : Word) :
    hostRegWrite 0 c s = .next (dropWrite (logHost (.regWrite 0 c) s)) := by
  cases hdec : decode .cmd c with
  | ok i =>
    obtain ⟨f, p, l, hexec, -⟩ := exec_command hdec (logHost (.regWrite 0 c) s)
    rw [hostRegWrite_of_command hdec, hexec, acceptCommand_of_busyOrErr (s := logHost _ s) h]
  | error e =>
    rw [hostRegWrite, if_pos rfl, Encoding.runWord_of_error hdec, acceptIllegal,
      acceptCommand_of_busyOrErr (s := logHost _ s) h]

/-- Settles O22: legal words and illegal ones are dropped alike. -/
theorem commandWriteDropped : Obligations.CommandWriteDropped := fun s c rest hs h =>
  (step_of_script hs).trans (hostRegWrite_of_busyOrErr (s := { s with script := rest }) h c)

/-- A command that is taken and finds no fault starts (R106, R108). -/
theorem exec_starts {i : Instr} {s : State} {c : Word} {o : Byte} {f : Option (ErrCode × Word)} {p : Pass} {l : Half}
    (hidle : s.status.busy = false) (hclear : s.status.err = false)
    (hexec : exec i s = .next (acceptCommand c f p l s)) (hopc : opcodeField c = o) (hf : f = none) :
    exec i s = .next { s with
      opc := o, div := BitVec.ofNat 16 (s.radius.val * (s.radius.val + 2) + 1)
      seq := { pass := p, line := l, pos := 0, uop := .seed }
      status := { s.status with busy := true, done := false }
      lent := max s.lent (s.width.toNat * s.height.toNat) } := by
  subst hopc hf
  rw [hexec, PassDrivers.acceptCommand_of_noFault hidle hclear]
  rfl

/-- Settles O21: a legal grid, and for a line command a line inside it, leaves no check to fail. -/
theorem commandsStart : Obligations.CommandsStart := by
  intro s hidle hclear hlegal
  have hgrid : gridFault s = none := (gridFault_none_iff s).mpr hlegal
  have hline {c : Word} {k : Nat} {bound : Half} (hk : k < bound.toNat) : lineFault c k bound s = none :=
    (lineFault_none_iff c k bound s).mpr ⟨hlegal, hk⟩
  refine ⟨?blur, ?hpass, ?vpass, fun y hy => ?hline, fun x hx => ?vline⟩
  case blur => exact exec_starts hidle hclear rfl rfl hgrid
  case hpass => exact exec_starts hidle hclear rfl rfl hgrid
  case vpass => exact exec_starts hidle hclear rfl rfl hgrid
  case hline => exact exec_starts hidle hclear rfl (opcodeField_lineWord 0x04 y) (hline hy)
  case vline => exact exec_starts hidle hclear rfl (opcodeField_lineWord 0x05 x) (hline hx)

/-! ### The host cannot disturb a running command -/

/-- `t` differs from `s` in nothing a running command depends on or has done. -/
structure Undisturbed (s t : State) : Prop where
  engine : SameEngine s t
  config : SameConfig s t
  busy : t.status.busy = s.status.busy
  accesses : t.accesses = s.accesses

/-- What the register port may change while a command runs. -/
theorem undisturbed_of_frame {s : State} {st : Status} {it : Inten} {ec : ErrCode} {ei : Word} {lent : Nat}
    {script : List Event} {log : List Transaction} (hbusy : st.busy = s.status.busy) :
    Undisturbed s { s with status := st, inten := it, errcode := ec, errinfo := ei, lent := lent, script := script,
                           hostLog := log } :=
  ⟨⟨rfl, rfl, rfl, rfl, rfl, rfl, rfl, rfl⟩, ⟨rfl, rfl, rfl, rfl, rfl⟩, hbusy, rfl⟩

theorem undisturbed_hostRegRead (n : BitVec 4) (s : State) : Undisturbed s (hostRegRead n (popped s)) := by
  rw [hostRegRead_eq]
  exact undisturbed_of_frame rfl

theorem undisturbed_dropWrite (x : Transaction) (s : State) : Undisturbed s (dropWrite (logHost x (popped s))) :=
  undisturbed_of_frame rfl

/-- R104: a register write leaves the configuration of a busy block alone. -/
theorem undisturbed_writeRegister {s : State} (hbusy : s.status.busy = true) (n : BitVec 4) (v : Word)
    (x : Transaction) : Undisturbed s (writeRegister n v (logHost x (popped s))) := by
  obtain ⟨_, _, _, _, _, _, _, _, _, heq, hst, hconfig, -⟩ := writeRegister_frame n v (logHost x (popped s))
  obtain ⟨rfl, rfl, rfl, rfl, rfl⟩ := hconfig hbusy
  rw [heq]
  exact undisturbed_of_frame hst

/-- Settles O36: a read changes no register, a CMD write is dropped, and a write to another register leaves the
configuration alone. -/
theorem hostCannotDisturbRunningCommand : Obligations.HostCannotDisturbRunningCommand := by
  intro s t e hbusy hhead he hstep
  rw [step_of_head hhead] at hstep
  suffices h : Undisturbed s t from ⟨h.engine, h.config, h.busy.trans hbusy, h.accesses⟩
  rcases he with ⟨n, rfl⟩ | ⟨n, v, rfl⟩
  · cases hstep
    exact undisturbed_hostRegRead n s
  · by_cases hn : n = 0
    · subst hn
      rw [serve, hostRegWrite_of_busyOrErr (s := popped s) (.inl hbusy)] at hstep
      cases hstep
      exact undisturbed_dropWrite _ s
    · rw [serve, hostRegWrite, if_neg hn] at hstep
      cases hstep
      exact undisturbed_writeRegister hbusy n v _

/-- What O30 says of a step holds of one that leaves the command undisturbed. -/
theorem Undisturbed.configuration {s t : State} (h : Undisturbed s t) :
    SameConfig s t ∧ t.div = s.div ∧ t.opc = s.opc :=
  ⟨h.config, h.engine.div, h.engine.opc⟩

/-- Settles O30: the micro-operations do not write these registers, and the register port leaves them to the running
command. -/
theorem configurationConstantWhileBusy : Obligations.ConfigurationConstantWhileBusy := by
  intro s t hbusy hrst hstep
  cases step_turn hstep with
  | idle => exact ⟨⟨rfl, rfl, rfl, rfl, rfl⟩, rfl, rfl⟩
  | seed => exact ⟨⟨rfl, rfl, rfl, rfl, rfl⟩, rfl, rfl⟩
  | emit =>
    rw [emitted_frame]
    exact ⟨⟨rfl, rfl, rfl, rfl, rfl⟩, rfl, rfl⟩
  | advance => exact ⟨⟨rfl, rfl, rfl, rfl, rfl⟩, rfl, rfl⟩
  | regRead n => exact (undisturbed_hostRegRead n s).configuration
  | regWrite n v => exact (undisturbed_writeRegister hbusy n v _).configuration
  | command c f p l =>
    rw [acceptCommand_of_busyOrErr (s := logHost _ (popped s)) (.inl hbusy)]
    exact (undisturbed_dropWrite _ s).configuration
  | pixRead i => exact ⟨⟨rfl, rfl, rfl, rfl, rfl⟩, rfl, rfl⟩
  | pixWrite i v => exact ⟨⟨rfl, rfl, rfl, rfl, rfl⟩, rfl, rfl⟩
  | rst hhead => exact absurd hhead hrst
  | codec k => exact ⟨⟨rfl, rfl, rfl, rfl, rfl⟩, rfl, rfl⟩

/-! ### What an engine step depends on -/

/-- Whether an EMIT completes the command is decided by SEQ, OPC and the dimensions (R88, R110). -/
theorem afterEmit_busy_congr {s t : State} (hq : t.seq = s.seq) (ho : t.opc = s.opc) (hw : t.width = s.width)
    (hh : t.height = s.height) (hb : t.status.busy = s.status.busy) :
    (afterEmit t).status.busy = (afterEmit s).status.busy := by
  obtain ⟨-, hlen, hlines⟩ := lineGeometry_congr (s := s) (t := t) (by rw [hq]; exact ⟨rfl, rfl⟩) hw hh
  simp only [afterEmit, lineEnd, apply_ite State.status, apply_ite Status.busy, setUop_status, complete_status,
    nextLine_status, nextPass_status, hlen, hlines, hq, ho, hb]

/-- `s` and `s'` agree on everything the engine reads (R109, R114). -/
structure SameInputs (s s' : State) : Prop where
  engine : SameEngine s s'
  config : SameConfig s s'
  backed : s'.backed = s.backed
  busy : s'.status.busy = s.status.busy

/-- The answers of one engine turn from `s` and from `s'`: the same for the engine, with the same accesses made. -/
structure SameTurn (s t s' t' : State) : Prop where
  engine : SameEngine t t'
  busy : t'.status.busy = t.status.busy
  accesses : ∃ l, t.accesses = s.accesses ++ l ∧ t'.accesses = s'.accesses ++ l

section
variable {s s' : State} (h : SameInputs s s')
include h

theorem sameInputs_popped : SameInputs (popped s) (popped s') :=
  have e := h.engine
  have c := h.config
  ⟨⟨e.win, e.sum, e.sumOut, e.sumIn, e.div, e.seq, e.opc, e.mem⟩,
    ⟨c.blurAlpha, c.buflen, c.width, c.height, c.radius⟩, h.backed, h.busy⟩

/-- `s'` is `s` but for what no micro-operation reads. -/
theorem SameInputs.frame : s' = { s with
    status := s'.status, inten := s'.inten, errcode := s'.errcode, errinfo := s'.errinfo, lent := s'.lent
    script := s'.script, hostLog := s'.hostLog, accesses := s'.accesses, codec := s'.codec } := by
  cases s'
  obtain ⟨⟨rfl, rfl, rfl, rfl, rfl, rfl, rfl, rfl⟩, ⟨rfl, rfl, rfl, rfl, rfl⟩, rfl, -⟩ := h
  rfl

theorem sameTurn_seeded : SameTurn s (seeded s) s' (seeded s') := by
  have hb := h.busy
  rw [h.frame] at hb ⊢
  exact ⟨⟨rfl, rfl, rfl, rfl, rfl, rfl, rfl, rfl⟩, hb, _, rfl, rfl⟩

theorem sameTurn_advanced : SameTurn s (advanced s) s' (advanced s') := by
  have hb := h.busy
  rw [h.frame] at hb ⊢
  exact ⟨⟨rfl, rfl, rfl, rfl, rfl, rfl, rfl, rfl⟩, hb, _, rfl, rfl⟩

/-- EMIT's pixel and its index are functions of what the engine reads. -/
theorem emitPixel_lineIndex_congr : emitPixel s' = emitPixel s ∧ lineIndex s' = lineIndex s := by
  rw [h.frame]
  exact ⟨rfl, rfl⟩

theorem sameTurn_emitted : SameTurn s (emitted s) s' (emitted s') := by
  have e := h.engine
  obtain ⟨hpixel, hidx⟩ := emitPixel_lineIndex_congr h
  have hmem : (emitted s').mem = (emitted s).mem := by
    rw [emitted_mem, emitted_mem, hpixel, hidx, e.seq, e.mem]
  have hseq : (emitted s').seq = (emitted s).seq :=
    Codec.afterEmit_seq_congr e.seq e.opc h.config.width h.config.height
  have hbusy : (emitted s').status.busy = (emitted s).status.busy :=
    afterEmit_busy_congr e.seq e.opc h.config.width h.config.height h.busy
  refine ⟨?engine, hbusy, _, emitted_accesses s, ?accesses⟩
  case engine =>
    rw [emitted_frame s, emitted_frame s']
    exact ⟨e.win, e.sum, e.sumOut, e.sumIn, e.div, hseq, e.opc, hmem⟩
  case accesses => rw [emitted_accesses, hpixel, hidx, e.seq]

theorem lineIndex_lt_backed_congr {k : Nat} (hk : lineIndex s k < s.backed) : lineIndex s' k < s'.backed := by
  rw [h.frame]
  exact hk

theorem seedLast_congr : seedLast s' = seedLast s := by
  rw [h.frame]
  rfl

theorem advancePos_congr : advancePos s' = advancePos s := by
  rw [h.frame]
  rfl

/-- The engine's turn from `s` is matched from `s'`, micro-operation by micro-operation. -/
theorem engineTurn_congr {t : State} (hturn : engineTurn s = .next t) :
    ∃ t', engineTurn s' = .next t' ∧ SameTurn s t s' t' := by
  have hword {u : Uop} {i : Instr} (hbusy : s.status.busy = true) (huop : s.seq.uop = u)
      (hdec : decode .uop (zext32 u.code) = .ok i) : engineTurn s' = exec i s' :=
    engineTurn_of_busy (h.busy.trans hbusy) (by rw [h.engine.seq, huop, hdec])
  rcases engineTurn_cases hturn with ⟨hidle, rfl⟩ | ⟨hbusy, huop, hexec⟩ | ⟨hbusy, huop, hexec⟩ | ⟨hbusy, huop, hexec⟩
  · refine ⟨s', engineTurn_of_idle ?_, h.engine, h.busy, [], (List.append_nil _).symm, (List.append_nil _).symm⟩
    rwa [h.busy, h.engine.seq]
  · obtain ⟨hbacked, rfl⟩ := execSeed_next hexec
    refine ⟨_, (hword hbusy huop rfl).trans (execSeed_of_backed fun k hk => ?_), sameTurn_seeded h⟩
    exact lineIndex_lt_backed_congr h (hbacked k (seedLast_congr h ▸ hk))
  · obtain ⟨hbacked, rfl⟩ := execEmit_next hexec
    refine ⟨_, (hword hbusy huop rfl).trans (execEmit_of_backed ?_), sameTurn_emitted h⟩
    exact h.engine.seq ▸ lineIndex_lt_backed_congr h hbacked
  · obtain ⟨hbacked, rfl⟩ := execAdvance_next hexec
    refine ⟨_, (hword hbusy huop rfl).trans (execAdvance_of_backed ?_), sameTurn_advanced h⟩
    exact advancePos_congr h ▸ lineIndex_lt_backed_congr h hbacked

end

/-- Settles O37: both steps are the engine's turn, from states that agree on all it reads. -/
theorem engineStepIsDetermined : Obligations.EngineStepIsDetermined := by
  intro s s' t hengine hconfig hbacked hnext hnext' hbusy hbusy' hstep
  have h : SameInputs s s' := ⟨hengine, hconfig, hbacked, hbusy'.trans hbusy.symm⟩
  rw [step_of_engineNext hnext] at hstep
  obtain ⟨t', hturn, hsame⟩ := engineTurn_congr (sameInputs_popped h) hstep
  exact ⟨t', (step_of_engineNext hnext').trans hturn, hsame.engine, hsame.busy, hsame.accesses⟩

end Sys2Proof.Proofs.HostInterface
end

section
/-! SUPPORT. Proofs about exceptions (spec/60_exceptions.md R116 to R126): which start check fails with which record,
what an error entry leaves, that a recorded error is kept, that a running command raises none, and irq. -/

namespace Sys2Proof.Proofs.Exceptions

open Sys2Proof.Machine Sys2Proof.Safety Sys2Proof.Laws

/-! ### The start checks (R120) -/

section
variable {s : State}

theorem gridFault_badDim (h : s.width = 0 ∨ s.height = 0) :
    gridFault s = some (.badDim, (zext32 s.height <<< 16) ||| zext32 s.width) :=
  if_pos h

theorem gridFault_badRadius (hw : s.width ≠ 0) (hh : s.height ≠ 0) (hr : s.radius = 0) :
    gridFault s = some (.badRadius, 0) := by
  rw [gridFault, if_neg (not_or.mpr ⟨hw, hh⟩), if_pos hr]

theorem gridFault_invalidGeometry (hw : s.width ≠ 0) (hh : s.height ≠ 0) (hr : s.radius ≠ 0)
    (hlen : s.buflen.toNat < gridSize s) : gridFault s = some (.invalidGeometry, BitVec.ofNat 32 (gridSize s)) := by
  rw [gridFault, if_neg (not_or.mpr ⟨hw, hh⟩), if_neg hr, if_pos hlen]

/-- Only check 4 reports INVALID_GEOMETRY (R115). -/
theorem gridFault_eq_invalidGeometry {v : Word} (h : gridFault s = some (.invalidGeometry, v)) :
    v = BitVec.ofNat 32 (gridSize s) ∧ s.buflen.toNat < gridSize s := by
  unfold gridFault at h
  split_ifs at h with hdim hradius hlen
  · cases h
  · cases h
  · cases h
    exact ⟨rfl, hlen⟩

/-- A line command fails the grid checks as the other commands do. -/
theorem lineFault_of_gridFault {x : ErrCode × Word} (h : gridFault s = some x) (c : Word) (k : Nat) (bound : Half) :
    lineFault c k bound s = some x := by
  rw [lineFault, h]

/-- Check 5 comes after the grid checks. -/
theorem lineFault_of_outside (h : GridLegal s) (c : Word) {k : Nat} {bound : Half} (hk : bound.toNat ≤ k) :
    lineFault c k bound s = some (.badLine, c) := by
  rw [lineFault, (gridFault_none_iff s).mpr h]
  exact if_pos hk

end

/-- W and H are 16-bit numbers, so their product is a 32-bit one (R122). -/
theorem gridSize_lt (s : State) : gridSize s < 2 ^ 32 :=
  calc gridSize s < 2 ^ 16 * 2 ^ 16 := Nat.mul_lt_mul'' s.width.isLt s.height.isLt
    _ = 2 ^ 32 := by decide

/-- Settles O25: the product fits the word that reports it. -/
theorem geometryProductExact : Obligations.GeometryProductExact := by
  refine fun s => ⟨gridSize_lt s, fun e v hfault he => ?_⟩
  subst he
  obtain ⟨rfl, hlen⟩ := gridFault_eq_invalidGeometry hfault
  rw [BitVec.toNat_ofNat, Nat.mod_eq_of_lt (gridSize_lt s)]
  exact ⟨rfl, hlen⟩

/-! ### Error entry (R123) -/

section
variable {s : State} {i : Instr} {e : ErrCode} {info : Word} (hidle : s.status.busy = false)
  (hclear : s.status.err = false)
include hidle hclear

/-- A command that is taken and finds a fault records it (R106, R123). -/
theorem exec_raises {c : Word} {f : Option (ErrCode × Word)} {p : Pass} {l : Half}
    (hexec : exec i s = .next (acceptCommand c f p l s)) (hf : f = some (e, info)) :
    exec i s = .next (raiseError e info (takeCommand s)) := by
  rw [hexec, hf, Encoding.acceptCommand_of_fault hidle hclear]

/-- All five commands make the grid checks. -/
theorem exec_raises_gridFault (hi : i.format = .cmd) (hf : gridFault s = some (e, info)) :
    exec i s = .next (raiseError e info (takeCommand s)) := by
  cases i with
  | blur => exact exec_raises hidle hclear rfl hf
  | hpass => exact exec_raises hidle hclear rfl hf
  | vpass => exact exec_raises hidle hclear rfl hf
  | hline y => exact exec_raises hidle hclear rfl (lineFault_of_gridFault hf _ y s.height)
  | vline x => exact exec_raises hidle hclear rfl (lineFault_of_gridFault hf _ x s.width)
  | seed => cases hi
  | emit => cases hi
  | advance => cases hi
  | extract c => cases hi
  | unpack p => cases hi
  | pack a r g b => cases hi

end

/-- Settles O23: the first grid check that fails is the one recorded, whichever the command. -/
theorem illegalConfigurationRaisesError : Obligations.IllegalConfigurationRaisesError := fun _ _ hi hidle hclear =>
  ⟨fun hdim => exec_raises_gridFault hidle hclear hi (gridFault_badDim hdim),
    fun hw hh hr => exec_raises_gridFault hidle hclear hi (gridFault_badRadius hw hh hr),
    fun hw hh hr hlen => exec_raises_gridFault hidle hclear hi (gridFault_invalidGeometry hw hh hr hlen)⟩

/-- Settles O24: the grid is legal, so check 5 is the one that fails, and it records the command's own word. -/
theorem lineOutsideGridRaisesBadLine : Obligations.LineOutsideGridRaisesBadLine := by
  refine fun s k hk hidle hclear hlegal => ⟨fun hout => ?hline, fun hout => ?vline⟩
  case hline =>
    have hword : 0x04000000 + BitVec.ofNat 32 k = encode (.hline k) := PassDrivers.add_eq_lineWord 0x04 hk
    rw [hword]
    exact exec_raises hidle hclear rfl (lineFault_of_outside hlegal _ hout)
  case vline =>
    have hword : 0x05000000 + BitVec.ofNat 32 k = encode (.vline k) := PassDrivers.add_eq_lineWord 0x05 hk
    rw [hword]
    exact exec_raises hidle hclear rfl (lineFault_of_outside hlegal _ hout)

/-! ### A recorded error is kept (R126) -/

/-- ERR is 1 in `t`, with the record of `s`. -/
structure ErrorKept (s t : State) : Prop where
  err : t.status.err = true
  errcode : t.errcode = s.errcode
  errinfo : t.errinfo = s.errinfo

/-- Of the things a turn can do, only W1C of ERR and a reset clear a recorded error. -/
theorem errorKept_of_turn {s t : State} (herr : s.status.err = true) (hturn : Turn s t) :
    ErrorKept s t ∨ (∃ v : Word, s.script.head? = some (.regWrite 1 v) ∧ v.getLsbD 2 = true) ∨
      s.script.head? = some .rst := by
  cases hturn with
  | idle => exact .inl ⟨herr, rfl, rfl⟩
  | seed => exact .inl ⟨herr, rfl, rfl⟩
  | emit =>
    have hkeep := (emitted_status (popped s)).2
    rw [emitted_frame]
    exact .inl ⟨hkeep.trans herr, rfl, rfl⟩
  | advance => exact .inl ⟨herr, rfl, rfl⟩
  | regRead n =>
    rw [HostInterface.hostRegRead_eq]
    exact .inl ⟨herr, rfl, rfl⟩
  | regWrite n v hhead =>
    obtain ⟨_, _, _, _, _, _, _, _, _, heq, -, -, hrecord⟩ :=
      writeRegister_frame n v (logHost (.regWrite n v) (popped s))
    rw [heq]
    rcases hrecord herr with ⟨rfl, hbit⟩ | ⟨hst, hcode, hinfo⟩
    · exact .inr (.inl ⟨v, hhead, hbit⟩)
    · exact .inl ⟨hst, hcode, hinfo⟩
  | command c f p l =>
    rw [HostInterface.acceptCommand_of_busyOrErr (s := logHost _ (popped s)) (.inr herr)]
    exact .inl ⟨herr, rfl, rfl⟩
  | pixRead i => exact .inl ⟨herr, rfl, rfl⟩
  | pixWrite i v => exact .inl ⟨herr, rfl, rfl⟩
  | rst hhead => exact .inr (.inr hhead)
  | codec k => exact .inl ⟨herr, rfl, rfl⟩

/-- Settles O40: by cases on what a turn can do. -/
theorem recordedErrorIsKept : Obligations.RecordedErrorIsKept := fun _ _ herr hstep =>
  (errorKept_of_turn herr (step_turn hstep)).imp_left fun h => ⟨h.err, h.errcode, h.errinfo⟩

/-! ### A running command raises no error (R116, R145) -/

/-- The engine of a running command is answered however it comes to its turn: its step does not depend on the
script. -/
theorem step_answered {s : State} (hinv : Inv s) (hbacked : Backed s) (hbusy : s.status.busy = true)
    (hnext : EngineNext s) : ∃ t, step s = .next t := by
  have hinv' : Inv { s with script := [] } := Invariant.inv_of_frame hinv hinv.memory
  obtain ⟨u, hu⟩ : ∃ u, step { s with script := [] } = .next u := by
    rcases EngineSteps.step_of_running (s := { s with script := [] }) rfl hbusy (hinv'.running hbusy) hbacked with
      ⟨-, h⟩ | ⟨-, h⟩ | ⟨-, h⟩ <;> exact ⟨_, h⟩
  obtain ⟨t, ht, -⟩ := HostInterface.engineStepIsDetermined { s with script := [] } s u
    ⟨rfl, rfl, rfl, rfl, rfl, rfl, rfl, rfl⟩ ⟨rfl, rfl, rfl, rfl, rfl⟩ rfl (.inl rfl) hnext hbusy hbusy hu
  exact ⟨t, ht⟩

/-- An engine turn leaves a running block running or done (R110). -/
theorem busy_or_done_of_engineNext {s t : State} (hbusy : s.status.busy = true) (hnext : EngineNext s)
    (hstep : step s = .next t) : t.status.busy = true ∨ t.status.done = true := by
  rcases StateFlags.turn_busy_cases (step_turn hstep) with hsame | ⟨_, -, hkeep⟩ | ⟨-, -, -, hdone⟩ | ⟨hrst, -⟩
  · exact .inl (hsame.trans hbusy)
  · exact .inl (hkeep hbusy)
  · exact .inr hdone
  · rcases hnext with hs | hhead
    · rw [hs] at hrst
      cases hrst
    · cases hhead.symm.trans hrst

/-- The flags of the invariant are exclusive, so a block that is running or done has no error recorded (R16, R24). -/
theorem no_error_of_busy_or_done {s : State} (hinv : Inv s) (h : s.status.busy = true ∨ s.status.done = true) :
    s.status.err = false ∧ s.errcode = .none := by
  have herr : ¬ s.status.err = true := fun herr =>
    h.elim (fun hbusy => hinv.busyErr ⟨hbusy, herr⟩) fun hdone => hinv.doneErr ⟨hdone, herr⟩
  exact ⟨Bool.eq_false_iff.mpr herr, not_not.mp (mt hinv.errcode.mpr herr)⟩

/-- Settles O47: the turn is answered, and its answer keeps the invariant and is running or done. -/
theorem runningEngineAlwaysSteps : Obligations.RunningEngineAlwaysSteps := by
  intro s hinv hbacked hbusy hnext
  obtain ⟨t, hstep⟩ := step_answered hinv hbacked hbusy hnext
  have hflag := busy_or_done_of_engineNext hbusy hnext hstep
  obtain ⟨herr, hcode⟩ := no_error_of_busy_or_done (Invariant.stepKeepsInv s t hinv hstep) hflag
  exact ⟨t, hstep, herr, hcode, hflag⟩

/-! ### The interrupt output (R118) -/

/-- Settles O31: irq is that formula in Booleans, and reset clears DONE and ERR. -/
theorem irqIsPendingAndEnabled : Obligations.IrqIsPendingAndEnabled :=
  ⟨fun s => by simp only [irq, Bool.or_eq_true, Bool.and_eq_true], rfl, fun _ => rfl⟩

end Sys2Proof.Proofs.Exceptions
end

section
/-! SUPPORT. Proofs about reset as an event (spec/70_reset_and_hazards.md R133, R134): what the step that serves rst
answers, whether or not a command is running. -/

namespace Sys2Proof.Proofs.Reset

open Sys2Proof.Machine Sys2Proof.Safety Sys2Proof.Laws

/-- A pending rst is served whatever the block is doing: no check of BUSY stands before it (R134). -/
theorem step_of_rst {s : State} {rest : List Event} (h : s.script = .rst :: rest) :
    step s = .next (resetBlock { s with script := rest }) :=
  PixelMemory.step_of_script h

/-- Settles O33: the answer is the reset block. `resetBlock` takes the registers from `State.reset`, whose values O32
gives, and pixel memory, the accesses and the script from the state it is applied to. -/
theorem resetEventAbandonsCommand : Obligations.ResetEventAbandonsCommand := by
  intro s rest hscript
  obtain ⟨hstatus, halpha, hinten, hbuflen, hwidth, hheight, hradius, hcode, hinfo, huop, -⟩ :=
    StateFlags.resetRegisterValues
  exact ⟨_, step_of_rst hscript, hstatus, halpha, hinten, hbuflen, hwidth, hheight, hradius, hcode, hinfo, huop,
    resetBlock_mem _, resetBlock_accesses _, resetBlock_script _⟩

end Sys2Proof.Proofs.Reset
end
